-- ==== Sys2Proof/Word.lean ====
section
/-! DEFINITION. The word types of the engine (00_scope.md R16) and their plainest uses. -/

namespace Sys2Proof

/-- `u8`: a byte of the DATA buffer, of the UART stream or of an address. -/
abbrev Byte := BitVec 8

/-- `u32`: a host register (10_state.md R20). -/
abbrev Word := BitVec 32

/-- A device address viewed as the 64-bit number whose byte k is bits 8k+7:8k (30_encoding.md R64). -/
abbrev Rom := BitVec 64

/-- A byte address of host space, 0x0000 to 0x1FFF, 13 bits (20_memory.md R38). -/
abbrev HostAddr := BitVec 13

end Sys2Proof
end

