-- ==== Sys2Proof/Config.lean ====
section
/-! DEFINITION. What an implementation of the engine fixes (00_scope.md R7 to R15), the alphabet of
the outside world (R6), and the free values: constants with no body. -/

namespace Sys2Proof

/-- The two symbol rates (00_scope.md R7, R8). -/
inductive Rate where
  | reset
  | data
  deriving DecidableEq, Repr, Inhabited

/-- Bits per second: `RATE_RESET = 9600`, `RATE_DATA = 115200` (00_scope.md R7, R8). -/
def Rate.bps : Rate → Nat
  | .reset => 9600
  | .data => 115200

/-- The named timing parameters (00_scope.md R15). -/
inductive TimeParam where
  | resetSettle
  | chunkSettle
  | readTimeout
  deriving DecidableEq, Repr, Inhabited

/-- `BUF_BYTES` (00_scope.md R12) and `MAX_DEVICES` (R13). -/
structure Params where
  bufBytes : Nat
  maxDevices : Nat
  deriving DecidableEq, Repr, Inhabited

/-- The values "when a model does not choose" (00_scope.md R12, R13). -/
def Params.standard : Params := ⟨256, 64⟩

/-- Width of a host access (20_memory.md R39). -/
inductive Width where
  | w8
  | w16
  | w32
  deriving DecidableEq, Repr, Inhabited

def Width.bytes : Width → Nat
  | .w8 => 1
  | .w16 => 2
  | .w32 => 4

/-- One host load or store at an absolute byte address of host space (40_transport.md R135). A narrow
store takes the low bits of its word. -/
inductive HostAccess where
  | read (w : Width) (a : HostAddr)
  | write (w : Width) (a : HostAddr) (v : Word)
  deriving DecidableEq, Repr, Inhabited

/-- LINE's answer to one primitive step (20_memory.md R45): success or failure of an open, a rate
switch or a transmit, of which `sent` bytes went out. No other primitive step looks at it: whether a
short read times out is drawn with the moment of the ENGINE's turn (log 1). -/
inductive LineAnswer where
  | ok
  | fail (sent : Nat)
  deriving DecidableEq, Repr, Inhabited

/-- One atomic step of one agent (00_scope.md R6): a host access, a primitive step of the ENGINE with
LINE's answer to it, a byte LINE appends to the receive FIFO, or a block reset. -/
inductive Turn where
  | host (a : HostAccess)
  | engine (ans : LineAnswer)
  | line (v : Byte)
  | blockReset
  deriving DecidableEq, Repr, Inhabited

namespace Config

/-- `CHUNK` (00_scope.md R10). -/
def chunk : Nat := 16

/-- Host offset of DATA (10_state.md R20). -/
def dataBase : Nat := 0x100

/-- Host offset of ROMTAB (10_state.md R20). -/
def romtabBase : Nat := 0x1000

/-- `ROM_BYTES` and `ROM_BITS` (00_scope.md R11). -/
def romBytes : Nat := 8
def romBits : Nat := 64

/-- FREE VALUE (20_memory.md R45; log 1): the turn taken when the agenda lists none. -/
opaque turn : Nat → Turn

/-- FREE VALUE (20_memory.md R39, R54; log 12): what an unspecified host read returns. -/
opaque freeWord : Nat → Word

/-- `PORT`, the serial device the engine owns (00_scope.md R14); no rule reads it. -/
opaque port : Nat

/-- The lengths of the waits (00_scope.md R15); no rule reads them (70_reset_and_hazards.md R131). -/
opaque duration : TimeParam → Nat

end Config

end Sys2Proof
end

