-- ==== Sys2Proof/Syntax.lean ====
section
/-! DEFINITION. The instructions: one constructor per row of spec/opcode_table.json, in the table's
order. Format C (30_encoding.md R59): the host's commands, with the operands R58 assembles, latched at
command accept. Format W (R61, R62, R65, R66): the codes a byte on the wire stands for. -/

namespace Sys2Proof

inductive Instr where
  -- format C: transport (40_transport.md)
  | nop
  | openPort (rsel : Rate)
  | close
  | switchRate (rsel : Rate)
  | flush
  | uartWrite (n off : Word)
  | uartRead (n off : Word)
  -- format C: bus engine (42_bus_engine.md)
  | owReset
  | owTouch (n off : Word)
  | owWriteByte (b : Byte)
  | owReadByte
  | owSelect (rom : Rom)
  -- format C: discovery (43_rom_search.md)
  | owSearch
  -- format C: CRC-8 (41_crc8.md)
  | crcCompute (n off : Word)
  | crcValidate (n off : Word)
  -- format W: wire codes (30_encoding.md R61, R62, R65, R66)
  | wireTouch1
  | wireTouch0
  | wireReset
  | romMatch
  | romSearch
  | fnConvertT
  | fnReadScratchpad
  deriving DecidableEq, Repr, Inhabited

/-- Is it one of the host's commands (format C, 30_encoding.md R56)? -/
def Instr.isCommand : Instr → Bool
  | .nop | .openPort _ | .close | .switchRate _ | .flush | .uartWrite _ _ | .uartRead _ _
  | .owReset | .owTouch _ _ | .owWriteByte _ | .owReadByte | .owSelect _ | .owSearch
  | .crcCompute _ _ | .crcValidate _ _ => true
  | .wireTouch1 | .wireTouch0 | .wireReset | .romMatch | .romSearch | .fnConvertT
  | .fnReadScratchpad => false

end Sys2Proof
end

