-- ==== Sys2Proof/WellFormed.lean ====
section
/-! DEFINITION. Which terms stand for something the spec admits. -/

namespace Sys2Proof

/-- Every instruction is well formed: each operand's type admits exactly the values 30_encoding.md R58
gives it, and a byte sequence that does not fit the DATA buffer is no ill-formed command but the
run-time error ARG_RANGE (60_exceptions.md R110). Written out per constructor so that a new one must
be judged. -/
def Instr.wellFormed : Instr → Bool
  | .nop | .openPort _ | .close | .switchRate _ | .flush | .uartWrite _ _ | .uartRead _ _ => true
  | .owReset | .owTouch _ _ | .owWriteByte _ | .owReadByte | .owSelect _ => true
  | .owSearch => true
  | .crcCompute _ _ | .crcValidate _ _ => true
  | .wireTouch1 | .wireTouch0 | .wireReset | .romMatch | .romSearch | .fnConvertT
  | .fnReadScratchpad => true

/-- The legal parameter values: `BUF_BYTES` 16 to 3840 (00_scope.md R12), `MAX_DEVICES` 1 to 512
(R13). -/
def Params.legal (p : Params) : Bool :=
  decide (16 ≤ p.bufBytes) && decide (p.bufBytes ≤ 3840)
    && decide (1 ≤ p.maxDevices) && decide (p.maxDevices ≤ 512)

end Sys2Proof
end

