-- ==== Sys2Proof/Decode.lean ====
section
/-! DEFINITION. Decoding (30_encoding.md) and, after it, the encoder. A command is a 32-bit store to
CMD, read together with the operand registers as they stand (R56, R57). A wire code is one byte, read
by where it stands on the wire (R61, R62, R65, R66). Both decoders are total and reject by name. -/

namespace Sys2Proof

/-- The word written to CMD and the operand registers at that moment (30_encoding.md R57). -/
structure CmdImage where
  cmd : Word
  arg0 : Word
  arg1 : Word
  rom0 : Word
  rom1 : Word
  deriving DecidableEq, Repr, Inhabited

/-- Where a byte stands on the 1-Wire bus: one data-phase UART byte (R61), the one reset-phase UART
byte (R62), or a byte sent as eight touched bits, as a ROM command (R65) or a function command (R66). -/
inductive WireLevel where
  | slot
  | resetSymbol
  | romCommand
  | functionCommand
  deriving DecidableEq, Repr, Inhabited

/-- What is decoded. -/
inductive Source where
  | command (img : CmdImage)
  | wire (level : WireLevel) (b : Byte)
  deriving DecidableEq, Repr, Inhabited

/-- Why a decoder rejects. -/
inductive Reject where
  /-- A reserved opcode (30_encoding.md R60): command accept answers it with ILLEGAL_OP. -/
  | reservedOpcode (op : Byte)
  /-- A byte that is no wire code at its place; the engine puts it on the wire as it is. -/
  | noWireCode (level : WireLevel) (b : Byte)
  deriving DecidableEq, Repr, Inhabited

/-- `OP = CMD[7:0]`; CMD[31:8] is ignored (30_encoding.md R56). -/
def CmdImage.op (img : CmdImage) : Byte := img.cmd.extractLsb' 0 8

/-- `rsel = a0[0]` (30_encoding.md R58). -/
def rateOf (a0 : Word) : Rate := if a0.getLsbD 0 then .data else .reset

/-- `b = a0[7:0]` (30_encoding.md R58). -/
def byteOf (a0 : Word) : Byte := a0.extractLsb' 0 8

/-- The address operand: byte k is ROM0[8k+7:8k] for k = 0..3, ROM1[8(k-4)+7:8(k-4)] for k = 4..7
(10_state.md R26). -/
def romOf (rom0 rom1 : Word) : Rom := rom1 ++ rom0

/-- The opcode map (30_encoding.md R59) with the operands of R58. -/
def decodeCommand (img : CmdImage) : Except Reject Instr :=
  let op := img.op
  if op = 0x00 then .ok .nop
  else if op = 0x01 then .ok (.openPort (rateOf img.arg0))
  else if op = 0x02 then .ok .close
  else if op = 0x03 then .ok (.switchRate (rateOf img.arg0))
  else if op = 0x04 then .ok .flush
  else if op = 0x05 then .ok (.uartWrite img.arg0 img.arg1)
  else if op = 0x06 then .ok (.uartRead img.arg0 img.arg1)
  else if op = 0x10 then .ok .owReset
  else if op = 0x11 then .ok (.owTouch img.arg0 img.arg1)
  else if op = 0x12 then .ok (.owWriteByte (byteOf img.arg0))
  else if op = 0x13 then .ok .owReadByte
  else if op = 0x14 then .ok (.owSelect (romOf img.rom0 img.rom1))
  else if op = 0x20 then .ok .owSearch
  else if op = 0x30 then .ok (.crcCompute img.arg0 img.arg1)
  else if op = 0x31 then .ok (.crcValidate img.arg0 img.arg1)
  else .error (.reservedOpcode op)

/-- The wire codes (30_encoding.md R61, R62, R65, R66). -/
def decodeWire (level : WireLevel) (b : Byte) : Except Reject Instr :=
  match level with
  | .slot =>
    if b = 0xFF then .ok .wireTouch1
    else if b = 0x00 then .ok .wireTouch0
    else .error (.noWireCode level b)
  | .resetSymbol => if b = 0xF0 then .ok .wireReset else .error (.noWireCode level b)
  | .romCommand =>
    if b = 0x55 then .ok .romMatch
    else if b = 0xF0 then .ok .romSearch
    else .error (.noWireCode level b)
  | .functionCommand =>
    if b = 0x44 then .ok .fnConvertT
    else if b = 0xBE then .ok .fnReadScratchpad
    else .error (.noWireCode level b)

/-- The whole decoder. -/
def decode : Source → Except Reject Instr
  | .command img => decodeCommand img
  | .wire level b => decodeWire level b

/-- A CMD word with the operand registers it reads, the others zero. -/
def CmdImage.plain (op : Word) : CmdImage := ⟨op, 0, 0, 0, 0⟩

/-- `a0[0]` for a rate (30_encoding.md R58, R68). -/
def rselOf : Rate → Word
  | .reset => 0
  | .data => 1

/-- The encoder, from the opcode map (30_encoding.md R59) and the operand table (R58), reserved bits and
unread operands zero, and from the wire encoding (R61, R62, R65, R66). -/
def encode : Instr → Source
  | .nop => .command (.plain 0x00)
  | .openPort r => .command { CmdImage.plain 0x01 with arg0 := rselOf r }
  | .close => .command (.plain 0x02)
  | .switchRate r => .command { CmdImage.plain 0x03 with arg0 := rselOf r }
  | .flush => .command (.plain 0x04)
  | .uartWrite n off => .command { CmdImage.plain 0x05 with arg0 := n, arg1 := off }
  | .uartRead n off => .command { CmdImage.plain 0x06 with arg0 := n, arg1 := off }
  | .owReset => .command (.plain 0x10)
  | .owTouch n off => .command { CmdImage.plain 0x11 with arg0 := n, arg1 := off }
  | .owWriteByte b => .command { CmdImage.plain 0x12 with arg0 := b.setWidth 32 }
  | .owReadByte => .command (.plain 0x13)
  | .owSelect rom =>
    .command { CmdImage.plain 0x14 with rom0 := rom.extractLsb' 0 32, rom1 := rom.extractLsb' 32 32 }
  | .owSearch => .command (.plain 0x20)
  | .crcCompute n off => .command { CmdImage.plain 0x30 with arg0 := n, arg1 := off }
  | .crcValidate n off => .command { CmdImage.plain 0x31 with arg0 := n, arg1 := off }
  | .wireTouch1 => .wire .slot 0xFF
  | .wireTouch0 => .wire .slot 0x00
  | .wireReset => .wire .resetSymbol 0xF0
  | .romMatch => .wire .romCommand 0x55
  | .romSearch => .wire .romCommand 0xF0
  | .fnConvertT => .wire .functionCommand 0x44
  | .fnReadScratchpad => .wire .functionCommand 0xBE

/-- The byte that stands for an instruction: OP for a command, the byte itself for a wire code. -/
def opByte (i : Instr) : Byte :=
  match encode i with
  | .command img => img.op
  | .wire _ b => b

/-- First of the decoders that accepts. -/
def firstDecoded : List Source → Option Instr
  | [] => none
  | src :: rest =>
    match decode src with
    | .ok i => some i
    | .error _ => firstDecoded rest

/-- The instruction a row of spec/opcode_table.json stands for, from its bits. A row of one byte may be a
command's opcode or a wire code, and two values occur twice in the table (0x00: NOP and WIRE_TOUCH_0;
0xF0: WIRE_RESET and ROM_SEARCH): a command is preferred, then the table's order (log 9). Anything
wider than a byte is a CMD word. -/
def decodeTableWord (nbits w : Nat) : Option Instr :=
  let b := BitVec.ofNat 8 w
  let command := Source.command (.plain (BitVec.ofNat 32 w))
  if nbits ≤ 8 then
    firstDecoded [.command (.plain (b.setWidth 32)), .wire .slot b, .wire .resetSymbol b,
      .wire .romCommand b, .wire .functionCommand b]
  else
    firstDecoded [command]

end Sys2Proof
end

