-- ==== Sys2Proof/Machine/State.lean ====
section
/-! DEFINITION. The state of the engine (10_state.md), as plain data; the reasons a step can stop; the
state after reset (70_reset_and_hazards.md R120). -/

namespace Sys2Proof.Machine

open Sys2Proof

/-- The error codes of STATUS.ERR and SRCH_STAT.ABORT (60_exceptions.md R107); 10 to 15 are never
produced, so they have no constructor. -/
inductive ErrCode where
  | ok
  | transport
  | noPresence
  | deviceLost
  | dataIntegrity
  | noResponse
  | illegalOp
  | badState
  | argRange
  | resultOverflow
  deriving DecidableEq, Repr, Inhabited

/-- The events of the wire history (10_state.md R35). -/
inductive Event where
  | tx (rate : Rate) (bs : List Byte)
  | rx (bs : List Byte)
  | flush
  | setRate (rate : Rate)
  | opened (rate : Rate)
  | closed
  | delay (t : TimeParam)
  | lineRx (v : Byte)
  deriving DecidableEq, Repr, Inhabited

/-- The primitive steps of the ENGINE (00_scope.md R17). -/
inductive Prim where
  | uartOpen (r : Rate)
  | uartClose
  | uartFlush
  | uartSetRate (r : Rate)
  | uartTx (bs : List Byte)
  | uartRx (n : Nat)
  | delay (t : TimeParam)
  deriving DecidableEq, Repr, Inhabited

/-- Which part of its pseudocode an operation is in, with the round-local values of OW_SEARCH
(10_state.md R34: "positions of `st.seq`, not search state"). Every operation but OW_SEARCH stays at
`plain`. -/
inductive Phase where
  | plain
  /-- The bus reset of a round. -/
  | reset
  /-- The SEARCH_ROM byte of a round. -/
  | command
  /-- The two read slots of position `p`. -/
  | pair (p : Nat) (cand : Rom) (marker : Nat)
  /-- Direction `d` written back at position `p`. -/
  | direct (p : Nat) (d : Bool) (cand : Rom) (marker : Nat)
  deriving DecidableEq, Repr, Inhabited

/-- The position k of a running operation (10_state.md R33): nothing done yet; the primitive steps of
this part still to come, with the bytes its reads have returned; or a raise that completion will
report (log 5). -/
inductive Pos where
  | start
  | going (ph : Phase) (todo : List Prim) (got : List Byte)
  | raised (e : ErrCode)
  deriving DecidableEq, Repr, Inhabited

/-- `st.seq` (10_state.md R33). `illegal` is RUN of a reserved opcode (30_encoding.md R57, R60). -/
inductive Seq where
  | idle
  | illegal
  | run (i : Instr) (pos : Pos)
  deriving DecidableEq, Repr, Inhabited

/-- Why the machine stops. -/
inductive Fault where
  /-- Raised by an operation whose MemRead reaches a DATA byte never written since block reset
  (UART_WRITE, OW_TOUCH, CRC_COMPUTE, CRC_VALIDATE; 10_state.md R36). Safe: the spec gives no value. -/
  | unwrittenOperand
  /-- Raised by a host load of a DATA byte never written since block reset (10_state.md R36). Safe. -/
  | unwrittenHostRead
  deriving DecidableEq, Repr, Inhabited

/-- Why an instruction has no meaning. -/
inductive Refusal where
  /-- Raised by `exec` for an instruction that has no meaning yet. Safe. None is left. -/
  | notModelled (mnemonic : String)
  deriving DecidableEq, Repr, Inhabited

/-- Everything 10_state.md gives the engine, then the model's own fields. BUSY, OPEN, RATE and LDF of
STATUS, and LD, ABORT and PSEEN of SRCH_STAT, are views of the fields named in their rules (R22, R27)
and are computed from them (Machine/Flags.lean). -/
structure State where
  /-- `BUF_BYTES`, `MAX_DEVICES`: fixed for the machine (00_scope.md R12, R13; log 4). -/
  params : Params
  /-- `st.open` (R32). -/
  portOpen : Bool
  /-- `st.rate` (R32). -/
  rate : Rate
  /-- `st.rx`, oldest byte first (R32). -/
  rx : List Byte
  /-- `st.seq` (R33). -/
  seq : Seq
  /-- `st.ld` (R34). -/
  ld : Nat
  /-- `st.ldf` (R34). -/
  ldf : Bool
  /-- `st.ref` (R34). -/
  ref : Rom
  /-- `st.pseen` (R34). -/
  pseen : Bool
  /-- `st.cnt` (R34). -/
  cnt : Nat
  /-- `st.abort` (R34). -/
  abort : ErrCode
  /-- STATUS.DONE (R22). -/
  done : Bool
  /-- STATUS.PRESENT (R22). -/
  present : Bool
  /-- STATUS.OVR (R22). -/
  ovr : Bool
  /-- STATUS.ERR (R22). -/
  err : ErrCode
  /-- ARG0 (R23). -/
  arg0 : Word
  /-- ARG1 (R24). -/
  arg1 : Word
  /-- RESULT (R25). -/
  result : Word
  /-- ROM0 (R26). -/
  rom0 : Word
  /-- ROM1 (R26). -/
  rom1 : Word
  /-- DATA (R30) and ROMTAB (R31), by host address, in canonical form (Machine/Ops.lean). -/
  mem : List Host.Cell
  /-- `st.hist`, oldest event first (R35). -/
  hist : List Event
  /-- MODEL'S OWN: the response bit of the last WIRE_TOUCH code run on its own (log 8). -/
  touchResp : Option Bool
  /-- MODEL'S OWN: what the last host load returned (log 12). -/
  hostData : Word
  /-- MODEL'S OWN: LINE's answer to the ENGINE step in progress (log 2). -/
  answer : LineAnswer
  /-- MODEL'S OWN: the turns to come (log 1). -/
  agenda : List Turn
  /-- MODEL'S OWN: how many free values have been used (log 1, 12). -/
  draws : Nat
  deriving DecidableEq, Repr, Inhabited

/-- After power-on (70_reset_and_hazards.md R120), with the parameters "when a model does not choose"
(00_scope.md R12, R13). The model's own fields hold the values of log 3. -/
def State.reset : State where
  params := Params.standard
  portOpen := false
  rate := .reset
  rx := []
  seq := .idle
  ld := 0
  ldf := false
  ref := 0
  pseen := false
  cnt := 0
  abort := .ok
  done := false
  present := false
  ovr := false
  err := .ok
  arg0 := 0
  arg1 := 0
  result := 0
  rom0 := 0
  rom1 := 0
  mem := []
  hist := []
  touchResp := none
  hostData := 0
  answer := .ok
  agenda := []
  draws := 0

end Sys2Proof.Machine
end

