-- ==== Sys2Proof/Machine/Ops.lean ====
section
/-! DEFINITION. The operations the instructions share: memory, the wire history, command accept,
completion (the engine's whole exception mechanism, 60_exceptions.md R108, R109) and block reset; the
primitive steps (20_memory.md R46 to R50); and how an operation's pseudocode is walked one primitive
step at a time (00_scope.md R17, 70_reset_and_hazards.md R133). -/

namespace Sys2Proof.Machine

open Sys2Proof

/-! ### Memory: DATA and ROMTAB -/

/-- What an address that is not listed reads as: a DATA byte never written has no value (10_state.md
R36); every other byte of host space reads 0 (R31, 20_memory.md R40). -/
def Memory.unlisted (a : Nat) : Option Byte :=
  if Config.dataBase ≤ a ∧ a < Config.romtabBase then none else some 0

/-- The byte at host address `a`; `none` if it holds no value. -/
def Memory.read : List Host.Cell → Nat → Option Byte
  | [], a => Memory.unlisted a
  | (b, v) :: m, a => if a = b then some v else Memory.read m a

/-- Lists `a` with `v`, unless that is what an unlisted `a` reads as. -/
def Memory.cell (a : Nat) (v : Byte) : List Host.Cell :=
  if Memory.unlisted a = some v then [] else [(a, v)]

/-- Writes one byte, keeping the canonical form. -/
def Memory.write : List Host.Cell → Nat → Byte → List Host.Cell
  | [], a, v => Memory.cell a v
  | (b, w) :: m, a, v =>
    if a < b then Memory.cell a v ++ (b, w) :: m
    else if a = b then Memory.cell a v ++ m
    else (b, w) :: Memory.write m a v

/-- The canonical form: addresses strictly rising, no entry equal to what an unlisted address reads as. -/
def Memory.wf : List Host.Cell → Bool
  | [] => true
  | (a, v) :: m =>
    decide (Memory.unlisted a ≠ some v) && m.all (fun c => decide (a < c.1)) && Memory.wf m

/-- `n` bytes from address `a` on, if every one holds a value. -/
def Memory.readBytes (m : List Host.Cell) (a : Nat) : Nat → Option (List Byte)
  | 0 => some []
  | n + 1 =>
    match Memory.read m a, Memory.readBytes m (a + 1) n with
    | some b, some bs => some (b :: bs)
    | _, _ => none

/-- Writes bytes from address `a` on, the first at `a`. -/
def Memory.writeBytes (m : List Host.Cell) (a : Nat) : List Byte → List Host.Cell
  | [] => m
  | b :: bs => Memory.writeBytes (Memory.write m a b) (a + 1) bs

/-- Every ROMTAB byte 0 (43_rom_search.md R96). -/
def Memory.clearRomtab (m : List Host.Cell) : List Host.Cell :=
  m.filter (fun c => decide (c.1 < Config.romtabBase))

/-- Little-endian assembly of at most four bytes (20_memory.md R41). -/
def wordOfBytes : List Byte → Word
  | [] => 0
  | b :: bs => b.setWidth 32 ||| (wordOfBytes bs <<< 8)

/-- The `n` low bytes of a word, least significant first (20_memory.md R41). -/
def bytesOfWord (v : Word) : Nat → List Byte
  | 0 => []
  | n + 1 => v.extractLsb' 0 8 :: bytesOfWord (v >>> 8) n

/-- Host address of DATA offset `o` (10_state.md R30). -/
def dataAddr (o : Nat) : Nat := Config.dataBase + o

/-- Host address of byte 0 of ROMTAB entry `j` (10_state.md R31). -/
def romtabAddr (j : Nat) : Nat := Config.romtabBase + 8 * j

/-- `MemRead(off, n)` (20_memory.md R42); `none` if it reaches a byte that holds no value. -/
def State.memRead (s : State) (off n : Nat) : Option (List Byte) :=
  Memory.readBytes s.mem (dataAddr off) n

/-- `MemWrite(off, n, bs)` (20_memory.md R42). -/
def State.memWrite (s : State) (off : Nat) (bs : List Byte) : State :=
  { s with mem := Memory.writeBytes s.mem (dataAddr off) bs }

/-! ### The sequencer, completion and block reset -/

/-- STATUS.BUSY: `st.seq != IDLE` (10_state.md R22). -/
def State.busy (s : State) : Bool :=
  match s.seq with
  | .idle => false
  | .illegal => true
  | .run _ _ => true

/-- The position of the running operation; an operation not yet running is at its start. -/
def State.pos (s : State) : Pos :=
  match s.seq with
  | .run _ p => p
  | .idle => .start
  | .illegal => .start

/-- Appends an event to the wire history (10_state.md R35). -/
def State.record (s : State) (e : Event) : State := { s with hist := s.hist ++ [e] }

/-- Moves the sequencer. -/
def State.setSeq (s : State) (q : Seq) : State := { s with seq := q }

/-- Command accept, the part after the BUSY test (30_encoding.md R57): it clears what the last
completion reported. -/
def State.accept (s : State) (q : Seq) : State :=
  { s with seq := q, done := false, err := .ok, ovr := false }

/-- Completion (60_exceptions.md R108): the one way an operation ends, with or without an error. Nothing
is rolled back. -/
def State.complete (s : State) (e : ErrCode) : State :=
  { s with err := e, done := true, seq := .idle }

/-- Block reset (70_reset_and_hazards.md R119): every field its reset value, the history kept, with
`Close` appended if the port was open. The parameters and the fields that stand for the outside world
(agenda, answer, draws, the host's own copy of its last load) are not the engine's to reset (log 15). -/
def State.blockReset (s : State) : State :=
  { State.reset with
    params := s.params
    hist := if s.portOpen then s.hist ++ [.closed] else s.hist
    hostData := s.hostData
    answer := s.answer
    agenda := s.agenda
    draws := s.draws }

/-- LINE appends a byte to the receive FIFO; with the port closed it has no step (20_memory.md R44). -/
def State.lineAppend (s : State) (v : Byte) : State :=
  if s.portOpen then { s with rx := s.rx ++ [v], hist := s.hist ++ [.lineRx v] } else s

/-! ### The primitive steps -/

/-- How a primitive step ends. -/
inductive PrimResult where
  /-- It succeeded and returned these bytes. -/
  | ok (s : State) (bs : List Byte)
  /-- It raised TRANSPORT. -/
  | raised (s : State)

/-- `UartOpen(r)` (40_transport.md R71). -/
def uartOpen (r : Rate) (s : State) : PrimResult :=
  match s.answer with
  | .ok => .ok { s.record (.opened r) with portOpen := true, rate := r, rx := [] } []
  | .fail _ => .raised (s.record (.opened r))

/-- `UartClose()` (40_transport.md R72). -/
def uartClose (s : State) : PrimResult :=
  .ok { s.record .closed with portOpen := false, rx := [] } []

/-- `UartFlush()` (20_memory.md R46). -/
def uartFlush (s : State) : PrimResult :=
  if s.portOpen then .ok { s.record .flush with rx := [] } [] else .raised s

/-- `UartSetRate(r)` (20_memory.md R47). -/
def uartSetRate (r : Rate) (s : State) : PrimResult :=
  if s.portOpen then
    match s.answer with
    | .ok => .ok { s.record (.setRate r) with rx := [], rate := r } []
    | .fail _ => .raised { s.record (.setRate r) with rx := [], portOpen := false }
  else .raised s

/-- The part of a transmit that went out when it fails: the proper beginning of `bs` that LINE drew
(20_memory.md R48). -/
def sentPart (bs : List Byte) (sent : Nat) : List Byte := bs.take (min sent (bs.length - 1))

/-- `UartTx(bs)` (20_memory.md R48). -/
def uartTx (bs : List Byte) (s : State) : PrimResult :=
  if s.portOpen then
    if bs = [] then .ok s []
    else
      match s.answer with
      | .ok => .ok (s.record (.tx s.rate bs)) []
      | .fail sent => .raised (s.record (.tx s.rate (sentPart bs sent)))
  else .raised s

/-- `UartRx(n)` (20_memory.md R49): the step in which it ends, complete where enough bytes are there and
the timeout where they are not. While it blocks it takes no step, and LINE and HOST go on; the ENGINE's
turn is the moment it ends, so a read that is given a turn never goes on waiting (log 1). -/
def uartRx (n : Nat) (s : State) : PrimResult :=
  if s.portOpen then
    if n = 0 then .ok s []
    else if n ≤ s.rx.length then
      .ok { s.record (.rx (s.rx.take n)) with rx := s.rx.drop n } (s.rx.take n)
    else .raised { s.record (.rx s.rx) with rx := [] }
  else .raised s

/-- `Delay(T)` (20_memory.md R50). -/
def uartDelay (t : TimeParam) (s : State) : PrimResult := .ok (s.record (.delay t)) []

/-- One primitive step. -/
def runPrim : Prim → State → PrimResult
  | .uartOpen r, s => uartOpen r s
  | .uartClose, s => uartClose s
  | .uartFlush, s => uartFlush s
  | .uartSetRate r, s => uartSetRate r s
  | .uartTx bs, s => uartTx bs s
  | .uartRx n, s => uartRx n s
  | .delay t, s => uartDelay t s

/-! ### Walking an operation -/

/-- Performs primitive `p` of operation `i`, with `rest` after it in the same part. -/
def stepPrim (i : Instr) (ph : Phase) (p : Prim) (rest : List Prim) (got : List Byte) (s : State) :
    Host.Outcome State Fault Refusal :=
  match runPrim p s with
  | .ok s' bs => .next (s'.setSeq (.run i (.going ph rest (got ++ bs))))
  | .raised s' => .next (s'.setSeq (.run i (.raised .transport)))

/-- What an operation's pseudocode does before its first primitive step. -/
inductive Launch where
  /-- It reads a byte that holds no value. -/
  | fault (f : Fault)
  /-- It raises before any primitive step (60_exceptions.md R110). -/
  | raise (e : ErrCode)
  /-- It goes on in this state with these primitive steps. -/
  | go (s : State) (todo : List Prim)

/-- One ENGINE step of an operation whose primitive steps are all known when it starts: `launch` is the
pseudocode before them, `finish` the pseudocode after them, from the bytes they returned. Lines that
are no primitive step execute with the next primitive step, or with completion
(70_reset_and_hazards.md R133). -/
def runPlan (i : Instr) (launch : State → Launch)
    (finish : List Byte → State → Host.Outcome State Fault Refusal) (s : State) :
    Host.Outcome State Fault Refusal :=
  match s.pos with
  | .start =>
    match launch s with
    | .fault f => .fault f
    | .raise e => .next (s.complete e)
    | .go s' [] => finish [] s'
    | .go s' (p :: rest) => stepPrim i .plain p rest [] s'
  | .going ph (p :: rest) got => stepPrim i ph p rest got s
  | .going _ [] got => finish got s
  | .raised e => .next (s.complete e)

/-- The next state, where there is one. -/
def nextState? : Host.Outcome State Fault Refusal → Option State
  | .next s => some s
  | .fault _ => none
  | .refused _ => none

end Sys2Proof.Machine
end

