-- ==== Sys2Proof/Machine/Operands.lean ====
section
/-! DEFINITION. Operands: the range check and the DATA bytes an operation reads (30_encoding.md R58,
40_transport.md R135), bits and bytes on the wire (R61, R63), and the bit positions of a device
address (43_rom_search.md R95). -/

namespace Sys2Proof.Machine

open Sys2Proof

/-- The operand registers together with a word for CMD (30_encoding.md R57). -/
def State.image (s : State) (cmd : Word) : CmdImage := ⟨cmd, s.arg0, s.arg1, s.rom0, s.rom1⟩

/-- `off + n <= BUF_BYTES`, in unbounded arithmetic (30_encoding.md R58). -/
def State.inRange (s : State) (n off : Word) : Bool :=
  decide (off.toNat + n.toNat ≤ s.params.bufBytes)

/-- The range check and then `MemRead(off, n)`: ARG_RANGE comes first (60_exceptions.md R110). -/
def State.fetchOperand (s : State) (n off : Word) (go : List Byte → Launch) : Launch :=
  if s.inRange n off then
    match s.memRead off.toNat n.toNat with
    | some bs => go bs
    | none => .fault .unwrittenOperand
  else .raise .argRange

/-- `sym(1) = 0xFF`, `sym(0) = 0x00` (30_encoding.md R61): the wire codes WIRE_TOUCH_1 and WIRE_TOUCH_0. -/
def sym (b : Bool) : Byte := if b then opByte .wireTouch1 else opByte .wireTouch0

/-- `resp(e) = e[0]` (30_encoding.md R61). -/
def resp (e : Byte) : Bool := e.getLsbD 0

/-- `RESET_BYTE` (30_encoding.md R62): the wire code WIRE_RESET. -/
def resetByte : Byte := opByte .wireReset

/-- The bits of a byte, least significant first (30_encoding.md R63). -/
def bitsOfByte (b : Byte) : List Bool :=
  [b.getLsbD 0, b.getLsbD 1, b.getLsbD 2, b.getLsbD 3,
   b.getLsbD 4, b.getLsbD 5, b.getLsbD 6, b.getLsbD 7]

/-- The byte of a list of bits, least significant first (30_encoding.md R63). -/
def byteOfBits : List Bool → Byte
  | [] => 0
  | b :: bs => (if b then 1 else 0) ||| (byteOfBits bs <<< 1)

/-- `zext_8` of a bit (42_bus_engine.md R86). -/
def bitByte (b : Bool) : Byte := if b then 0x01 else 0x00

/-- Byte k of an address (30_encoding.md R64). -/
def romByte (rom : Rom) (k : Nat) : Byte := rom.extractLsb' (8 * k) 8

/-- The 8 bytes of an address, byte 0 first (30_encoding.md R64). -/
def romBytes (rom : Rom) : List Byte :=
  [romByte rom 0, romByte rom 1, romByte rom 2, romByte rom 3,
   romByte rom 4, romByte rom 5, romByte rom 6, romByte rom 7]

/-- `bitAt(rom, p)`, p = 1 to 64: bit p-1 of the address as a number (43_rom_search.md R95). -/
def bitAt (rom : Rom) (p : Nat) : Bool := rom.getLsbD (p - 1)

/-- `setBit(rom, p, d)` (43_rom_search.md R95). -/
def setBit (rom : Rom) (p : Nat) (d : Bool) : Rom :=
  if d then rom ||| ((1 : Rom) <<< (p - 1)) else rom &&& ~~~((1 : Rom) <<< (p - 1))

/-- `OwTouch(bits)` as primitive steps, `fuel` bits at most: chunks of at most CHUNK bits, each
transmitted, let settle and read back before the next (42_bus_engine.md R85). -/
def touchFrom : Nat → List Bool → List Prim
  | 0, _ => []
  | _ + 1, [] => []
  | fuel + 1, b :: bits =>
    let ch := (b :: bits).take Config.chunk
    .uartTx (ch.map sym) :: .delay .chunkSettle :: .uartRx ch.length
      :: touchFrom fuel ((b :: bits).drop Config.chunk)

/-- `OwTouch(bits)` (42_bus_engine.md R85). -/
def touchPrims (bits : List Bool) : List Prim := touchFrom bits.length bits

/-- `OwWriteByte(b)` (42_bus_engine.md R87): one chunk of 8. -/
def writeBytePrims (b : Byte) : List Prim := touchPrims (bitsOfByte b)

/-- `OwReadByte()`'s touches (42_bus_engine.md R89): eight read slots. -/
def readBytePrims : List Prim := touchPrims (List.replicate 8 true)

/-- `OwSelect(rom)` (42_bus_engine.md R91): MATCH_ROM, then the 8 address bytes, 9 byte writes. -/
def selectPrims (rom : Rom) : List Prim :=
  (opByte .romMatch :: romBytes rom).flatMap writeBytePrims

/-- `OwReset()`'s primitive steps (42_bus_engine.md R83). -/
def resetPrims : List Prim :=
  [.uartFlush, .uartSetRate .reset, .uartTx [resetByte], .delay .resetSettle, .uartRx 1,
   .uartSetRate .data]

end Sys2Proof.Machine
end

