-- ==== Sys2Proof/Machine/Flags.lean ====
section
/-! DEFINITION. The status fields: the codes of the errors (60_exceptions.md R107), the words STATUS
(10_state.md R22) and SRCH_STAT (R27) as the host reads them, and the presence rule (30_encoding.md
R62). -/

namespace Sys2Proof.Machine

open Sys2Proof

/-- The number of an error code (60_exceptions.md R107). -/
def ErrCode.code : ErrCode → BitVec 4
  | .ok => 0
  | .transport => 1
  | .noPresence => 2
  | .deviceLost => 3
  | .dataIntegrity => 4
  | .noResponse => 5
  | .illegalOp => 6
  | .badState => 7
  | .argRange => 8
  | .resultOverflow => 9

/-- A Boolean as a register field. -/
def flag (b : Bool) : BitVec 1 := if b then 1 else 0

/-- STATUS.RATE: 1 at RATE_DATA, and 0 while the port is closed (10_state.md R22). -/
def State.rateFlag (s : State) : Bool := s.portOpen && decide (s.rate = .data)

/-- STATUS (10_state.md R22), most significant field first: reserved 31:12, ERR 11:8, reserved 7, OVR,
LDF, RATE, OPEN, PRESENT, DONE, BUSY. -/
def State.statusWord (s : State) : Word :=
  (0 : BitVec 20) ++ s.err.code ++ (0 : BitVec 1) ++ flag s.ovr ++ flag s.ldf ++ flag s.rateFlag
    ++ flag s.portOpen ++ flag s.present ++ flag s.done ++ flag s.busy

/-- SRCH_STAT (10_state.md R27), most significant field first: reserved 31:13, PSEEN, ABORT 11:8,
reserved 7, LD 6:0. -/
def State.srchStatWord (s : State) : Word :=
  (0 : BitVec 19) ++ flag s.pseen ++ s.abort.code ++ (0 : BitVec 1) ++ BitVec.ofNat 7 s.ld

/-- `presence <- (e != 0xF0) and (e != 0x00)` (30_encoding.md R62). -/
def presenceOf (e : Byte) : Bool := decide (e ≠ resetByte) && decide (e ≠ 0x00)

/-- `zext_32(x << 8 | flag)`: the layout of OW_RESET's and CRC_VALIDATE's RESULT (42_bus_engine.md R84,
41_crc8.md R82). -/
def packResult (x : Byte) (b : Bool) : Word := (0 : BitVec 16) ++ x ++ (0 : BitVec 7) ++ flag b

end Sys2Proof.Machine
end

