-- ==== Sys2Proof/Machine/HostSpace.lean ====
section
/-! DEFINITION. The host's accesses to host space (10_state.md R20, 20_memory.md R38 to R41, R52, R54)
and command accept (30_encoding.md R57). -/

namespace Sys2Proof.Machine

open Sys2Proof

/-- What a host access reaches (20_memory.md R39, R40). -/
inductive Target where
  /-- A register, at its offset. -/
  | register (off : Nat)
  | data
  | romtab
  /-- Reserved space: reads 0, writes ignored. -/
  | reserved
  /-- Misaligned, a register access narrower than 32 bits, or across the end of a region. -/
  | irregular
  deriving DecidableEq, Repr

/-- An access to a region of `size` bytes at `base` in a window of host space: inside it, beyond it, or
across its end. -/
def regionTarget (t : Target) (base size a n : Nat) : Target :=
  if a + n ≤ base + size then t else if base + size ≤ a then .reserved else .irregular

/-- Where an access of width `w` at `a` goes (20_memory.md R39, R40). DESIGN CHOICE (log 11): where both
rules speak, R39 (any value) goes before R40 (reads 0): a misaligned access is irregular in reserved
space too (a 32-bit one at 0x031, a 16-bit one at an odd offset beyond DATA or ROMTAB), and so is one
narrower than 32 bits to the reserved registers. -/
def accessTarget (p : Params) (w : Width) (a : Nat) : Target :=
  if a % w.bytes ≠ 0 then .irregular
  else if a < Config.dataBase then
    if w = .w32 then (if a ≤ 0x28 then .register a else .reserved) else .irregular
  else if a < Config.romtabBase then regionTarget .data Config.dataBase p.bufBytes a w.bytes
  else regionTarget .romtab Config.romtabBase (8 * p.maxDevices) a w.bytes

/-- The value of the register at an offset (10_state.md R20); CMD reads 0 (R21). -/
def State.regValue (s : State) (off : Nat) : Word :=
  if off = 0x004 then s.statusWord
  else if off = 0x008 then s.arg0
  else if off = 0x00C then s.arg1
  else if off = 0x010 then s.result
  else if off = 0x014 then s.rom0
  else if off = 0x018 then s.rom1
  else if off = 0x01C then s.srchStatWord
  else if off = 0x020 then BitVec.ofNat 32 s.cnt
  else if off = 0x024 then s.ref.extractLsb' 0 32
  else if off = 0x028 then s.ref.extractLsb' 32 32
  else 0

/-- The registers whose value is unspecified while BUSY = 1: RESULT, SRCH_STAT, SRCH_CNT, SRCH_REF0/1
(20_memory.md R54). -/
def volatileReg (off : Nat) : Bool :=
  off = 0x010 || off = 0x01C || off = 0x020 || off = 0x024 || off = 0x028

/-- A value cut to the width of the access. -/
def cutTo (w : Width) (v : Word) : Word :=
  match w with
  | .w8 => (v.extractLsb' 0 8).setWidth 32
  | .w16 => (v.extractLsb' 0 16).setWidth 32
  | .w32 => v

/-- A host load returns `v`. -/
def State.deliver (s : State) (v : Word) : State := { s with hostData := v }

/-- A host load returns an unspecified value: a fresh free value (20_memory.md R39, R54). -/
def State.deliverFree (s : State) (w : Width) : State :=
  { s with hostData := cutTo w (Config.freeWord s.draws), draws := s.draws + 1 }

/-- A load from DATA or ROMTAB: little-endian, a fault if a byte holds no value (10_state.md R36). -/
def State.loadBytes (s : State) (w : Width) (a : Nat) : Host.Outcome State Fault Refusal :=
  if s.busy then .next (s.deliverFree w)
  else
    match Memory.readBytes s.mem a w.bytes with
    | some bs => .next (s.deliver (wordOfBytes bs))
    | none => .fault .unwrittenHostRead

/-- A host load. It changes nothing in host space (20_memory.md R52). -/
def hostRead (w : Width) (a : HostAddr) (s : State) : Host.Outcome State Fault Refusal :=
  match accessTarget s.params w a.toNat with
  | .register off =>
    if s.busy && volatileReg off then .next (s.deliverFree w) else .next (s.deliver (s.regValue off))
  | .data => s.loadBytes w a.toNat
  | .romtab => s.loadBytes w a.toNat
  | .reserved => .next (s.deliver 0)
  | .irregular => .next (s.deliverFree w)

/-- What a CMD word starts: the instruction it decodes to with the operands latched, or RUN(ILLEGAL)
(30_encoding.md R57). -/
def State.decoded (s : State) (cmd : Word) : Seq :=
  match decodeCommand (s.image cmd) with
  | .ok i => .run i .start
  | .error _ => .illegal

/-- A host store to CMD (30_encoding.md R57). -/
def State.cmdWrite (s : State) (cmd : Word) : State :=
  if s.busy then { s with ovr := true } else s.accept (s.decoded cmd)

/-- A host store to the register at an offset: CMD issues a command; ARG0, ARG1, ROM0 and ROM1 are
ignored while BUSY = 1; every other register ignores writes (10_state.md R20, 20_memory.md R54). -/
def State.regWrite (s : State) (off : Nat) (v : Word) : State :=
  if off = 0x000 then s.cmdWrite v
  else if s.busy then s
  else if off = 0x008 then { s with arg0 := v }
  else if off = 0x00C then { s with arg1 := v }
  else if off = 0x014 then { s with rom0 := v }
  else if off = 0x018 then { s with rom1 := v }
  else s

/-- A host store. -/
def hostWrite (w : Width) (a : HostAddr) (v : Word) (s : State) : State :=
  match accessTarget s.params w a.toNat with
  | .register off => s.regWrite off v
  | .data =>
    if s.busy then s
    else { s with mem := Memory.writeBytes s.mem a.toNat (bytesOfWord v w.bytes) }
  | .romtab => s
  | .reserved => s
  | .irregular => s

/-- One host access. -/
def hostAccess (acc : HostAccess) (s : State) : Host.Outcome State Fault Refusal :=
  match acc with
  | .read w a => hostRead w a s
  | .write w a v => .next (hostWrite w a v s)

end Sys2Proof.Machine
end

