-- ==== Sys2Proof/Machine/Transport.lean ====
section
/-! DEFINITION. The transport operations (40_transport.md R70 to R76). -/

namespace Sys2Proof.Machine

open Sys2Proof

/-- Completion with ERR = OK and nothing else. -/
def finishOk (s : State) : Host.Outcome State Fault Refusal := .next (s.complete .ok)

/-- NOP (40_transport.md R70): no primitive step. -/
def execNop (s : State) : Host.Outcome State Fault Refusal :=
  runPlan .nop (fun s => .go s []) (fun _ s => finishOk s) s

/-- OPEN (40_transport.md R71). -/
def execOpen (r : Rate) (s : State) : Host.Outcome State Fault Refusal :=
  runPlan (.openPort r) (fun s => if s.portOpen then .raise .badState else .go s [.uartOpen r])
    (fun _ s => finishOk s) s

/-- CLOSE (40_transport.md R72): with the port closed it does nothing. -/
def execClose (s : State) : Host.Outcome State Fault Refusal :=
  runPlan .close (fun s => .go s (if s.portOpen then [.uartClose] else []))
    (fun _ s => finishOk s) s

/-- SWITCH_RATE (40_transport.md R73). -/
def execSwitchRate (r : Rate) (s : State) : Host.Outcome State Fault Refusal :=
  runPlan (.switchRate r) (fun s => .go s [.uartSetRate r]) (fun _ s => finishOk s) s

/-- FLUSH (40_transport.md R74). -/
def execFlush (s : State) : Host.Outcome State Fault Refusal :=
  runPlan .flush (fun s => .go s [.uartFlush]) (fun _ s => finishOk s) s

/-- UART_WRITE (40_transport.md R75). -/
def execUartWrite (n off : Word) (s : State) : Host.Outcome State Fault Refusal :=
  runPlan (.uartWrite n off) (fun s => s.fetchOperand n off (fun bs => .go s [.uartTx bs]))
    (fun _ s => finishOk s) s

/-- UART_READ (40_transport.md R76): DATA is written only when all n bytes were read. -/
def execUartRead (n off : Word) (s : State) : Host.Outcome State Fault Refusal :=
  runPlan (.uartRead n off)
    (fun s => if s.inRange n off then .go s [.uartRx n.toNat] else .raise .argRange)
    (fun bs s => finishOk (s.memWrite off.toNat bs)) s

end Sys2Proof.Machine
end

