-- ==== Sys2Proof/Machine/Crc.lean ====
section
/-! DEFINITION. The CRC-8 operations (41_crc8.md R81, R82): no primitive step, no open port needed. -/

namespace Sys2Proof.Machine

open Sys2Proof

/-- The pseudocode of a CRC operation: range check, MemRead, then `finish` with the bytes. -/
def crcOperand (i : Instr) (n off : Word)
    (finish : List Byte → State → Host.Outcome State Fault Refusal) (s : State) :
    Host.Outcome State Fault Refusal :=
  runPlan i (fun s => s.fetchOperand n off (fun _ => .go s []))
    (fun _ s =>
      match s.memRead off.toNat n.toNat with
      | some bs => finish bs s
      | none => .fault .unwrittenOperand) s

/-- CRC_COMPUTE (41_crc8.md R81). -/
def execCrcCompute (n off : Word) (s : State) : Host.Outcome State Fault Refusal :=
  crcOperand (.crcCompute n off) n off
    (fun bs s => finishOk { s with result := (crc8 bs).setWidth 32 }) s

/-- CRC_VALIDATE (41_crc8.md R82): RESULT is written before DATA_INTEGRITY is raised. -/
def execCrcValidate (n off : Word) (s : State) : Host.Outcome State Fault Refusal :=
  crcOperand (.crcValidate n off) n off
    (fun bs s =>
      .next (State.complete { s with result := packResult (crc8 bs) (crcValid bs) }
        (if crcValid bs then .ok else .dataIntegrity))) s

end Sys2Proof.Machine
end

