-- ==== Sys2Proof/Machine/BusEngine.lean ====
section
/-! DEFINITION. The bus engine operations (42_bus_engine.md R83 to R92). -/

namespace Sys2Proof.Machine

open Sys2Proof

/-- The one byte a bus reset read (42_bus_engine.md R83). A read of 1 returns exactly one (20_memory.md
R49), so the other cases are positions no run reaches (log 20). -/
def resetEcho (got : List Byte) : Byte := got.headD 0

/-- The lines of OwReset before its first primitive step (42_bus_engine.md R83). -/
def State.beginReset (s : State) : State := { s with present := false }

/-- The lines of OwReset after its last primitive step (42_bus_engine.md R83). -/
def State.endReset (s : State) (got : List Byte) : State :=
  { s with present := presenceOf (resetEcho got) }

/-- OW_RESET (42_bus_engine.md R84). -/
def execOwReset (s : State) : Host.Outcome State Fault Refusal :=
  runPlan .owReset (fun s => .go s.beginReset resetPrims)
    (fun got s =>
      finishOk { s.endReset got with
        result := packResult (resetEcho got) (presenceOf (resetEcho got)) }) s

/-- OW_TOUCH (42_bus_engine.md R86): input bit i is bit 0 of DATA[off+i]; the response bits are written
back only after the last chunk is read. -/
def execOwTouch (n off : Word) (s : State) : Host.Outcome State Fault Refusal :=
  runPlan (.owTouch n off)
    (fun s => s.fetchOperand n off (fun bs => .go s (touchPrims (bs.map resp))))
    (fun got s => finishOk (s.memWrite off.toNat (got.map (fun e => bitByte (resp e))))) s

/-- OW_WRITE_BYTE (42_bus_engine.md R88): the responses are discarded. -/
def execOwWriteByte (b : Byte) (s : State) : Host.Outcome State Fault Refusal :=
  runPlan (.owWriteByte b) (fun s => .go s (writeBytePrims b)) (fun _ s => finishOk s) s

/-- OW_READ_BYTE (42_bus_engine.md R90). -/
def execOwReadByte (s : State) : Host.Outcome State Fault Refusal :=
  runPlan .owReadByte (fun s => .go s readBytePrims)
    (fun got s => finishOk { s with result := (byteOfBits (got.map resp)).setWidth 32 }) s

/-- OW_SELECT (42_bus_engine.md R92): nothing is checked (R93). -/
def execOwSelect (rom : Rom) (s : State) : Host.Outcome State Fault Refusal :=
  runPlan (.owSelect rom) (fun s => .go s (selectPrims rom)) (fun _ s => finishOk s) s

end Sys2Proof.Machine
end

