-- ==== Sys2Proof/Machine/Search.lean ====
section
/-! DEFINITION. ROM discovery (43_rom_search.md): the initialisation R96, the position step R98, the end
of a round R100, the two ways OW_SEARCH ends (R101, R102), and OW_SEARCH itself (R103). -/

namespace Sys2Proof.Machine

open Sys2Proof

/-- The search state at the start of each OW_SEARCH (43_rom_search.md R96). -/
def State.initSearch (s : State) : State :=
  { s with
    ld := 0
    ldf := false
    ref := 0
    pseen := false
    cnt := 0
    abort := .ok
    mem := Memory.clearRomtab s.mem }

/-- `abort(code)` (43_rom_search.md R102). -/
def State.abortSearch (s : State) (code : ErrCode) : State :=
  State.complete { s with abort := code, result := BitVec.ofNat 32 s.cnt }
    (if code = ErrCode.resultOverflow then code else if s.pseen then ErrCode.ok else code)

/-- Normal termination (43_rom_search.md R101). -/
def State.finishSearch (s : State) : State :=
  State.complete { s with abort := .ok, result := BitVec.ofNat 32 s.cnt } .ok

/-- Begins a part of OW_SEARCH: its first primitive step is performed. -/
def beginPart (ph : Phase) (todo : List Prim) (s : State) : Host.Outcome State Fault Refusal :=
  match todo with
  | p :: rest => stepPrim .owSearch ph p rest [] s
  | [] => .next (s.setSeq (.run .owSearch (.going ph [] [])))

/-- A round begins with a bus reset (43_rom_search.md R97). -/
def beginRound (s : State) : Host.Outcome State Fault Refusal :=
  beginPart .reset resetPrims s.beginReset

/-- The two read slots of position `p` (43_rom_search.md R98, step 1). -/
def beginPosition (p : Nat) (cand : Rom) (marker : Nat) (s : State) :
    Host.Outcome State Fault Refusal :=
  beginPart (.pair p cand marker) (touchPrims [true, true]) s

/-- The direction taken at a discrepancy at position `p` (43_rom_search.md R98, step 4). -/
def State.branch (s : State) (p : Nat) : Bool :=
  if p < s.ld then bitAt s.ref p else decide (p = s.ld)

/-- The marker after position `p` took direction `d` at a discrepancy: recorded wherever direction 0 is
taken (43_rom_search.md R98; 90_conflicts.md C1). -/
def newMarker (p : Nat) (d : Bool) (marker : Nat) : Nat := if d then marker else p

/-- Steps 2 to 5 of position `p`, from the two responses (43_rom_search.md R98). -/
def decidePosition (p : Nat) (cand : Rom) (marker : Nat) (a c : Bool) (s : State) :
    Host.Outcome State Fault Refusal :=
  if a && c then .next (s.abortSearch .noResponse)
  else if a != c then
    beginPart (.direct p a cand marker) (touchPrims [a]) s
  else
    beginPart (.direct p (s.branch p) cand (newMarker p (s.branch p) marker))
      (touchPrims [s.branch p]) s

/-- Appends an address to the ROM table (43_rom_search.md R100). -/
def State.appendRom (s : State) (cand : Rom) : State :=
  { s with
    mem := Memory.writeBytes s.mem (romtabAddr s.cnt) (romBytes cand)
    cnt := s.cnt + 1 }

/-- The round's candidate becomes the reference whether valid or not, the marker the last discrepancy;
marker 0 ends the search (43_rom_search.md R100; 90_conflicts.md C2). -/
def closeRound (cand : Rom) (marker : Nat) (s : State) : Host.Outcome State Fault Refusal :=
  if marker = 0 then
    .next (State.finishSearch { s with ref := cand, ld := marker, ldf := true })
  else beginRound { s with ref := cand, ld := marker }

/-- End of a round (43_rom_search.md R100). -/
def endRound (cand : Rom) (marker : Nat) (s : State) : Host.Outcome State Fault Refusal :=
  if romValid cand then
    if s.cnt = s.params.maxDevices then .next (s.abortSearch .resultOverflow)
    else closeRound cand marker (s.appendRom cand)
  else closeRound cand marker s

/-- The response bit of touch `k` of a part. A read returns as many bytes as it asked for (20_memory.md
R49), so a shorter list is a position no run reaches (log 20). -/
def touchBit (got : List Byte) (k : Nat) : Bool := resp (got.getD k 0)

/-- What follows a part of OW_SEARCH whose primitive steps are done (43_rom_search.md R103). No run of
OW_SEARCH is at `plain` (log 20). -/
def endPart (ph : Phase) (got : List Byte) (s : State) : Host.Outcome State Fault Refusal :=
  match ph with
  | .plain => beginRound s
  | .reset =>
    if presenceOf (resetEcho got) then
      beginPart .command (writeBytePrims (opByte .romSearch)) { s.endReset got with pseen := true }
    else .next ((s.endReset got).abortSearch .noPresence)
  | .command => beginPosition 1 0 0 s
  | .pair p cand marker => decidePosition p cand marker (touchBit got 0) (touchBit got 1) s
  | .direct p d cand marker =>
    if p < Config.romBits then beginPosition (p + 1) (setBit cand p d) marker s
    else endRound (setBit cand p d) marker s

/-- OW_SEARCH (43_rom_search.md R103): a raise of a primitive step aborts the search (R102). -/
def execOwSearch (s : State) : Host.Outcome State Fault Refusal :=
  match s.pos with
  | .start => beginRound s.initSearch
  | .going ph (p :: rest) got => stepPrim .owSearch ph p rest got s
  | .going ph [] got => endPart ph got s
  | .raised e => .next (s.abortSearch e)

end Sys2Proof.Machine
end

