-- ==== Sys2Proof/Machine/Wire.lean ====
section
/-! DEFINITION. The wire codes run on their own (30_encoding.md R61, R62, R65, R66; log 8): each is the
engine procedure that puts exactly that code on the wire, a touch (42_bus_engine.md R85), a bus reset
(R83) or a byte write (R87). No CMD word issues one (30_encoding.md R60); the host's operations emit
them inside OW_RESET, OW_TOUCH, OW_WRITE_BYTE, OW_READ_BYTE, OW_SELECT and OW_SEARCH. -/

namespace Sys2Proof.Machine

open Sys2Proof

/-- A single touch of bit `b`: its response bit is bit 0 of the echo (30_encoding.md R61). -/
def touchCode (i : Instr) (b : Bool) (s : State) : Host.Outcome State Fault Refusal :=
  runPlan i (fun s => .go s (touchPrims [b]))
    (fun got s => finishOk { s with touchResp := some (touchBit got 0) }) s

/-- A code sent as eight touched bits, least significant first (30_encoding.md R65, R66). -/
def byteCode (i : Instr) (s : State) : Host.Outcome State Fault Refusal :=
  runPlan i (fun s => .go s (writeBytePrims (opByte i))) (fun _ s => finishOk s) s

/-- WIRE_TOUCH_1 (30_encoding.md R61). -/
def execWireTouch1 (s : State) : Host.Outcome State Fault Refusal := touchCode .wireTouch1 true s

/-- WIRE_TOUCH_0 (30_encoding.md R61). -/
def execWireTouch0 (s : State) : Host.Outcome State Fault Refusal := touchCode .wireTouch0 false s

/-- WIRE_RESET (30_encoding.md R62): OwReset, whose presence result is STATUS.PRESENT. -/
def execWireReset (s : State) : Host.Outcome State Fault Refusal :=
  runPlan .wireReset (fun s => .go s.beginReset resetPrims)
    (fun got s => finishOk (s.endReset got)) s

/-- ROM_MATCH (30_encoding.md R65). -/
def execRomMatch (s : State) : Host.Outcome State Fault Refusal := byteCode .romMatch s

/-- ROM_SEARCH (30_encoding.md R65). -/
def execRomSearch (s : State) : Host.Outcome State Fault Refusal := byteCode .romSearch s

/-- FN_CONVERT_T (30_encoding.md R66). -/
def execFnConvertT (s : State) : Host.Outcome State Fault Refusal := byteCode .fnConvertT s

/-- FN_READ_SCRATCHPAD (30_encoding.md R66). -/
def execFnReadScratchpad (s : State) : Host.Outcome State Fault Refusal :=
  byteCode .fnReadScratchpad s

end Sys2Proof.Machine
end

