-- ==== Sys2Proof/Machine/Dispatch.lean ====
section
/-! DEFINITION. One arm per instruction: one ENGINE step of the operation it starts, from the position
`st.seq` holds. -/

namespace Sys2Proof.Machine

open Sys2Proof

def exec (i : Instr) (s : State) : Host.Outcome State Fault Refusal :=
  match i with
  | .nop => Sys2Proof.Machine.execNop s
  | .openPort r => Sys2Proof.Machine.execOpen r s
  | .close => Sys2Proof.Machine.execClose s
  | .switchRate r => Sys2Proof.Machine.execSwitchRate r s
  | .flush => Sys2Proof.Machine.execFlush s
  | .uartWrite n off => Sys2Proof.Machine.execUartWrite n off s
  | .uartRead n off => Sys2Proof.Machine.execUartRead n off s
  | .owReset => Sys2Proof.Machine.execOwReset s
  | .owTouch n off => Sys2Proof.Machine.execOwTouch n off s
  | .owWriteByte b => Sys2Proof.Machine.execOwWriteByte b s
  | .owReadByte => Sys2Proof.Machine.execOwReadByte s
  | .owSelect rom => Sys2Proof.Machine.execOwSelect rom s
  | .owSearch => Sys2Proof.Machine.execOwSearch s
  | .crcCompute n off => Sys2Proof.Machine.execCrcCompute n off s
  | .crcValidate n off => Sys2Proof.Machine.execCrcValidate n off s
  | .wireTouch1 => Sys2Proof.Machine.execWireTouch1 s
  | .wireTouch0 => Sys2Proof.Machine.execWireTouch0 s
  | .wireReset => Sys2Proof.Machine.execWireReset s
  | .romMatch => Sys2Proof.Machine.execRomMatch s
  | .romSearch => Sys2Proof.Machine.execRomSearch s
  | .fnConvertT => Sys2Proof.Machine.execFnConvertT s
  | .fnReadScratchpad => Sys2Proof.Machine.execFnReadScratchpad s

end Sys2Proof.Machine
end

