-- ==== Sys2Proof/Machine/Engine.lean ====
section
/-! DEFINITION. What each agent's turn does (00_scope.md R6), how the next turn is found, and how an
instruction is placed where the ENGINE runs it next. -/

namespace Sys2Proof.Machine

open Sys2Proof

/-- One ENGINE step (10_state.md R33): the running operation's next primitive step or its completion,
with LINE's answer to it. A reserved opcode completes at once (30_encoding.md R60). An idle engine has
no step. -/
def engineTurn (ans : LineAnswer) (s : State) : Host.Outcome State Fault Refusal :=
  match s.seq with
  | .idle => .next s
  | .illegal => .next (s.complete .illegalOp)
  | .run i _ => exec i { s with answer := ans }

/-- One atomic step of one agent. -/
def runTurn (t : Turn) (s : State) : Host.Outcome State Fault Refusal :=
  match t with
  | .host acc => hostAccess acc s
  | .engine ans => engineTurn ans s
  | .line v => .next (s.lineAppend v)
  | .blockReset => .next s.blockReset

/-- The turn that comes next, and the state with it taken: the agenda's first, or a free one (log 1). -/
def State.takeTurn (s : State) : Turn × State :=
  match s.agenda with
  | t :: rest => (t, { s with agenda := rest })
  | [] => (Config.turn s.draws, { s with draws := s.draws + 1 })

/-- What the bits of a row of spec/opcode_table.json put into the sequencer. -/
def tableSeq (nbits w : Nat) : Seq :=
  match decodeTableWord nbits w with
  | some i => .run i .start
  | none => .illegal

/-- The instruction accepted as a store to CMD would accept it (30_encoding.md R57), and the ENGINE's
turn next (log 10). -/
def State.place (s : State) (q : Seq) : State :=
  { s.accept q with agenda := .engine .ok :: s.agenda }

end Sys2Proof.Machine
end

