-- ==== Sys2Proof/Machine/Step.lean ====
section
/-! DEFINITION. One step of the machine: one atomic step of the agent whose turn it is (00_scope.md R6,
R17). -/

namespace Sys2Proof.Machine

open Sys2Proof

/-- One step. -/
def step (s : State) : Host.Outcome State Fault Refusal :=
  runTurn s.takeTurn.1 s.takeTurn.2

/-- The instruction whose table bits are `w` placed where the next step runs it (log 10). -/
def State.withFetchWord (s : State) (nbits w : Nat) : State := s.place (tableSeq nbits w)

end Sys2Proof.Machine
end

