-- ==== Sys2Proof/Machine/SimBus.lean ====
section
/-! DEFINITION. The SimBus fixture (43_rom_search.md R104): one particular deterministic LINE, a static
bus of wired-AND devices. It is a premise a claim may take, not part of the machine (92_eei_decisions.md
D35), so it stands beside `State` and moves the machine only by choosing its turns (log 17). -/

namespace Sys2Proof.Machine.SimBus

open Sys2Proof Sys2Proof.Machine

/-- The 9 bytes of a device's scratchpad (43_rom_search.md R104). -/
abbrev Scratchpad := Vector Byte 9

/-- What a device is doing (43_rom_search.md R104); a scratchpad is sent as 72 bits. -/
inductive DevState where
  | idle
  | romCmd (acc : Byte) (k : Nat)
  | matchRom (k : Nat) (ok : Bool)
  | search (p slot : Nat)
  | func (acc : Byte) (k : Nat)
  | scratch (i : Fin 72)
  deriving DecidableEq, Repr, Inhabited

/-- A device: its address and its 9-byte scratchpad. -/
structure Device where
  addr : Rom
  pad : Scratchpad
  st : DevState
  deriving DecidableEq, Repr, Inhabited

/-- A device as the fixture begins. -/
def Device.fresh (addr : Rom) (pad : Scratchpad) : Device := ⟨addr, pad, .idle⟩

/-- A list of devices is a bus if their addresses are distinct (43_rom_search.md R104). -/
def isBus (devs : List Device) : Bool := decide (devs.map Device.addr).Nodup

/-- The bit a device drives in one slot; 1 leaves the line alone (43_rom_search.md R104). -/
def Device.drive (d : Device) : Bool :=
  match d.st with
  | .search p 0 => bitAt d.addr p
  | .search p 1 => !(bitAt d.addr p)
  | .scratch i => (d.pad[i.val / 8]'(by omega)).getLsbD (i.val % 8)
  | .search _ _ | .idle | .romCmd _ _ | .matchRom _ _ | .func _ _ => true

/-- Bit k of a command byte being collected, least significant first. -/
def collect (acc : Byte) (k : Nat) (line : Bool) : Byte := if line then acc ||| (1 <<< k) else acc

/-- What a device does with the level it samples (43_rom_search.md R104). -/
def Device.sample (d : Device) (line : Bool) : Device :=
  match d.st with
  | .idle => d
  | .romCmd acc k =>
    let acc' := collect acc k line
    if k < 7 then { d with st := .romCmd acc' (k + 1) }
    else if acc' = opByte .romMatch then { d with st := .matchRom 0 true }
    else if acc' = opByte .romSearch then { d with st := .search 1 0 }
    else { d with st := .idle }
  | .matchRom k ok =>
    let ok' := ok && (line == bitAt d.addr (k + 1))
    if k < 63 then { d with st := .matchRom (k + 1) ok' }
    else if ok' then { d with st := .func 0 0 }
    else { d with st := .idle }
  | .search p 0 => { d with st := .search p 1 }
  | .search p 1 => { d with st := .search p 2 }
  | .search p _ =>
    if line != bitAt d.addr p then { d with st := .idle }
    else if p = 64 then { d with st := .func 0 0 }
    else { d with st := .search (p + 1) 0 }
  | .func acc k =>
    let acc' := collect acc k line
    if k < 7 then { d with st := .func acc' (k + 1) }
    else if acc' = opByte .fnReadScratchpad then { d with st := .scratch 0 }
    else { d with st := .idle }
  | .scratch i =>
    if h : i.val < 71 then { d with st := .scratch ⟨i.val + 1, by omega⟩ }
    else { d with st := .idle }

/-- The level of the line in a slot: the master's bit and every drive bit (43_rom_search.md R104). -/
def lineLevel (devs : List Device) (x : Byte) : Bool := decide (x = 0xFF) && devs.all Device.drive

/-- The echo of a slot byte (43_rom_search.md R104). -/
def slotEcho (x : Byte) (line : Bool) : Byte :=
  if line then 0xFF else if x = 0xFF then 0xFE else 0x00

/-- One byte at RATE_DATA: a slot, or a byte that is echoed and changes no device. -/
def dataByte (devs : List Device) (x : Byte) : List Device × Byte :=
  if x = 0xFF ∨ x = 0x00 then
    (devs.map (fun d => d.sample (lineLevel devs x)), slotEcho x (lineLevel devs x))
  else (devs, x)

/-- The bytes of a transmit at RATE_DATA, in order. -/
def dataBytes : List Device → List Byte → List Device × List Byte
  | devs, [] => (devs, [])
  | devs, x :: xs =>
    let r := dataByte devs x
    let q := dataBytes r.1 xs
    (q.1, r.2 :: q.2)

/-- The bus's response to one transmit: what becomes of the devices, and the echoes
(43_rom_search.md R104). -/
def transmit (devs : List Device) (rate : Rate) (bs : List Byte) : List Device × List Byte :=
  match rate with
  | .reset =>
    if bs = [resetByte] then
      (devs.map (fun d => { d with st := .romCmd 0 0 }), [if devs.isEmpty then 0xF0 else 0xE0])
    else (devs, bs)
  | .data => dataBytes devs bs

/-- The response to what was recorded since the bus last looked. -/
def hear : List Device → List Event → List Device × List Byte
  | devs, [] => (devs, [])
  | devs, .tx rate bs :: es =>
    let r := transmit devs rate bs
    let q := hear r.1 es
    (q.1, r.2 ++ q.2)
  | devs, .rx _ :: es => hear devs es
  | devs, .flush :: es => hear devs es
  | devs, .setRate _ :: es => hear devs es
  | devs, .opened _ :: es => hear devs es
  | devs, .closed :: es => hear devs es
  | devs, .delay _ :: es => hear devs es
  | devs, .lineRx _ :: es => hear devs es

/-- The machine with the fixture as its LINE: the devices, and the echoes not yet appended. -/
structure Sys where
  m : State
  devs : List Device
  due : List Byte
  deriving DecidableEq, Repr, Inhabited

/-- The fixture as it begins, on a machine and a list of addresses and scratchpads: every device IDLE and
no echo due (43_rom_search.md R104). -/
def Sys.begin (m : State) (ds : List (Rom × Scratchpad)) : Sys :=
  ⟨m, ds.map (fun d => .fresh d.1 d.2), []⟩

/-- The fixture of R104: the devices are a bus. -/
def Sys.wellFormed (y : Sys) : Bool := isBus y.devs

/-- The turn the fixture takes by itself: an echo that is due, else the ENGINE's, with success; so a read
with no echo due ends there, and times out if it is short (43_rom_search.md R104). -/
def Sys.turn (y : Sys) : Turn :=
  match y.due with
  | b :: _ => .line b
  | [] => .engine .ok

/-- Takes a turn and lets the bus hear what went on the wire. -/
def Sys.take (y : Sys) (t : Turn) (due : List Byte) : Host.Outcome Sys Fault Refusal :=
  match step { y.m with agenda := t :: y.m.agenda } with
  | .next s =>
    let r := hear y.devs (s.hist.drop y.m.hist.length)
    .next ⟨s, r.1, due ++ r.2⟩
  | .fault f => .fault f
  | .refused r => .refused r

/-- One step of LINE or the ENGINE under the fixture: echoes are appended before the engine's next
step. -/
def Sys.step (y : Sys) : Host.Outcome Sys Fault Refusal := y.take y.turn y.due.tail

/-- One access of the host under the fixture. -/
def Sys.host (y : Sys) (acc : HostAccess) : Host.Outcome Sys Fault Refusal :=
  y.take (.host acc) y.due

/-- Steps until the engine is idle and no echo is due, `fuel` at most (WAITDONE, 30_encoding.md R68). -/
def Sys.settle : Nat → Sys → Host.Outcome Sys Fault Refusal
  | 0, y => .next y
  | fuel + 1, y =>
    if y.m.busy || !y.due.isEmpty then
      match y.step with
      | .next y' => Sys.settle fuel y'
      | .fault f => .fault f
      | .refused r => .refused r
    else .next y

end Sys2Proof.Machine.SimBus
end

