-- ==== Sys2Proof/Safety.lean ====
section
/-! DEFINITION. The invariant of the engine, piece by piece; runs, their fairness (20_memory.md R49) and
the step counts (70_reset_and_hazards.md R133); and what a safe use of the engine is: the hazards R124 to
R126 as predicates (70_reset_and_hazards.md), which the engine does not enforce. -/

namespace Sys2Proof.Safety

open Sys2Proof Sys2Proof.Machine

/-- How many bytes the reads still to come ask for. -/
def rxTotal : List Prim → Nat
  | [] => 0
  | .uartRx n :: rest => n + rxTotal rest
  | .uartOpen _ :: rest => rxTotal rest
  | .uartClose :: rest => rxTotal rest
  | .uartFlush :: rest => rxTotal rest
  | .uartSetRate _ :: rest => rxTotal rest
  | .uartTx _ :: rest => rxTotal rest
  | .delay _ :: rest => rxTotal rest

/-- The bytes a list of primitive steps transmits, in order. -/
def txBytes : List Prim → List Byte
  | [] => []
  | .uartTx bs :: rest => bs ++ txBytes rest
  | .uartRx _ :: rest => txBytes rest
  | .uartOpen _ :: rest => txBytes rest
  | .uartClose :: rest => txBytes rest
  | .uartFlush :: rest => txBytes rest
  | .uartSetRate _ :: rest => txBytes rest
  | .delay _ :: rest => txBytes rest

/-- How many bytes an operation, or the part of OW_SEARCH it is in, reads in all (40_transport.md R76,
42_bus_engine.md R83 to R91, 43_rom_search.md R97). -/
def bytesRead (i : Instr) (ph : Phase) : Nat :=
  match i with
  | .nop | .openPort _ | .close | .switchRate _ | .flush | .uartWrite _ _ => 0
  | .uartRead n _ => n.toNat
  | .owReset | .wireReset => 1
  | .owTouch n _ => n.toNat
  | .owWriteByte _ | .owReadByte => 8
  | .owSelect _ => 72
  | .owSearch =>
    match ph with
    | .plain => 0
    | .reset => 1
    | .command => 8
    | .pair _ _ _ => 2
    | .direct _ _ _ _ => 1
  | .crcCompute _ _ | .crcValidate _ _ => 0
  | .wireTouch1 | .wireTouch0 => 1
  | .romMatch | .romSearch | .fnConvertT | .fnReadScratchpad => 8

/-- Where OW_SEARCH may be: positions 1 to 64, the marker at a position already passed, and presence
seen once the round's reset is over (43_rom_search.md R98, R102, R103). -/
def searchPhaseOk (s : State) : Phase → Prop
  | .plain => False
  | .reset => True
  | .command => s.pseen = true
  | .pair p _ marker => s.pseen = true ∧ 1 ≤ p ∧ p ≤ 64 ∧ marker < p
  | .direct p _ _ marker => s.pseen = true ∧ 1 ≤ p ∧ p ≤ 64 ∧ marker ≤ p

/-- The phase belongs to the operation. -/
def phaseOk (s : State) (i : Instr) (ph : Phase) : Prop :=
  if i = .owSearch then searchPhaseOk s ph else ph = .plain

/-- An operation past its range check fits the DATA buffer (60_exceptions.md R110). -/
def rangeOk (s : State) : Instr → Prop
  | .uartRead n off => off.toNat + n.toNat ≤ s.params.bufBytes
  | .owTouch n off => off.toNat + n.toNat ≤ s.params.bufBytes
  | _ => True

/-- A position the sequencer can be at (10_state.md R33): the reads done and the reads to come make up
what the operation reads, and only TRANSPORT is ever raised by a primitive step (00_scope.md R17). -/
def SeqOk (s : State) : Prop :=
  match s.seq with
  | .idle => True
  | .illegal => True
  | .run _ .start => True
  | .run _ (.raised e) => e = .transport
  | .run i (.going ph todo got) =>
    phaseOk s i ph ∧ rangeOk s i ∧ got.length + rxTotal todo = bytesRead i ph

/-- DATA and ROMTAB: canonical form, only DATA bytes of the buffer and entries below `st.cnt` listed, so
that entries at or above it read 0 (10_state.md R30, R31). -/
def MemOk (s : State) : Prop :=
  Memory.wf s.mem = true ∧
  ∀ c ∈ s.mem,
    (Config.dataBase ≤ c.1 ∧ c.1 < Config.dataBase + s.params.bufBytes) ∨
    (Config.romtabBase ≤ c.1 ∧ c.1 < Config.romtabBase + 8 * s.cnt)

/-- STATUS and SRCH_STAT: while BUSY, DONE is 0 and ERR is OK; ERR is never NO_RESPONSE nor DEVICE_LOST;
ABORT is one of OW_SEARCH's causes (10_state.md R22, 60_exceptions.md R107, 43_rom_search.md R102). -/
def StatusOk (s : State) : Prop :=
  (s.busy = true → s.done = false ∧ s.err = .ok) ∧
  s.err ≠ .noResponse ∧ s.err ≠ .deviceLost ∧
  (s.abort = .ok ∨ s.abort = .transport ∨ s.abort = .noPresence ∨ s.abort = .noResponse ∨
    s.abort = .resultOverflow)

/-- A closed port holds no received bytes (10_state.md R32, 20_memory.md R44). -/
def LinkOk (s : State) : Prop := s.portOpen = false → s.rx = []

/-- The bounds of the search state and of the parameters (10_state.md R34, 00_scope.md R12, R13). -/
def BoundsOk (s : State) : Prop :=
  s.params.legal = true ∧ s.ld ≤ 64 ∧ s.cnt ≤ s.params.maxDevices

/-- The invariant of the engine. -/
structure Inv (s : State) : Prop where
  seqOk : SeqOk s
  memOk : MemOk s
  statusOk : StatusOk s
  linkOk : LinkOk s
  boundsOk : BoundsOk s

/-- `k` steps of the machine. -/
def runSteps (k : Nat) (s : State) : Host.Outcome State Fault Refusal := Sys2Proof.core.run k s

/-- The bytes that went on the wire, in order (10_state.md R35). -/
def sentBytes : List Event → List Byte
  | [] => []
  | .tx _ bs :: es => bs ++ sentBytes es
  | .rx _ :: es => sentBytes es
  | .flush :: es => sentBytes es
  | .setRate _ :: es => sentBytes es
  | .opened _ :: es => sentBytes es
  | .closed :: es => sentBytes es
  | .delay _ :: es => sentBytes es
  | .lineRx _ :: es => sentBytes es

/-- The turns of one touch of `es.length` bits whose echoes are `es`, `fuel` chunks at most: per chunk
the transmit, LINE's echoes, the settle delay and the read (42_bus_engine.md R85). -/
def chunkTurns : Nat → List Byte → List Turn
  | 0, _ => []
  | _ + 1, [] => []
  | fuel + 1, e :: es =>
    .engine .ok :: ((e :: es).take Config.chunk).map Turn.line ++
      (.engine .ok :: .engine .ok :: chunkTurns fuel ((e :: es).drop Config.chunk))

/-- The turns of a touch and of the completion after it. -/
def touchTurns (es : List Byte) : List Turn := chunkTurns es.length es ++ [.engine .ok]

/-! ### Runs, fairness and step counts -/

/-- Whose turn it is: the ENGINE's. -/
def isEngine : Turn → Bool
  | .engine _ => true
  | .host _ => false
  | .line _ => false
  | .blockReset => false

/-- A run under an endless schedule: each state is what the agent whose turn it is makes of the one
before (00_scope.md R6). `step` performs the same turns, taken off the agenda. -/
def RunsUnder (sched : Nat → Turn) (r : Nat → State) : Prop :=
  ∀ k, runTurn (sched k) (r k) = .next (r (k + 1))

/-- The ENGINE is given a turn again and again. -/
def EngineFair (sched : Nat → Turn) : Prop := ∀ k, ∃ m, k ≤ m ∧ isEngine (sched m) = true

/-- How many of the first `k` turns are the ENGINE's. -/
def engineTurns (sched : Nat → Turn) : Nat → Nat
  | 0 => 0
  | k + 1 => engineTurns sched k + if isEngine (sched k) then 1 else 0

/-- The read the running operation has come to, and how many bytes it asks for. -/
def pendingRead (s : State) : Option Nat :=
  match s.seq with
  | .run _ (.going _ (.uartRx n :: _) _) => some n
  | .run (.uartRead n off) .start => if s.inRange n off then some n.toNat else none
  | _ => none

/-- The fairness of 20_memory.md R49, as a predicate on runs: a read that is come to ends. -/
def ReadsEnd (r : Nat → State) : Prop :=
  ∀ k n, pendingRead (r k) = some n → ∃ m, k < m ∧ (r m).seq ≠ (r k).seq

/-- The primitive steps an operation takes on success (70_reset_and_hazards.md R133); of OW_SEARCH, those
of one round. -/
def primCount (s : State) : Instr → Nat
  | .nop | .crcCompute _ _ | .crcValidate _ _ => 0
  | .close => if s.portOpen then 1 else 0
  | .openPort _ | .switchRate _ | .flush | .uartWrite _ _ | .uartRead _ _ => 1
  | .owReset | .wireReset => 6
  | .owTouch n _ => 3 * ((n.toNat + 15) / 16)
  | .owWriteByte _ | .owReadByte => 3
  | .owSelect _ => 27
  | .owSearch => 393
  | .wireTouch1 | .wireTouch0 => 3
  | .romMatch | .romSearch | .fnConvertT | .fnReadScratchpad => 3

/-- The primitive steps of a round of OW_SEARCH after the part it is in: three for the command byte and
six for each position, three to read and three to write back (70_reset_and_hazards.md R133). -/
def afterPart : Phase → Nat
  | .plain => 0
  | .reset => 3 + 6 * 64
  | .command => 6 * 64
  | .pair p _ _ => 3 + 6 * (64 - p)
  | .direct p _ _ _ => 6 * (64 - p)

/-- The primitive steps the running operation has yet to take to succeed; of OW_SEARCH, those of the
round. -/
def stepsLeft (s : State) : Nat :=
  match s.seq with
  | .idle => 0
  | .illegal => 0
  | .run i .start => primCount s i
  | .run i (.going ph todo _) => todo.length + if i = .owSearch then afterPart ph else 0
  | .run _ (.raised _) => 0

/-! ### Hazards -/

/-- A touch has the source's wire meaning (42_bus_engine.md R94): port open at RATE_DATA (hazard R124)
and no stale byte in the receive FIFO (hazard R125). -/
def TouchReady (s : State) : Prop := s.portOpen = true ∧ s.rate = .data ∧ s.rx = []

/-- The operations that may stand between an OW_RESET and the OW_SELECT it licenses: they put nothing on
the wire and keep the port at its rate (70_reset_and_hazards.md R126, 92_eei_decisions.md D46). -/
def mayStandBetween : Instr → Bool
  | .nop | .flush | .uartRead _ _ | .crcCompute _ _ | .crcValidate _ _ => true
  | .openPort _ | .close | .switchRate _ | .uartWrite _ _ | .owReset | .owTouch _ _
  | .owWriteByte _ | .owReadByte | .owSelect _ | .owSearch => false
  | .wireTouch1 | .wireTouch0 | .wireReset | .romMatch | .romSearch | .fnConvertT
  | .fnReadScratchpad => false

/-- Hazard R126 (42_bus_engine.md R93): of the commands completed so far, newest first, each with whether
it was a bus reset that completed OK and reported presence, an OW_SELECT may follow. DESIGN CHOICE
(log 25): R126 and D46 name the reserved opcodes on neither side; one that completed with ILLEGAL_OP is
not in the list, so it counts as never issued. -/
def selectLicensed : List (Instr × Bool) → Bool
  | [] => false
  | (i, presence) :: older =>
    if i = .owReset then presence
    else mayStandBetween i && selectLicensed older

end Sys2Proof.Safety
end

