-- ==== Sys2Proof/Certificates/Slice0/Obligations.lean ====
section
/-! DEFINITION. The statements for the provers. A statement that gives the next state as a record update
of the state before says its frame with it: every field not named is unchanged. -/

open Sys2Proof Sys2Proof.Machine Sys2Proof.Safety

/-! ### Encoding (30_encoding.md) -/

/-- 30_encoding.md R56 to R59, R61, R62, R65, R66: no operand bit is lost between encoding and decoding. -/
def Obligations.DecodeOfEncodeGivesBack : Prop :=
  ∀ i : Instr, i.wellFormed = true → decode (encode i) = .ok i

/-- 30_encoding.md R59, R61, R62, R65, R66: words written out from the opcode map and the wire encoding. -/
def Obligations.TableWordsDecode : Prop :=
  decode (.command ⟨0x00000000, 0, 0, 0, 0⟩) = .ok .nop ∧
  decode (.command ⟨0x00000001, 1, 0, 0, 0⟩) = .ok (.openPort .data) ∧
  decode (.command ⟨0x00000006, 5, 16, 0, 0⟩) = .ok (.uartRead 5 16) ∧
  decode (.command ⟨0x00000012, 0x12345655, 0, 0, 0⟩) = .ok (.owWriteByte 0x55) ∧
  decode (.command ⟨0x00000014, 0, 0, 0x00000228, 0x70000000⟩) =
    .ok (.owSelect 0x7000000000000228) ∧
  decode (.command ⟨0xFFFFFF30, 9, 0, 0, 0⟩) = .ok (.crcCompute 9 0) ∧
  decode (.wire .slot 0xFF) = .ok .wireTouch1 ∧
  decode (.wire .resetSymbol 0xF0) = .ok .wireReset ∧
  decode (.wire .romCommand 0xF0) = .ok .romSearch ∧
  decode (.wire .functionCommand 0xBE) = .ok .fnReadScratchpad

/-- 30_encoding.md R60: which opcodes are reserved, and that issuing one completes at once with
ILLEGAL_OP and no other change (two steps: accept, completion). -/
def Obligations.ReservedOpcodeCompletesIllegal : Prop :=
  (∀ img : CmdImage,
    (∃ r, decodeCommand img = .error r) ↔
      ((0x07 ≤ img.op ∧ img.op ≤ 0x0F) ∨ (0x15 ≤ img.op ∧ img.op ≤ 0x1F) ∨
       (0x21 ≤ img.op ∧ img.op ≤ 0x2F) ∨ 0x32 ≤ img.op)) ∧
  (∀ (s : State) (w : Word) (ans : LineAnswer) (rest : List Turn) (r : Reject),
    s.seq = .idle → s.agenda = .host (.write .w32 0x000 w) :: .engine ans :: rest →
    decodeCommand ⟨w, s.arg0, s.arg1, s.rom0, s.rom1⟩ = .error r →
    runSteps 2 s =
      .next { s with agenda := rest, done := true, err := .illegalOp, ovr := false })

/-! ### Command accept, the turns, completion -/

/-- 30_encoding.md R57: a store to CMD is dropped with OVR while BUSY = 1, and is otherwise accepted with
its operands latched. -/
def Obligations.CommandAcceptLatchesOrDrops : Prop :=
  ∀ (s : State) (w : Word) (rest : List Turn),
    s.agenda = .host (.write .w32 0x000 w) :: rest →
    (s.busy = true → step s = .next { s with agenda := rest, ovr := true }) ∧
    (∀ i, s.busy = false → decodeCommand ⟨w, s.arg0, s.arg1, s.rom0, s.rom1⟩ = .ok i →
      step s = .next { s with agenda := rest, seq := .run i .start, done := false, err := .ok,
                              ovr := false }) ∧
    (∀ r, s.busy = false → decodeCommand ⟨w, s.arg0, s.arg1, s.rom0, s.rom1⟩ = .error r →
      step s = .next { s with agenda := rest, seq := .illegal, done := false, err := .ok,
                              ovr := false })

/-- 10_state.md R33, 30_encoding.md R57: after a command is accepted, the ENGINE's step is `exec` of the
instruction it decodes to; and at every position of a running operation an ENGINE step is `exec` of
it. -/
def Obligations.StepRunsTheDecodedInstruction : Prop :=
  (∀ (s : State) (w : Word) (ans : LineAnswer) (rest : List Turn) (i : Instr),
    s.seq = .idle → s.agenda = .host (.write .w32 0x000 w) :: .engine ans :: rest →
    decodeCommand ⟨w, s.arg0, s.arg1, s.rom0, s.rom1⟩ = .ok i →
    runSteps 2 s =
      exec i { s with agenda := rest, seq := .run i .start, done := false, err := .ok,
                      ovr := false, answer := ans }) ∧
  (∀ (s : State) (i : Instr) (pos : Pos) (ans : LineAnswer) (rest : List Turn),
    s.seq = .run i pos → s.agenda = .engine ans :: rest →
    step s = exec i { s with agenda := rest, answer := ans })

/-- 20_memory.md R52: nothing but a store to CMD starts an operation. -/
def Obligations.OnlyACommandStoreStartsAnOperation : Prop :=
  ∀ s t : State, s.busy = false → step s = .next t → t.busy = true →
    ∃ w, s.takeTurn.1 = .host (.write .w32 0x000 w)

/-- 20_memory.md R44: LINE's own step, possible in any state with the port open, appends the byte and
records it. R44 gives LINE no step while the port is closed; that a LINE turn taken then changes nothing
is the model's choice (log 16). -/
def Obligations.LineAppendsOnlyWhileOpen : Prop :=
  ∀ (s : State) (v : Byte) (rest : List Turn), s.agenda = .line v :: rest →
    (s.portOpen = true →
      step s = .next { s with agenda := rest, rx := s.rx ++ [v], hist := s.hist ++ [.lineRx v] }) ∧
    (s.portOpen = false → step s = .next { s with agenda := rest })

/-- 60_exceptions.md R108: a raise ends the operation in one step that writes ERR, BUSY, DONE and the
sequencer and rolls nothing back (in OW_SEARCH a raise is an abort, R102, which has its own statement);
and every step that ends an operation sets DONE and takes no primitive step: the link and the wire
history stay as the last primitive step left them. -/
def Obligations.CompletionReportsAndRollsNothingBack : Prop :=
  (∀ (i : Instr) (s : State) (e : ErrCode), i ≠ .owSearch → s.seq = .run i (.raised e) →
    exec i s = .next { s with err := e, done := true, seq := .idle }) ∧
  (∀ (i : Instr) (pos : Pos) (s t : State), s.seq = .run i pos → exec i s = .next t →
    t.busy = false →
    t.done = true ∧ t.portOpen = s.portOpen ∧ t.rate = s.rate ∧ t.rx = s.rx ∧ t.hist = s.hist)

/-! ### The primitive steps, in every operation (20_memory.md R46 to R50) -/

/-- 20_memory.md R46 and R50: the flush empties the FIFO, or raises on a closed port and puts nothing on
the wire. It is the step that opens FLUSH, OW_RESET, WIRE_RESET, OW_SEARCH and every later round of a
search (the other effects of those steps are in the operations' own statements), and it is the same at
any other position. The delay changes nothing but the history, whichever operation waits. That WIRE_RESET runs
on its own is the model's choice (log 8). -/
def Obligations.FlushAndDelaySteps : Prop :=
  (∀ (i : Instr) (s : State),
    ((i = .flush ∨ i = .owReset ∨ i = .wireReset ∨ i = .owSearch) ∧ s.seq = .run i .start) ∨
    (i = .owSearch ∧ ∃ d cand marker got,
      s.seq = .run .owSearch (.going (.direct 64 d cand marker) [] got) ∧ marker ≠ 0 ∧
      (crc8 (romBytes (setBit cand 64 d)) ≠ 0 ∨ s.cnt ≠ s.params.maxDevices)) →
    ∃ t, exec i s = .next t ∧ t.rate = s.rate ∧ t.portOpen = s.portOpen ∧
      (s.portOpen = true →
        t.rx = [] ∧ t.hist = s.hist ++ [.flush] ∧
        ∃ ph todo, t.seq = .run i (.going ph todo [])) ∧
      (s.portOpen = false →
        t.rx = s.rx ∧ t.hist = s.hist ∧ t.seq = .run i (.raised .transport))) ∧
  ∀ (i : Instr) (ph : Phase) (rest : List Prim) (got : List Byte) (s : State),
    (s.seq = .run i (.going ph (.uartFlush :: rest) got) →
      (s.portOpen = true →
        exec i s = .next { s with rx := [], hist := s.hist ++ [.flush],
                                  seq := .run i (.going ph rest got) }) ∧
      (s.portOpen = false → exec i s = .next { s with seq := .run i (.raised .transport) })) ∧
    (∀ p : TimeParam, s.seq = .run i (.going ph (.delay p :: rest) got) →
      exec i s = .next { s with hist := s.hist ++ [.delay p], seq := .run i (.going ph rest got) })

/-- 20_memory.md R47. -/
def Obligations.RateSwitchReopensOrCloses : Prop :=
  ∀ (i : Instr) (ph : Phase) (r : Rate) (rest : List Prim) (got : List Byte) (s : State),
    s.seq = .run i (.going ph (.uartSetRate r :: rest) got) →
    (s.portOpen = true → s.answer = .ok →
      exec i s = .next { s with rx := [], rate := r, hist := s.hist ++ [.setRate r],
                                seq := .run i (.going ph rest got) }) ∧
    (∀ k, s.portOpen = true → s.answer = .fail k →
      exec i s = .next { s with rx := [], portOpen := false, hist := s.hist ++ [.setRate r],
                                seq := .run i (.raised .transport) }) ∧
    (s.portOpen = false → exec i s = .next { s with seq := .run i (.raised .transport) })

/-- 20_memory.md R48, for a transmit that follows another primitive step: all of the bytes are sent, or a
proper beginning of them and TRANSPORT is raised with the port left open. Which beginning LINE draws is
open; that the answer `fail k` stands for the one of length k is the model's choice (log 22). -/
def Obligations.TransmitSendsAllOrAProperBeginning : Prop :=
  ∀ (i : Instr) (ph : Phase) (bs : List Byte) (rest : List Prim) (got : List Byte) (s : State),
    s.seq = .run i (.going ph (.uartTx bs :: rest) got) →
    (s.portOpen = false → exec i s = .next { s with seq := .run i (.raised .transport) }) ∧
    (s.portOpen = true → bs = [] →
      exec i s = .next { s with seq := .run i (.going ph rest got) }) ∧
    (s.portOpen = true → bs ≠ [] → s.answer = .ok →
      exec i s = .next { s with hist := s.hist ++ [.tx s.rate bs],
                                seq := .run i (.going ph rest got) }) ∧
    (∀ k, s.portOpen = true → bs ≠ [] → s.answer = .fail k →
      ∃ p, p <+: bs ∧ p.length < bs.length ∧ (k < bs.length → p.length = k) ∧
        exec i s = .next { s with hist := s.hist ++ [.tx s.rate p],
                                  seq := .run i (.raised .transport) })

/-- 20_memory.md R49: a read ends by completing when enough bytes are there, and by a timeout, which
consumes what is there, when too few are. That it ends at the ENGINE's turn, so that a blocked read is
one whose turn has not come, is the model's form of LINE's draw (log 1); and the fairness: a read that
is come to ends in every run in which the ENGINE is given turns. -/
def Obligations.ReadCompletesOrTimesOut : Prop :=
  (∀ (sched : Nat → Turn) (r : Nat → State),
    RunsUnder sched r → EngineFair sched → ReadsEnd r) ∧
  ∀ (i : Instr) (ph : Phase) (n : Nat) (rest : List Prim) (got : List Byte) (s : State),
    s.seq = .run i (.going ph (.uartRx n :: rest) got) →
    (s.portOpen = false → exec i s = .next { s with seq := .run i (.raised .transport) }) ∧
    (s.portOpen = true → n = 0 → exec i s = .next { s with seq := .run i (.going ph rest got) }) ∧
    (s.portOpen = true → 0 < n → n ≤ s.rx.length →
      exec i s = .next { s with rx := s.rx.drop n, hist := s.hist ++ [.rx (s.rx.take n)],
                                seq := .run i (.going ph rest (got ++ s.rx.take n)) }) ∧
    (s.portOpen = true → s.rx.length < n →
      exec i s = .next { s with rx := [], hist := s.hist ++ [.rx s.rx],
                                seq := .run i (.raised .transport) })

/-- 20_memory.md R48, wherever an operation transmits, at its start and inside OW_SEARCH too: a transmit
that fails does all that the step would have done, but sends a proper beginning of the bytes and the
operation has raised. Which beginning LINE draws is open; that the answer `fail k` stands for the one of
length k is the model's choice (log 22). -/
def Obligations.FailedTransmitRaisesAndSendsABeginning : Prop :=
  ∀ (i : Instr) (s t : State) (k : Nat) (bs : List Byte), s.answer = .fail k →
    exec i { s with answer := .ok } = .next t → t.hist = s.hist ++ [.tx s.rate bs] →
    ∃ p, p <+: bs ∧ p.length < bs.length ∧ (k < bs.length → p.length = k) ∧
      exec i s = .next { t with
        answer := s.answer, hist := s.hist ++ [.tx s.rate p], seq := .run i (.raised .transport) }

/-- 20_memory.md R46 to R49, as a rule over all operations: while the port is closed a step of an
operation receives nothing and puts nothing on the wire; all it can record is an open, a close or a
delay. -/
def Obligations.NothingOnTheWireWhileClosed : Prop :=
  ∀ (i : Instr) (s t : State), s.portOpen = false → exec i s = .next t →
    ∃ es, t.hist = s.hist ++ es ∧
      (∀ e ∈ es, (∃ r, e = .opened r) ∨ e = .closed ∨ (∃ p, e = .delay p)) ∧
      (t.rx = s.rx ∨ t.rx = []) ∧ (t.portOpen = false → t.rate = s.rate)

/-! ### Transport operations (40_transport.md) -/

/-- 40_transport.md R70. -/
def Obligations.NopOnlyCompletes : Prop :=
  (∀ img : CmdImage, img.op = 0x00 → decodeCommand img = .ok .nop) ∧
  (∀ s : State, s.seq = .run .nop .start →
    exec .nop s = .next { s with err := .ok, done := true, seq := .idle })

/-- 40_transport.md R71. -/
def Obligations.OpenAcquiresThePort : Prop :=
  (∀ img : CmdImage, img.op = 0x01 →
    decodeCommand img = .ok (.openPort (if img.arg0.getLsbD 0 then .data else .reset))) ∧
  (∀ (s : State) (r : Rate),
    (s.seq = .run (.openPort r) .start →
      (s.portOpen = true →
        exec (.openPort r) s = .next { s with err := .badState, done := true, seq := .idle }) ∧
      (s.portOpen = false → s.answer = .ok →
        exec (.openPort r) s =
          .next { s with portOpen := true, rate := r, rx := [], hist := s.hist ++ [.opened r],
                         seq := .run (.openPort r) (.going .plain [] []) }) ∧
      (∀ k, s.portOpen = false → s.answer = .fail k →
        exec (.openPort r) s =
          .next { s with hist := s.hist ++ [.opened r],
                         seq := .run (.openPort r) (.raised .transport) })) ∧
    (s.seq = .run (.openPort r) (.going .plain [] []) →
      exec (.openPort r) s = .next { s with err := .ok, done := true, seq := .idle }) ∧
    (s.seq = .run (.openPort r) (.raised .transport) →
      exec (.openPort r) s = .next { s with err := .transport, done := true, seq := .idle }))

/-- 40_transport.md R72. -/
def Obligations.CloseReleasesThePort : Prop :=
  (∀ img : CmdImage, img.op = 0x02 → decodeCommand img = .ok .close) ∧
  (∀ s : State,
    (s.seq = .run .close .start → s.portOpen = true →
      exec .close s =
        .next { s with portOpen := false, rx := [], hist := s.hist ++ [.closed],
                       seq := .run .close (.going .plain [] []) }) ∧
    (s.seq = .run .close .start → s.portOpen = false →
      exec .close s = .next { s with err := .ok, done := true, seq := .idle }) ∧
    (s.seq = .run .close (.going .plain [] []) →
      exec .close s = .next { s with err := .ok, done := true, seq := .idle }))

/-- 40_transport.md R73. -/
def Obligations.SwitchRateActs : Prop :=
  (∀ img : CmdImage, img.op = 0x03 →
    decodeCommand img = .ok (.switchRate (if img.arg0.getLsbD 0 then .data else .reset))) ∧
  (∀ (s : State) (r : Rate),
    (s.seq = .run (.switchRate r) .start →
      (s.portOpen = true → s.answer = .ok →
        exec (.switchRate r) s =
          .next { s with rx := [], rate := r, hist := s.hist ++ [.setRate r],
                         seq := .run (.switchRate r) (.going .plain [] []) }) ∧
      (∀ k, s.portOpen = true → s.answer = .fail k →
        exec (.switchRate r) s =
          .next { s with rx := [], portOpen := false, hist := s.hist ++ [.setRate r],
                         seq := .run (.switchRate r) (.raised .transport) }) ∧
      (s.portOpen = false →
        exec (.switchRate r) s =
          .next { s with seq := .run (.switchRate r) (.raised .transport) })) ∧
    (s.seq = .run (.switchRate r) (.going .plain [] []) →
      exec (.switchRate r) s = .next { s with err := .ok, done := true, seq := .idle }) ∧
    (s.seq = .run (.switchRate r) (.raised .transport) →
      exec (.switchRate r) s = .next { s with err := .transport, done := true, seq := .idle }))

/-- 40_transport.md R74. -/
def Obligations.FlushActs : Prop :=
  (∀ img : CmdImage, img.op = 0x04 → decodeCommand img = .ok .flush) ∧
  (∀ s : State,
    (s.seq = .run .flush .start →
      (s.portOpen = true →
        exec .flush s = .next { s with rx := [], hist := s.hist ++ [.flush],
                                       seq := .run .flush (.going .plain [] []) }) ∧
      (s.portOpen = false →
        exec .flush s = .next { s with seq := .run .flush (.raised .transport) })) ∧
    (s.seq = .run .flush (.going .plain [] []) →
      exec .flush s = .next { s with err := .ok, done := true, seq := .idle }) ∧
    (s.seq = .run .flush (.raised .transport) →
      exec .flush s = .next { s with err := .transport, done := true, seq := .idle }))

/-- 40_transport.md R75, with the model fault of 10_state.md R36. -/
def Obligations.UartWriteSendsDataBytes : Prop :=
  (∀ img : CmdImage, img.op = 0x05 → decodeCommand img = .ok (.uartWrite img.arg0 img.arg1)) ∧
  (∀ (s : State) (n off : Word),
    (s.seq = .run (.uartWrite n off) .start →
      (s.params.bufBytes < off.toNat + n.toNat →
        exec (.uartWrite n off) s = .next { s with err := .argRange, done := true, seq := .idle }) ∧
      (off.toNat + n.toNat ≤ s.params.bufBytes →
        Memory.readBytes s.mem (0x100 + off.toNat) n.toNat = none →
        exec (.uartWrite n off) s = .fault .unwrittenOperand) ∧
      (∀ bs, off.toNat + n.toNat ≤ s.params.bufBytes →
        Memory.readBytes s.mem (0x100 + off.toNat) n.toNat = some bs →
        (s.portOpen = false →
          exec (.uartWrite n off) s =
            .next { s with seq := .run (.uartWrite n off) (.raised .transport) }) ∧
        (s.portOpen = true → bs = [] →
          exec (.uartWrite n off) s =
            .next { s with seq := .run (.uartWrite n off) (.going .plain [] []) }) ∧
        (s.portOpen = true → bs ≠ [] → s.answer = .ok →
          exec (.uartWrite n off) s =
            .next { s with hist := s.hist ++ [.tx s.rate bs],
                           seq := .run (.uartWrite n off) (.going .plain [] []) }) ∧
        (∀ k, s.portOpen = true → bs ≠ [] → s.answer = .fail k →
          ∃ p, p <+: bs ∧ p.length < bs.length ∧
            exec (.uartWrite n off) s =
              .next { s with hist := s.hist ++ [.tx s.rate p],
                             seq := .run (.uartWrite n off) (.raised .transport) }))) ∧
    (s.seq = .run (.uartWrite n off) (.going .plain [] []) →
      exec (.uartWrite n off) s = .next { s with err := .ok, done := true, seq := .idle }) ∧
    (s.seq = .run (.uartWrite n off) (.raised .transport) →
      exec (.uartWrite n off) s = .next { s with err := .transport, done := true, seq := .idle }))

/-- 40_transport.md R76 with 20_memory.md R49: the bytes read go to DATA[off .. off+n-1] at completion, and
nowhere else. That a short read times out at the ENGINE's turn is the model's form of LINE's draw
(log 1). -/
def Obligations.UartReadStoresWhatItRead : Prop :=
  (∀ img : CmdImage, img.op = 0x06 → decodeCommand img = .ok (.uartRead img.arg0 img.arg1)) ∧
  (∀ (s : State) (n off : Word),
    (s.seq = .run (.uartRead n off) .start →
      (s.params.bufBytes < off.toNat + n.toNat →
        exec (.uartRead n off) s = .next { s with err := .argRange, done := true, seq := .idle }) ∧
      (off.toNat + n.toNat ≤ s.params.bufBytes →
        (s.portOpen = false →
          exec (.uartRead n off) s =
            .next { s with seq := .run (.uartRead n off) (.raised .transport) }) ∧
        (s.portOpen = true → n = 0 →
          exec (.uartRead n off) s =
            .next { s with seq := .run (.uartRead n off) (.going .plain [] []) }) ∧
        (s.portOpen = true → n ≠ 0 → n.toNat ≤ s.rx.length →
          exec (.uartRead n off) s =
            .next { s with
              rx := s.rx.drop n.toNat
              hist := s.hist ++ [.rx (s.rx.take n.toNat)]
              seq := .run (.uartRead n off) (.going .plain [] (s.rx.take n.toNat)) }) ∧
        (s.portOpen = true → s.rx.length < n.toNat →
          exec (.uartRead n off) s =
            .next { s with rx := [], hist := s.hist ++ [.rx s.rx],
                           seq := .run (.uartRead n off) (.raised .transport) }))) ∧
    (∀ bs, s.seq = .run (.uartRead n off) (.going .plain [] bs) → bs.length = n.toNat →
      Memory.wf s.mem = true →
      ∃ m, exec (.uartRead n off) s =
          .next { s with mem := m, err := .ok, done := true, seq := .idle } ∧
        (∀ (k : Nat) (hk : k < bs.length), Memory.read m (0x100 + off.toNat + k) = some bs[k]) ∧
        (∀ a, a < 0x100 + off.toNat ∨ 0x100 + off.toNat + n.toNat ≤ a →
          Memory.read m a = Memory.read s.mem a)) ∧
    (s.seq = .run (.uartRead n off) (.raised .transport) →
      exec (.uartRead n off) s = .next { s with err := .transport, done := true, seq := .idle }))

/-! ### CRC-8 (41_crc8.md) -/

/-- 41_crc8.md R78: the literal table is the bit-serial form, byte for byte. -/
def Obligations.CrcTableIsTheBitSerialForm : Prop :=
  ∀ x : Byte,
    crcTable.length = 256 ∧
    crcTable[x.toNat]? = some (crcIterate 8 x) ∧
    (∀ c : Byte, crcShift c = if c.getLsbD 0 then (c >>> 1) ^^^ 0x8C else c >>> 1)

/-- 41_crc8.md R80: its consequences of R78 and R79, the last for any one byte altered anywhere. -/
def Obligations.CrcConsequences : Prop :=
  crc8 [] = 0 ∧ crcValid [] = true ∧
  (∀ b : Byte, some (crc8 [b]) = crcTable[b.toNat]?) ∧
  (∀ bs : List Byte, crc8 (bs ++ [crc8 bs]) = 0 ∧ crcValid (bs ++ [crc8 bs]) = true) ∧
  (∀ k : Nat, crc8 (List.replicate k 0) = 0) ∧
  (∀ (xs ys : List Byte) (b c : Byte), b ≠ c →
    crc8 (xs ++ b :: ys) ≠ crc8 (xs ++ c :: ys) ∧
    (crcValid (xs ++ b :: ys) = true → crcValid (xs ++ c :: ys) = false))

/-- 41_crc8.md R81, with the model fault of 10_state.md R36. -/
def Obligations.CrcComputeWritesTheCrc : Prop :=
  (∀ img : CmdImage, img.op = 0x30 → decodeCommand img = .ok (.crcCompute img.arg0 img.arg1)) ∧
  (∀ (s : State) (n off : Word), s.seq = .run (.crcCompute n off) .start →
    (s.params.bufBytes < off.toNat + n.toNat →
      exec (.crcCompute n off) s = .next { s with err := .argRange, done := true, seq := .idle }) ∧
    (off.toNat + n.toNat ≤ s.params.bufBytes →
      Memory.readBytes s.mem (0x100 + off.toNat) n.toNat = none →
      exec (.crcCompute n off) s = .fault .unwrittenOperand) ∧
    (∀ bs, off.toNat + n.toNat ≤ s.params.bufBytes →
      Memory.readBytes s.mem (0x100 + off.toNat) n.toNat = some bs →
      exec (.crcCompute n off) s =
        .next { s with result := (crc8 bs).setWidth 32, err := .ok, done := true, seq := .idle }))

/-- 41_crc8.md R82, with the model fault of 10_state.md R36: RESULT[0] is Valid, RESULT[15:8] the CRC,
written on DATA_INTEGRITY too. -/
def Obligations.CrcValidateReportsIntegrity : Prop :=
  (∀ img : CmdImage, img.op = 0x31 → decodeCommand img = .ok (.crcValidate img.arg0 img.arg1)) ∧
  (∀ (s : State) (n off : Word), s.seq = .run (.crcValidate n off) .start →
    (s.params.bufBytes < off.toNat + n.toNat →
      exec (.crcValidate n off) s = .next { s with err := .argRange, done := true, seq := .idle }) ∧
    (off.toNat + n.toNat ≤ s.params.bufBytes →
      Memory.readBytes s.mem (0x100 + off.toNat) n.toNat = none →
      exec (.crcValidate n off) s = .fault .unwrittenOperand) ∧
    (∀ bs, off.toNat + n.toNat ≤ s.params.bufBytes →
      Memory.readBytes s.mem (0x100 + off.toNat) n.toNat = some bs →
      exec (.crcValidate n off) s =
        .next { s with
          result := (crc8 bs).setWidth 32 <<< 8 ||| (if crc8 bs = 0 then 1 else 0)
          err := if crc8 bs = 0 then .ok else .dataIntegrity
          done := true
          seq := .idle }))

/-! ### Bus engine (42_bus_engine.md) -/

/-- 42_bus_engine.md R84 with R83: how OW_RESET begins, ends and reports. The primitive steps between are
those of `resetPrims`, each by its own statement. -/
def Obligations.OwResetBeginsAndReports : Prop :=
  (∀ img : CmdImage, img.op = 0x10 → decodeCommand img = .ok .owReset) ∧
  (∀ s : State,
    (s.seq = .run .owReset .start →
      (s.portOpen = true →
        exec .owReset s =
          .next { s with
            present := false, rx := [], hist := s.hist ++ [.flush]
            seq := .run .owReset (.going .plain
              [.uartSetRate .reset, .uartTx [0xF0], .delay .resetSettle, .uartRx 1,
               .uartSetRate .data] []) }) ∧
      (s.portOpen = false →
        exec .owReset s =
          .next { s with present := false, seq := .run .owReset (.raised .transport) })) ∧
    (∀ e, s.seq = .run .owReset (.going .plain [] [e]) →
      exec .owReset s =
        .next { s with
          present := decide (e ≠ 0xF0 ∧ e ≠ 0x00)
          result := e.setWidth 32 <<< 8 ||| (if e ≠ 0xF0 ∧ e ≠ 0x00 then 1 else 0)
          err := .ok, done := true, seq := .idle }) ∧
    (s.seq = .run .owReset (.raised .transport) →
      exec .owReset s = .next { s with err := .transport, done := true, seq := .idle }))

/-- 42_bus_engine.md R83, R84, 70_reset_and_hazards.md R133: a whole OW_RESET from accept to completion,
six primitive steps and one for completion, with LINE's one echo between transmit and read. -/
def Obligations.OwResetRunsToPresence : Prop :=
  ∀ (s : State) (e : Byte) (rest : List Turn),
    s.seq = .run .owReset .start → s.portOpen = true →
    s.agenda = [.engine .ok, .engine .ok, .engine .ok, .line e, .engine .ok, .engine .ok,
                .engine .ok, .engine .ok] ++ rest →
    runSteps 8 s =
      .next { s with
        agenda := rest, answer := .ok, rx := [], rate := .data
        hist := s.hist ++ [.flush, .setRate .reset, .tx .reset [0xF0], .lineRx e,
                           .delay .resetSettle, .rx [e], .setRate .data]
        present := decide (e ≠ 0xF0 ∧ e ≠ 0x00)
        result := e.setWidth 32 <<< 8 ||| (if e ≠ 0xF0 ∧ e ≠ 0x00 then 1 else 0)
        err := .ok, done := true, seq := .idle }

/-- 42_bus_engine.md R85, 70_reset_and_hazards.md R133: a touch of n bits sends sym of every bit in
order, reads n bytes, in chunks of at most 16 and 3 * ceil(n / 16) primitive steps; each chunk is
transmitted, let settle, and read back before the next. -/
def Obligations.TouchSendsEveryBitInChunks : Prop :=
  ∀ bits : List Bool,
    txBytes (touchPrims bits) = bits.map (fun b => if b then 0xFF else 0x00) ∧
    rxTotal (touchPrims bits) = bits.length ∧
    (touchPrims bits).length = 3 * ((bits.length + 15) / 16) ∧
    (∀ bs, Prim.uartTx bs ∈ touchPrims bits → 0 < bs.length ∧ bs.length ≤ 16) ∧
    (bits ≠ [] →
      touchPrims bits =
        [.uartTx ((bits.take 16).map (fun b => if b then 0xFF else 0x00)), .delay .chunkSettle,
         .uartRx (min 16 bits.length)] ++ touchPrims (bits.drop 16))

/-- 42_bus_engine.md R86, with the model fault of 10_state.md R36: how OW_TOUCH begins and ends. -/
def Obligations.OwTouchBeginsAndWritesBack : Prop :=
  (∀ img : CmdImage, img.op = 0x11 → decodeCommand img = .ok (.owTouch img.arg0 img.arg1)) ∧
  (∀ (s : State) (n off : Word),
    (s.seq = .run (.owTouch n off) .start →
      (s.params.bufBytes < off.toNat + n.toNat →
        exec (.owTouch n off) s = .next { s with err := .argRange, done := true, seq := .idle }) ∧
      (off.toNat + n.toNat ≤ s.params.bufBytes →
        Memory.readBytes s.mem (0x100 + off.toNat) n.toNat = none →
        exec (.owTouch n off) s = .fault .unwrittenOperand) ∧
      (n = 0 → off.toNat ≤ s.params.bufBytes →
        exec (.owTouch n off) s = .next { s with err := .ok, done := true, seq := .idle }) ∧
      (∀ bs, off.toNat + n.toNat ≤ s.params.bufBytes → n ≠ 0 →
        Memory.readBytes s.mem (0x100 + off.toNat) n.toNat = some bs →
        (s.portOpen = false →
          exec (.owTouch n off) s =
            .next { s with seq := .run (.owTouch n off) (.raised .transport) }) ∧
        (s.portOpen = true → s.answer = .ok →
          exec (.owTouch n off) s =
            .next { s with
              hist := s.hist ++
                [.tx s.rate ((bs.take 16).map (fun b => if b.getLsbD 0 then 0xFF else 0x00))]
              seq := .run (.owTouch n off) (.going .plain
                (.delay .chunkSettle :: .uartRx (min 16 bs.length) ::
                  touchPrims ((bs.drop 16).map (fun b => b.getLsbD 0))) []) }))) ∧
    (∀ es, s.seq = .run (.owTouch n off) (.going .plain [] es) → es.length = n.toNat →
      Memory.wf s.mem = true →
      ∃ m, exec (.owTouch n off) s =
          .next { s with mem := m, err := .ok, done := true, seq := .idle } ∧
        (∀ (k : Nat) (hk : k < es.length),
          Memory.read m (0x100 + off.toNat + k) = some (if es[k].getLsbD 0 then 0x01 else 0x00)) ∧
        (∀ a, a < 0x100 + off.toNat ∨ 0x100 + off.toNat + n.toNat ≤ a →
          Memory.read m a = Memory.read s.mem a)))

/-- 42_bus_engine.md R85, R86, 20_memory.md R51: a whole OW_TOUCH of any length, from accept to
completion, with any echoes: the bits go out in order and response bit i lands in DATA[off+i]. -/
def Obligations.OwTouchRunKeepsTheBitOrder : Prop :=
  ∀ (s : State) (n off : Word) (bs es : List Byte) (rest : List Turn),
    s.seq = .run (.owTouch n off) .start → s.portOpen = true → s.rx = [] →
    Memory.wf s.mem = true → n ≠ 0 → off.toNat + n.toNat ≤ s.params.bufBytes →
    Memory.readBytes s.mem (0x100 + off.toNat) n.toNat = some bs →
    es.length = n.toNat → s.agenda = touchTurns es ++ rest →
    ∃ t, runSteps (touchTurns es).length s = .next t ∧
      t.seq = .idle ∧ t.done = true ∧ t.err = .ok ∧ t.agenda = rest ∧
      t.portOpen = true ∧ t.rate = s.rate ∧ t.rx = [] ∧
      sentBytes t.hist =
        sentBytes s.hist ++ bs.map (fun b => if b.getLsbD 0 then 0xFF else 0x00) ∧
      (∀ (k : Nat) (hk : k < es.length),
        Memory.read t.mem (0x100 + off.toNat + k) = some (if es[k].getLsbD 0 then 0x01 else 0x00)) ∧
      (∀ a, a < 0x100 + off.toNat ∨ 0x100 + off.toNat + n.toNat ≤ a →
        Memory.read t.mem a = Memory.read s.mem a)

/-- 42_bus_engine.md R88 with R87: the eight bits of the byte go out least significant first, in one
chunk; the responses are discarded. -/
def Obligations.OwWriteByteSendsLsbFirst : Prop :=
  (∀ img : CmdImage, img.op = 0x12 →
    decodeCommand img = .ok (.owWriteByte (img.arg0.extractLsb' 0 8))) ∧
  (∀ (s : State) (b : Byte),
    (s.seq = .run (.owWriteByte b) .start →
      (s.portOpen = false →
        exec (.owWriteByte b) s =
          .next { s with seq := .run (.owWriteByte b) (.raised .transport) }) ∧
      (s.portOpen = true → s.answer = .ok →
        exec (.owWriteByte b) s =
          .next { s with
            hist := s.hist ++ [.tx s.rate
              ([0, 1, 2, 3, 4, 5, 6, 7].map (fun k => if b.getLsbD k then 0xFF else 0x00))]
            seq := .run (.owWriteByte b)
              (.going .plain [.delay .chunkSettle, .uartRx 8] []) })) ∧
    (∀ got, s.seq = .run (.owWriteByte b) (.going .plain [] got) →
      exec (.owWriteByte b) s = .next { s with err := .ok, done := true, seq := .idle }) ∧
    (s.seq = .run (.owWriteByte b) (.raised .transport) →
      exec (.owWriteByte b) s = .next { s with err := .transport, done := true, seq := .idle }))

/-- 42_bus_engine.md R90 with R89: eight read slots, and the byte whose bit k is bit 0 of echo k. -/
def Obligations.OwReadByteAssemblesLsbFirst : Prop :=
  (∀ img : CmdImage, img.op = 0x13 → decodeCommand img = .ok .owReadByte) ∧
  (∀ s : State,
    (s.seq = .run .owReadByte .start →
      (s.portOpen = false →
        exec .owReadByte s = .next { s with seq := .run .owReadByte (.raised .transport) }) ∧
      (s.portOpen = true → s.answer = .ok →
        exec .owReadByte s =
          .next { s with
            hist := s.hist ++ [.tx s.rate (List.replicate 8 0xFF)]
            seq := .run .owReadByte (.going .plain [.delay .chunkSettle, .uartRx 8] []) })) ∧
    (∀ es, s.seq = .run .owReadByte (.going .plain [] es) → es.length = 8 →
      ∃ v : Word,
        exec .owReadByte s =
          .next { s with result := v, err := .ok, done := true, seq := .idle } ∧
        v < 0x100 ∧ ∀ (k : Nat) (hk : k < es.length), v.getLsbD k = es[k].getLsbD 0) ∧
    (s.seq = .run .owReadByte (.raised .transport) →
      exec .owReadByte s = .next { s with err := .transport, done := true, seq := .idle }))

/-- 42_bus_engine.md R92 with R91: MATCH_ROM and the 8 address bytes, byte 0 first, each least
significant bit first: 72 wire bytes in 9 chunks of 8, each transmitted, let settle and read back
before the next, 27 primitive steps; nothing else is written. -/
def Obligations.OwSelectSendsMatchRomAndAddress : Prop :=
  (∀ img : CmdImage, img.op = 0x14 → decodeCommand img = .ok (.owSelect (img.rom1 ++ img.rom0))) ∧
  (∀ rom : Rom,
    (selectPrims rom).length = 27 ∧
    selectPrims rom =
      ((0x55 : Byte) :: (List.range 8).map (fun k => rom.extractLsb' (8 * k) 8)).flatMap
        (fun b =>
          [.uartTx ([0, 1, 2, 3, 4, 5, 6, 7].map (fun k => if b.getLsbD k then 0xFF else 0x00)),
           .delay .chunkSettle, .uartRx 8]) ∧
    txBytes (selectPrims rom) =
      ((0x55 : Byte) :: (List.range 8).map (fun k => rom.extractLsb' (8 * k) 8)).flatMap
        (fun b => [0, 1, 2, 3, 4, 5, 6, 7].map (fun k => if b.getLsbD k then 0xFF else 0x00))) ∧
  (∀ (s : State) (rom : Rom),
    (s.seq = .run (.owSelect rom) .start →
      (s.portOpen = false →
        exec (.owSelect rom) s =
          .next { s with seq := .run (.owSelect rom) (.raised .transport) }) ∧
      (s.portOpen = true → s.answer = .ok →
        exec (.owSelect rom) s =
          .next { s with
            hist := s.hist ++ [.tx s.rate [0xFF, 0x00, 0xFF, 0x00, 0xFF, 0x00, 0xFF, 0x00]]
            seq := .run (.owSelect rom) (.going .plain ((selectPrims rom).drop 1) []) })) ∧
    (∀ got, s.seq = .run (.owSelect rom) (.going .plain [] got) →
      exec (.owSelect rom) s = .next { s with err := .ok, done := true, seq := .idle }) ∧
    (s.seq = .run (.owSelect rom) (.raised .transport) →
      exec (.owSelect rom) s = .next { s with err := .transport, done := true, seq := .idle }))

/-! ### ROM discovery (43_rom_search.md) -/

/-- 43_rom_search.md R95: position p is bit (p-1) mod 8 of byte (p-1) div 8, and setting it touches no
other position. -/
def Obligations.BitPositionsOfAnAddress : Prop :=
  ∀ (rom : Rom) (p : Nat), 1 ≤ p → p ≤ 64 →
    bitAt rom p = (rom.extractLsb' (8 * ((p - 1) / 8)) 8).getLsbD ((p - 1) % 8) ∧
    ∀ (d : Bool) (q : Nat), 1 ≤ q → q ≤ 64 →
      bitAt (setBit rom p d) q = if q = p then d else bitAt rom q

/-- 43_rom_search.md R96 and the start of R97, R103: OW_SEARCH begins by clearing the search state, the
ROM table and PRESENT, with the flush of its first round; DATA is untouched. -/
def Obligations.SearchBeginsCleared : Prop :=
  (∀ img : CmdImage, img.op = 0x20 → decodeCommand img = .ok .owSearch) ∧
  (∀ s : State, s.seq = .run .owSearch .start →
    ∃ m,
      (∀ a, 0x1000 ≤ a → Memory.read m a = some 0) ∧
      (∀ a, a < 0x1000 → Memory.read m a = Memory.read s.mem a) ∧
      (s.portOpen = true →
        exec .owSearch s =
          .next { s with
            ld := 0, ldf := false, ref := 0, pseen := false, cnt := 0, abort := .ok, mem := m
            present := false, rx := [], hist := s.hist ++ [.flush]
            seq := .run .owSearch (.going .reset
              [.uartSetRate .reset, .uartTx [0xF0], .delay .resetSettle, .uartRx 1,
               .uartSetRate .data] []) }) ∧
      (s.portOpen = false →
        exec .owSearch s =
          .next { s with
            ld := 0, ldf := false, ref := 0, pseen := false, cnt := 0, abort := .ok, mem := m
            present := false, seq := .run .owSearch (.raised .transport) }))

/-- 43_rom_search.md R97, R102, R103: after a round's bus reset, presence leads to the SEARCH_ROM byte
(0xF0, least significant bit first) and no presence to the abort; a raise aborts too. ABORT and RESULT
show the cause and the count; ERR is OK if a bus reset of this search reported presence, the cause
otherwise; the addresses kept, LD and the reference stay. -/
def Obligations.SearchNeedsPresenceOrAborts : Prop :=
  (∀ (s : State) (e : Byte), s.seq = .run .owSearch (.going .reset [] [e]) →
    ((e = 0xF0 ∨ e = 0x00) →
      exec .owSearch s =
        .next { s with
          present := false, abort := .noPresence, result := BitVec.ofNat 32 s.cnt
          err := if s.pseen then .ok else .noPresence
          done := true, seq := .idle }) ∧
    (e ≠ 0xF0 → e ≠ 0x00 → s.portOpen = true → s.answer = .ok →
      exec .owSearch s =
        .next { s with
          present := true, pseen := true
          hist := s.hist ++ [.tx s.rate [0x00, 0x00, 0x00, 0x00, 0xFF, 0xFF, 0xFF, 0xFF]]
          seq := .run .owSearch (.going .command [.delay .chunkSettle, .uartRx 8] []) })) ∧
  (∀ s : State, s.seq = .run .owSearch (.raised .transport) →
    exec .owSearch s =
      .next { s with
        abort := .transport, result := BitVec.ofNat 32 s.cnt
        err := if s.pseen then .ok else .transport
        done := true, seq := .idle })

/-- 43_rom_search.md R98, steps 2 to 5, with the corrected marker line (90_conflicts.md C1): what follows
the two responses a and c at position p. -/
def Obligations.SearchPositionStep : Prop :=
  ∀ (s : State) (p marker : Nat) (cand : Rom) (ea ec : Byte),
    s.seq = .run .owSearch (.going (.pair p cand marker) [] [ea, ec]) →
    s.portOpen = true → s.answer = .ok →
    let a := ea.getLsbD 0
    let c := ec.getLsbD 0
    let goes (d : Bool) (marker' : Nat) : Prop :=
      exec .owSearch s =
        .next { s with
          hist := s.hist ++ [.tx s.rate [if d then 0xFF else 0x00]]
          seq := .run .owSearch (.going (.direct p d cand marker')
            [.delay .chunkSettle, .uartRx 1] []) }
    (a = true → c = true →
      exec .owSearch s =
        .next { s with
          abort := .noResponse, result := BitVec.ofNat 32 s.cnt
          err := if s.pseen then .ok else .noResponse
          done := true, seq := .idle }) ∧
    (a ≠ c → goes a marker) ∧
    (a = false → c = false → p < s.ld → bitAt s.ref p = true → goes true marker) ∧
    (a = false → c = false → p < s.ld → bitAt s.ref p = false → goes false p) ∧
    (a = false → c = false → p = s.ld → goes true marker) ∧
    (a = false → c = false → s.ld < p → goes false p)

/-- 43_rom_search.md R97, R98: the command byte is followed by position 1 with an empty candidate and no
marker, a direction by the next position with its bit set, each position opening with two read
slots. -/
def Obligations.SearchVisitsPositionsInOrder : Prop :=
  ∀ (s : State) (got : List Byte), s.portOpen = true → s.answer = .ok →
    (s.seq = .run .owSearch (.going .command [] got) →
      exec .owSearch s =
        .next { s with
          hist := s.hist ++ [.tx s.rate [0xFF, 0xFF]]
          seq := .run .owSearch (.going (.pair 1 0 0) [.delay .chunkSettle, .uartRx 2] []) }) ∧
    (∀ p d cand marker, s.seq = .run .owSearch (.going (.direct p d cand marker) [] got) → p < 64 →
      exec .owSearch s =
        .next { s with
          hist := s.hist ++ [.tx s.rate [0xFF, 0xFF]]
          seq := .run .owSearch (.going (.pair (p + 1) (setBit cand p d) marker)
            [.delay .chunkSettle, .uartRx 2] []) })

/-- 43_rom_search.md R100, R101, with the corrected reference line (90_conflicts.md C2): the end of a
round, from the candidate its 64 directions made and its marker. -/
def Obligations.SearchRoundEnds : Prop :=
  ∀ (s : State) (d : Bool) (cand0 : Rom) (marker : Nat) (got : List Byte),
    s.seq = .run .owSearch (.going (.direct 64 d cand0 marker) [] got) →
    Memory.wf s.mem = true →
    let cand := setBit cand0 64 d
    let closes (cnt' : Nat) (m : List Host.Cell) : Prop :=
      (marker = 0 →
        exec .owSearch s =
          .next { s with
            ref := cand, ld := 0, ldf := true, abort := .ok, cnt := cnt', mem := m
            result := BitVec.ofNat 32 cnt', err := .ok, done := true, seq := .idle }) ∧
      (marker ≠ 0 → s.portOpen = true →
        exec .owSearch s =
          .next { s with
            ref := cand, ld := marker, cnt := cnt', mem := m
            present := false, rx := [], hist := s.hist ++ [.flush]
            seq := .run .owSearch (.going .reset
              [.uartSetRate .reset, .uartTx [0xF0], .delay .resetSettle, .uartRx 1,
               .uartSetRate .data] []) }) ∧
      (marker ≠ 0 → s.portOpen = false →
        exec .owSearch s =
          .next { s with
            ref := cand, ld := marker, cnt := cnt', mem := m
            present := false, seq := .run .owSearch (.raised .transport) })
    (crc8 (romBytes cand) ≠ 0 → closes s.cnt s.mem) ∧
    (crc8 (romBytes cand) = 0 → s.cnt ≠ s.params.maxDevices →
      ∃ m, closes (s.cnt + 1) m ∧
        (∀ k, k < 8 →
          Memory.read m (0x1000 + 8 * s.cnt + k) = some (cand.extractLsb' (8 * k) 8)) ∧
        (∀ a, a < 0x1000 + 8 * s.cnt ∨ 0x1000 + 8 * s.cnt + 8 ≤ a →
          Memory.read m a = Memory.read s.mem a)) ∧
    (crc8 (romBytes cand) = 0 → s.cnt = s.params.maxDevices →
      exec .owSearch s =
        .next { s with
          abort := .resultOverflow, result := BitVec.ofNat 32 s.cnt
          err := .resultOverflow, done := true, seq := .idle })

/-! ### The wire codes run on their own (30_encoding.md R61, R62, R65, R66; the model's choice, log 8) -/

/-- 30_encoding.md R61, R62, R63, R65, R66: a touch sends 0xFF or 0x00 and its response is bit 0 of the
echo; the reset symbol, run as OwReset (42_bus_engine.md R83), decides presence from the one byte
received; the command bytes go out as eight touched bits, least significant first. That the codes run on
their own, and that the response bit is kept in `touchResp`, is the model's choice (log 8). -/
def Obligations.WireCodesRunOnTheirOwn : Prop :=
  (∀ (s : State) (i : Instr) (x : Byte),
    (i = .wireTouch1 ∧ x = 0xFF) ∨ (i = .wireTouch0 ∧ x = 0x00) →
    (s.seq = .run i .start → s.portOpen = true → s.answer = .ok →
      exec i s =
        .next { s with hist := s.hist ++ [.tx s.rate [x]],
                       seq := .run i (.going .plain [.delay .chunkSettle, .uartRx 1] []) }) ∧
    (s.seq = .run i .start → s.portOpen = false →
      exec i s = .next { s with seq := .run i (.raised .transport) }) ∧
    (∀ e, s.seq = .run i (.going .plain [] [e]) →
      exec i s =
        .next { s with touchResp := some (e.getLsbD 0), err := .ok, done := true, seq := .idle })) ∧
  (∀ s : State,
    (s.seq = .run .wireReset .start → s.portOpen = true →
      exec .wireReset s =
        .next { s with
          present := false, rx := [], hist := s.hist ++ [.flush]
          seq := .run .wireReset (.going .plain
            [.uartSetRate .reset, .uartTx [0xF0], .delay .resetSettle, .uartRx 1,
             .uartSetRate .data] []) }) ∧
    (s.seq = .run .wireReset .start → s.portOpen = false →
      exec .wireReset s =
        .next { s with present := false, seq := .run .wireReset (.raised .transport) }) ∧
    (∀ e, s.seq = .run .wireReset (.going .plain [] [e]) →
      exec .wireReset s =
        .next { s with present := decide (e ≠ 0xF0 ∧ e ≠ 0x00), err := .ok, done := true,
                       seq := .idle })) ∧
  (∀ (s : State) (i : Instr) (bs : List Byte),
    (i = .romMatch ∧ bs = [0xFF, 0x00, 0xFF, 0x00, 0xFF, 0x00, 0xFF, 0x00]) ∨
    (i = .romSearch ∧ bs = [0x00, 0x00, 0x00, 0x00, 0xFF, 0xFF, 0xFF, 0xFF]) ∨
    (i = .fnConvertT ∧ bs = [0x00, 0x00, 0xFF, 0x00, 0x00, 0x00, 0xFF, 0x00]) ∨
    (i = .fnReadScratchpad ∧ bs = [0x00, 0xFF, 0xFF, 0xFF, 0xFF, 0xFF, 0x00, 0xFF]) →
    (s.seq = .run i .start → s.portOpen = true → s.answer = .ok →
      exec i s =
        .next { s with hist := s.hist ++ [.tx s.rate bs],
                       seq := .run i (.going .plain [.delay .chunkSettle, .uartRx 8] []) }) ∧
    (s.seq = .run i .start → s.portOpen = false →
      exec i s = .next { s with seq := .run i (.raised .transport) }) ∧
    (∀ got, s.seq = .run i (.going .plain [] got) →
      exec i s = .next { s with err := .ok, done := true, seq := .idle }))

/-! ### Progress (70_reset_and_hazards.md R133) -/

/-- 70_reset_and_hazards.md R133: every ENGINE step of an operation other than OW_SEARCH ends it or is
one of the primitive steps it has left, which raises or leaves one fewer, and it ends with OK only when none is left; every ENGINE
step of OW_SEARCH ends it, raises, takes one of the 393 of its round, or, none left, begins the next
round; so every operation but OW_SEARCH ends within its primitive steps and one for completion, whatever
else is interleaved. The counts of the wire codes run on their own are the model's (log 8). -/
def Obligations.OperationsTakeTheStatedSteps : Prop :=
  (∀ (i : Instr) (pos : Pos) (s t : State), i ≠ .owSearch → s.seq = .run i pos →
    exec i s = .next t →
    (t.seq = .idle ∧ (t.err = .ok → stepsLeft s = 0)) ∨
    (t.seq = .run i (.raised .transport) ∧ 0 < stepsLeft s) ∨
    (∃ ph todo got, t.seq = .run i (.going ph todo got) ∧ stepsLeft t + 1 = stepsLeft s)) ∧
  (∀ (pos : Pos) (s t : State), s.seq = .run .owSearch pos → SeqOk s →
    exec .owSearch s = .next t →
    t.seq = .idle ∨ t.seq = .run .owSearch (.raised .transport) ∨
    (∃ ph todo got, t.seq = .run .owSearch (.going ph todo got) ∧
      (stepsLeft t + 1 = stepsLeft s ∨ (stepsLeft s = 0 ∧ stepsLeft t + 1 = 393)))) ∧
  (∀ (sched : Nat → Turn) (r : Nat → State) (i : Instr) (k : Nat),
    RunsUnder sched r → (r 0).seq = .run i .start → i ≠ .owSearch →
    stepsLeft (r 0) + 1 ≤ engineTurns sched k → ∃ j, j ≤ k ∧ (r j).busy = false)

/-! ### Frames -/

/-- What the operations that write nothing but the wire leave unchanged, at every position: every operand
register, RESULT, every search register, DATA and ROMTAB, PRESENT and OVR (40_transport.md R70 to R75,
42_bus_engine.md R88, R92). For ROM_MATCH, ROM_SEARCH, FN_CONVERT_T and FN_READ_SCRATCHPAD, run on their
own, it is the model's choice (log 8). -/
def Obligations.WireOnlyOperationsKeepTheRest : Prop :=
  ∀ (i : Instr) (s t : State),
    (i = .nop ∨ (∃ r, i = .openPort r) ∨ i = .close ∨ (∃ r, i = .switchRate r) ∨ i = .flush ∨
     (∃ n off, i = .uartWrite n off) ∨ (∃ b, i = .owWriteByte b) ∨ (∃ rom, i = .owSelect rom) ∨
     i = .romMatch ∨ i = .romSearch ∨ i = .fnConvertT ∨ i = .fnReadScratchpad) →
    exec i s = .next t →
    t = { s with
      portOpen := t.portOpen, rate := t.rate, rx := t.rx, hist := t.hist, seq := t.seq
      done := t.done, err := t.err }

/-- The frame of the operations that return a value: OW_RESET may change PRESENT and RESULT,
OW_READ_BYTE, CRC_COMPUTE and CRC_VALIDATE may change RESULT, and the CRC operations touch neither the
link nor the wire (10_state.md R25, 41_crc8.md R81, R82, 42_bus_engine.md R84, R90). The codes
WIRE_RESET (PRESENT, and no RESULT), WIRE_TOUCH_1 and WIRE_TOUCH_0 (the response bit) run on their own by
the model's choice (log 8). -/
def Obligations.ValueOperationsKeepTheRest : Prop :=
  ∀ (i : Instr) (s t : State), exec i s = .next t →
    (i = .owReset →
      t = { s with
        portOpen := t.portOpen, rate := t.rate, rx := t.rx, hist := t.hist, seq := t.seq
        done := t.done, err := t.err, present := t.present, result := t.result }) ∧
    (i = .wireReset →
      t = { s with
        portOpen := t.portOpen, rate := t.rate, rx := t.rx, hist := t.hist, seq := t.seq
        done := t.done, err := t.err, present := t.present }) ∧
    (i = .owReadByte →
      t = { s with
        portOpen := t.portOpen, rate := t.rate, rx := t.rx, hist := t.hist, seq := t.seq
        done := t.done, err := t.err, result := t.result }) ∧
    (i = .wireTouch1 ∨ i = .wireTouch0 →
      t = { s with
        portOpen := t.portOpen, rate := t.rate, rx := t.rx, hist := t.hist, seq := t.seq
        done := t.done, err := t.err, touchResp := t.touchResp }) ∧
    (∀ n off, s.seq = .run i .start → i = .crcCompute n off ∨ i = .crcValidate n off →
      t = { s with seq := t.seq, done := t.done, err := t.err, result := t.result })

/-- The frame of the operations that store to DATA: from a position the sequencer can be at, at most the
bytes DATA[off .. off+n-1] change, and only at completion; every register, flag and search register is
unchanged but ERR and DONE (40_transport.md R76, 42_bus_engine.md R86). -/
def Obligations.StoringOperationsKeepTheRest : Prop :=
  ∀ (i : Instr) (n off : Word) (pos : Pos) (s t : State),
    i = .uartRead n off ∨ i = .owTouch n off → s.seq = .run i pos → SeqOk s →
    exec i s = .next t →
    t = { s with
      portOpen := t.portOpen, rate := t.rate, rx := t.rx, hist := t.hist, seq := t.seq
      done := t.done, err := t.err, mem := t.mem } ∧
    (t.busy = true ∨ t.err ≠ .ok → t.mem = s.mem) ∧
    (∀ a, a < 0x100 + off.toNat ∨ 0x100 + off.toNat + n.toNat ≤ a →
      Memory.read t.mem a = Memory.read s.mem a)

/-- The frame of OW_SEARCH: no operand register, no DATA byte and not OVR (43_rom_search.md R103). -/
def Obligations.SearchKeepsOperandsAndData : Prop :=
  ∀ s t : State, exec .owSearch s = .next t →
    t.arg0 = s.arg0 ∧ t.arg1 = s.arg1 ∧ t.rom0 = s.rom0 ∧ t.rom1 = s.rom1 ∧ t.ovr = s.ovr ∧
    t.params = s.params ∧ t.agenda = s.agenda ∧ t.draws = s.draws ∧ t.hostData = s.hostData ∧
    t.touchResp = s.touchResp ∧
    ∀ a, a < 0x1000 → Memory.read t.mem a = Memory.read s.mem a

/-- 10_state.md R25: which operations write RESULT, and that an error leaves it unless the rule says
otherwise (CRC_VALIDATE's R82, OW_SEARCH's R102). -/
def Obligations.ResultIsWrittenOnlyByNamedOperations : Prop :=
  State.reset.result = 0 ∧
  ∀ (i : Instr) (s t : State), exec i s = .next t → t.result ≠ s.result →
    i = .owSearch ∨ (∃ n off, i = .crcValidate n off) ∨
    ((i = .owReset ∨ i = .owReadByte ∨ ∃ n off, i = .crcCompute n off) ∧ t.err = .ok)

/-- 10_state.md R31: the ROM table is written only by OW_SEARCH; block reset clears it. -/
def Obligations.RomTableIsWrittenOnlyBySearch : Prop :=
  ∀ s t : State, Inv s → step s = .next t →
    (∃ ans pos, s.takeTurn.1 = .engine ans ∧ s.seq = .run .owSearch pos) ∨
    s.takeTurn.1 = .blockReset ∨
    ∀ a, 0x1000 ≤ a → Memory.read t.mem a = Memory.read s.mem a

/-! ### Host space (10_state.md, 20_memory.md) -/

/-- 10_state.md R20 to R29, 60_exceptions.md R107: what an aligned 32-bit load of a register returns,
at any time or, where 20_memory.md R54 leaves the value open while BUSY = 1, while BUSY = 0; what a store
to ARG0, ARG1, ROM0 or ROM1 does while BUSY = 0; that a store to a read-only register or to ROMTAB is
ignored at any time; and the numbers of the error codes. -/
def Obligations.RegistersReadTheirStateAndTakeStores : Prop :=
  (∀ (s : State) (rest : List Turn), s.agenda = .host (.read .w32 0x004) :: rest →
    ∃ v : Word, step s = .next { s with agenda := rest, hostData := v } ∧
      v.getLsbD 0 = s.busy ∧ v.getLsbD 1 = s.done ∧ v.getLsbD 2 = s.present ∧
      v.getLsbD 3 = s.portOpen ∧
      v.getLsbD 4 = decide (s.portOpen = true ∧ s.rate = .data) ∧
      v.getLsbD 5 = s.ldf ∧ v.getLsbD 6 = s.ovr ∧ v.getLsbD 7 = false ∧
      v.extractLsb' 8 4 = s.err.code ∧ v.extractLsb' 12 20 = 0) ∧
  (∀ (s : State) (rest : List Turn), s.busy = false → s.agenda = .host (.read .w32 0x01C) :: rest →
    ∃ v : Word, step s = .next { s with agenda := rest, hostData := v } ∧
      v.extractLsb' 0 7 = BitVec.ofNat 7 s.ld ∧ v.getLsbD 7 = false ∧
      v.extractLsb' 8 4 = s.abort.code ∧ v.getLsbD 12 = s.pseen ∧ v.extractLsb' 13 19 = 0) ∧
  (∀ (s : State) (a : HostAddr) (v : Word) (rest : List Turn),
    s.agenda = .host (.read .w32 a) :: rest →
    (a = 0x000 ∧ v = 0) ∨ (a = 0x008 ∧ v = s.arg0) ∨ (a = 0x00C ∧ v = s.arg1) ∨
    (a = 0x014 ∧ v = s.rom0) ∨ (a = 0x018 ∧ v = s.rom1) ∨
    (s.busy = false ∧
      ((a = 0x010 ∧ v = s.result) ∨ (a = 0x020 ∧ v = BitVec.ofNat 32 s.cnt) ∨
       (a = 0x024 ∧ v = s.ref.extractLsb' 0 32) ∨ (a = 0x028 ∧ v = s.ref.extractLsb' 32 32))) →
    step s = .next { s with agenda := rest, hostData := v }) ∧
  (∀ (s : State) (v : Word) (rest : List Turn), s.busy = false →
    (s.agenda = .host (.write .w32 0x008 v) :: rest →
      step s = .next { s with agenda := rest, arg0 := v }) ∧
    (s.agenda = .host (.write .w32 0x00C v) :: rest →
      step s = .next { s with agenda := rest, arg1 := v }) ∧
    (s.agenda = .host (.write .w32 0x014 v) :: rest →
      step s = .next { s with agenda := rest, rom0 := v }) ∧
    (s.agenda = .host (.write .w32 0x018 v) :: rest →
      step s = .next { s with agenda := rest, rom1 := v })) ∧
  (∀ (s : State) (w : Width) (a : HostAddr) (v : Word) (rest : List Turn),
    s.agenda = .host (.write w a v) :: rest →
    (w = .w32 ∧ (a = 0x004 ∨ a = 0x010 ∨ a = 0x01C ∨ a = 0x020 ∨ a = 0x024 ∨ a = 0x028)) ∨
    0x1000 ≤ a.toNat →
    step s = .next { s with agenda := rest }) ∧
  ErrCode.ok.code = 0 ∧ ErrCode.transport.code = 1 ∧ ErrCode.noPresence.code = 2 ∧
  ErrCode.deviceLost.code = 3 ∧ ErrCode.dataIntegrity.code = 4 ∧ ErrCode.noResponse.code = 5 ∧
  ErrCode.illegalOp.code = 6 ∧ ErrCode.badState.code = 7 ∧ ErrCode.argRange.code = 8 ∧
  ErrCode.resultOverflow.code = 9

/-- 20_memory.md R52: a host load changes nothing but what it returns. -/
def Obligations.HostLoadsHaveNoSideEffect : Prop :=
  ∀ (s t : State) (w : Width) (a : HostAddr) (rest : List Turn),
    s.agenda = .host (.read w a) :: rest → step s = .next t →
    t = { s with agenda := rest, hostData := t.hostData, draws := t.draws }

/-- 20_memory.md R39 and R40. A misaligned access, a register access narrower than 32 bits, or one across
the end of DATA or ROMTAB: a store is ignored, a load returns a free value, and neither touches ERR.
Reserved space: a load returns 0, a store is ignored. The model's choices: that R39 goes before R40 where
both speak, for misaligned accesses in reserved space and for narrow ones at 0x02C to 0x0FF (log 11), and
that each irregular load draws a fresh value, though R52 says a repeated read returns the same (log 12).
Only a misaligned access can cross the end of ROMTAB. -/
def Obligations.IrregularAndReservedAccesses : Prop :=
  ∀ (s : State) (w : Width) (a : HostAddr) (v : Word) (rest : List Turn),
    ((a.toNat % w.bytes ≠ 0 ∨ (a.toNat < 0x100 ∧ w ≠ .w32) ∨
     (0x100 ≤ a.toNat ∧ a.toNat < 0x100 + s.params.bufBytes ∧ a.toNat < 0x1000 ∧
      0x100 + s.params.bufBytes < a.toNat + w.bytes) ∨
     (0x1000 ≤ a.toNat ∧ a.toNat < 0x1000 + 8 * s.params.maxDevices ∧
      0x1000 + 8 * s.params.maxDevices < a.toNat + w.bytes)) →
      (s.agenda = .host (.write w a v) :: rest → step s = .next { s with agenda := rest }) ∧
      (s.agenda = .host (.read w a) :: rest →
        step s = .next { s with
          agenda := rest, hostData := cutTo w (Config.freeWord s.draws), draws := s.draws + 1 })) ∧
    ((a.toNat % w.bytes = 0 ∧
      ((0x02C ≤ a.toNat ∧ a.toNat < 0x100 ∧ w = .w32) ∨
       (0x100 + s.params.bufBytes ≤ a.toNat ∧ a.toNat < 0x1000) ∨
       (0x1000 + 8 * s.params.maxDevices ≤ a.toNat))) →
      (s.agenda = .host (.write w a v) :: rest → step s = .next { s with agenda := rest }) ∧
      (s.agenda = .host (.read w a) :: rest →
        step s = .next { s with agenda := rest, hostData := 0 }))

/-- 20_memory.md R41, 10_state.md R30, R31: a host load of DATA or ROMTAB while BUSY = 0 returns the bytes
there, byte k in bits 8k+7:8k, and 0 above them; a host store to DATA puts bits 8k+7:8k of its word at
byte k and touches no other byte; loading the same access back gives the word cut to its width. -/
def Obligations.DataAndRomtabAreLittleEndian : Prop :=
  (∀ (s : State) (w : Width) (a : HostAddr) (bs : List Byte) (rest : List Turn),
    s.busy = false → a.toNat % w.bytes = 0 →
    (0x100 ≤ a.toNat ∧ a.toNat < 0x1000 ∧ a.toNat + w.bytes ≤ 0x100 + s.params.bufBytes) ∨
    (0x1000 ≤ a.toNat ∧ a.toNat + w.bytes ≤ 0x1000 + 8 * s.params.maxDevices) →
    bs.length = w.bytes →
    (∀ (k : Nat) (hk : k < bs.length), Memory.read s.mem (a.toNat + k) = some bs[k]) →
    s.agenda = .host (.read w a) :: rest →
    ∃ v : Word, step s = .next { s with agenda := rest, hostData := v } ∧
      (∀ (k : Nat) (hk : k < bs.length), v.extractLsb' (8 * k) 8 = bs[k]) ∧
      (∀ j, 8 * w.bytes ≤ j → v.getLsbD j = false)) ∧
  ∀ (s : State) (w : Width) (a : HostAddr) (v : Word) (rest : List Turn),
    s.busy = false → Memory.wf s.mem = true → a.toNat % w.bytes = 0 → 0x100 ≤ a.toNat →
    a.toNat < 0x1000 → a.toNat + w.bytes ≤ 0x100 + s.params.bufBytes →
    s.agenda = .host (.write w a v) :: .host (.read w a) :: rest →
    ∃ m,
      step s =
        .next { s with agenda := .host (.read w a) :: rest, mem := m } ∧
      (∀ k, k < w.bytes → Memory.read m (a.toNat + k) = some (v.extractLsb' (8 * k) 8)) ∧
      (∀ c, c < a.toNat ∨ a.toNat + w.bytes ≤ c → Memory.read m c = Memory.read s.mem c) ∧
      runSteps 2 s =
        .next { s with agenda := rest, mem := m, hostData := cutTo w v }

/-- 20_memory.md R54: the host's accesses while BUSY = 1 (the store to CMD is R57's; loads of CMD, ARG0,
ARG1, ROM0 and ROM1 are as at any time, `RegistersReadTheirStateAndTakeStores`). That a load of an
unwritten DATA byte does not fault while BUSY = 1, though 10_state.md R36 makes a host read of one a
fault, is the model's reading (log 12). -/
def Obligations.HostAccessesWhileBusy : Prop :=
  ∀ (s : State) (rest : List Turn), s.busy = true →
    (∀ a v, a = 0x008 ∨ a = 0x00C ∨ a = 0x014 ∨ a = 0x018 →
      s.agenda = .host (.write .w32 a v) :: rest → step s = .next { s with agenda := rest }) ∧
    (∀ w a v, 0x100 ≤ a.toNat → a.toNat < 0x1000 →
      s.agenda = .host (.write w a v) :: rest → step s = .next { s with agenda := rest }) ∧
    (∀ w a,
      (w = .w32 ∧ (a = 0x010 ∨ a = 0x01C ∨ a = 0x020 ∨ a = 0x024 ∨ a = 0x028)) ∨
      (a.toNat % w.bytes = 0 ∧ 0x100 ≤ a.toNat ∧ a.toNat < 0x1000 ∧
        a.toNat + w.bytes ≤ 0x100 + s.params.bufBytes) ∨
      (a.toNat % w.bytes = 0 ∧ 0x1000 ≤ a.toNat ∧
        a.toNat + w.bytes ≤ 0x1000 + 8 * s.params.maxDevices) →
      s.agenda = .host (.read w a) :: rest →
      step s = .next { s with
        agenda := rest, hostData := cutTo w (Config.freeWord s.draws), draws := s.draws + 1 }) ∧
    (s.agenda = .host (.read .w32 0x004) :: rest →
      step s = .next { s with agenda := rest, hostData := s.statusWord }) ∧
    (∀ v, s.agenda = .host (.write .w32 0x000 v) :: rest →
      step s = .next { s with agenda := rest, ovr := true })

/-- 10_state.md R36: reading a DATA byte never written since block reset is a fault, for the host while
BUSY = 0 (a load of any width that reaches one faults as a whole, log 13) and for the engine's MemRead;
and reset leaves every DATA byte so. -/
def Obligations.UnwrittenDataFaults : Prop :=
  (∀ (s : State) (w : Width) (a : HostAddr) (k : Nat) (rest : List Turn),
    s.busy = false → s.agenda = .host (.read w a) :: rest → a.toNat % w.bytes = 0 →
    0x100 ≤ a.toNat → a.toNat < 0x1000 → a.toNat + w.bytes ≤ 0x100 + s.params.bufBytes →
    k < w.bytes → Memory.read s.mem (a.toNat + k) = none →
    step s = .fault .unwrittenHostRead) ∧
  (∀ (i : Instr) (n off : Word) (k : Nat) (s : State),
    i = .uartWrite n off ∨ i = .owTouch n off ∨ i = .crcCompute n off ∨ i = .crcValidate n off →
    s.seq = .run i .start → off.toNat + n.toNat ≤ s.params.bufBytes → k < n.toNat →
    Memory.read s.mem (0x100 + off.toNat + k) = none →
    exec i s = .fault .unwrittenOperand) ∧
  (∀ a, 0x100 ≤ a → a < 0x1000 → Memory.read State.reset.mem a = none)

/-! ### Reset and invariants -/

/-- 70_reset_and_hazards.md R120: the reset values, every one, that every register then reads 0, and that
a later block reset keeps the history. -/
def Obligations.ResetLeavesTheStatedValues : Prop :=
  State.reset.statusWord = 0 ∧ State.reset.arg0 = 0 ∧ State.reset.arg1 = 0 ∧
  State.reset.result = 0 ∧ State.reset.rom0 = 0 ∧ State.reset.rom1 = 0 ∧
  State.reset.srchStatWord = 0 ∧ State.reset.cnt = 0 ∧ State.reset.ref = 0 ∧
  State.reset.busy = false ∧ State.reset.done = false ∧ State.reset.present = false ∧
  State.reset.portOpen = false ∧ State.reset.ldf = false ∧ State.reset.ovr = false ∧
  State.reset.err = .ok ∧ State.reset.rate = .reset ∧ State.reset.rx = [] ∧
  State.reset.seq = .idle ∧ State.reset.ld = 0 ∧ State.reset.pseen = false ∧
  State.reset.abort = .ok ∧ State.reset.hist = [] ∧
  (∀ a, 0x100 ≤ a → a < 0x1000 → Memory.read State.reset.mem a = none) ∧
  (∀ a, 0x1000 ≤ a → Memory.read State.reset.mem a = some 0) ∧
  (∀ off, off % 4 = 0 → off ≤ 0x028 → State.reset.regValue off = 0) ∧
  (∀ s : State, s.hist <+: s.blockReset.hist)

/-- 70_reset_and_hazards.md R119: block reset, in one step and from any state: every field its reset
value, DATA unwritten and ROMTAB zero, the history kept and `Close` appended if the port was open. That
the parameters and the fields standing for the outside stay is the model's choice (log 15). -/
def Obligations.BlockResetStopsEverything : Prop :=
  ∀ (s : State) (rest : List Turn), s.agenda = .blockReset :: rest →
    step s = .next { State.reset with
      params := s.params
      hist := s.hist ++ (if s.portOpen then [.closed] else [])
      hostData := s.hostData, answer := s.answer, agenda := rest, draws := s.draws }

/-- The invariant holds after reset. -/
def Obligations.ResetMeetsTheInvariant : Prop := Inv State.reset

/-- The invariant of the engine (Safety.lean): every step of every agent keeps it, from every state that
meets it. -/
def Obligations.EveryStepKeepsTheInvariant : Prop :=
  ∀ s t : State, Inv s → step s = .next t → Inv t

/-- 10_state.md R22, 60_exceptions.md R107, 10_state.md R31, from the invariant: BUSY and DONE are never
both 1, ERR is 0 to 9 and never NO_RESPONSE or DEVICE_LOST, LD is at most 64, SRCH_CNT at most
MAX_DEVICES, and ROMTAB entries at or above it read 0. -/
def Obligations.StatusAndTableStayLegal : Prop :=
  ∀ s : State, Inv s →
    (s.statusWord.getLsbD 0 = true → s.statusWord.getLsbD 1 = false) ∧
    (s.statusWord.extractLsb' 8 4).toNat ≤ 9 ∧
    s.statusWord.extractLsb' 8 4 ≠ 5 ∧ s.statusWord.extractLsb' 8 4 ≠ 3 ∧
    (s.srchStatWord.extractLsb' 0 7).toNat = s.ld ∧ s.ld ≤ 64 ∧
    s.cnt ≤ s.params.maxDevices ∧
    (∀ a, 0x1000 + 8 * s.cnt ≤ a → Memory.read s.mem a = some 0)

/-- 10_state.md R35, 00_scope.md R12, R13: no step rewrites the wire history or the parameters. That each
step takes exactly one turn off the agenda is the model's own (log 1). -/
def Obligations.HistoryOnlyGrows : Prop :=
  ∀ s t : State, step s = .next t →
    s.hist <+: t.hist ∧ t.params = s.params ∧ t.agenda = s.agenda.tail

/-! ### The SimBus fixture (43_rom_search.md R104) -/

/-- 42_bus_engine.md R91, 43_rom_search.md R104: on the fixture, the 72 wire bytes of OW_SELECT, sent
after a bus reset, leave exactly the device of that address selected and every other idle, whatever the
devices and whatever the address. -/
def Obligations.SelectReachesExactlyTheAddressed : Prop :=
  ∀ (devs : List SimBus.Device) (rom : Rom),
    (SimBus.transmit (SimBus.transmit devs .reset [0xF0]).1 .data (txBytes (selectPrims rom))).1 =
      devs.map (fun d => { d with st := if d.addr = rom then .func 0 0 else .idle })
end

