-- ==== Sys2Proof/Laws/State.lean ====
section
/-! SUPPORT. One lemma per field per named update of State, each true by rfl, so that no later proof
unfolds a record update; and what BUSY and the position are after a move of the sequencer. -/

namespace Sys2Proof.Machine

open Sys2Proof

variable (s : State)


@[simp] theorem State.record_params (e : Event) : (s.record e).params = s.params := rfl
@[simp] theorem State.record_portOpen (e : Event) : (s.record e).portOpen = s.portOpen := rfl
@[simp] theorem State.record_rate (e : Event) : (s.record e).rate = s.rate := rfl
@[simp] theorem State.record_rx (e : Event) : (s.record e).rx = s.rx := rfl
@[simp] theorem State.record_seq (e : Event) : (s.record e).seq = s.seq := rfl
@[simp] theorem State.record_ld (e : Event) : (s.record e).ld = s.ld := rfl
@[simp] theorem State.record_ldf (e : Event) : (s.record e).ldf = s.ldf := rfl
@[simp] theorem State.record_ref (e : Event) : (s.record e).ref = s.ref := rfl
@[simp] theorem State.record_pseen (e : Event) : (s.record e).pseen = s.pseen := rfl
@[simp] theorem State.record_cnt (e : Event) : (s.record e).cnt = s.cnt := rfl
@[simp] theorem State.record_abort (e : Event) : (s.record e).abort = s.abort := rfl
@[simp] theorem State.record_done (e : Event) : (s.record e).done = s.done := rfl
@[simp] theorem State.record_present (e : Event) : (s.record e).present = s.present := rfl
@[simp] theorem State.record_ovr (e : Event) : (s.record e).ovr = s.ovr := rfl
@[simp] theorem State.record_err (e : Event) : (s.record e).err = s.err := rfl
@[simp] theorem State.record_arg0 (e : Event) : (s.record e).arg0 = s.arg0 := rfl
@[simp] theorem State.record_arg1 (e : Event) : (s.record e).arg1 = s.arg1 := rfl
@[simp] theorem State.record_result (e : Event) : (s.record e).result = s.result := rfl
@[simp] theorem State.record_rom0 (e : Event) : (s.record e).rom0 = s.rom0 := rfl
@[simp] theorem State.record_rom1 (e : Event) : (s.record e).rom1 = s.rom1 := rfl
@[simp] theorem State.record_mem (e : Event) : (s.record e).mem = s.mem := rfl
@[simp] theorem State.record_hist (e : Event) : (s.record e).hist = s.hist ++ [e] := rfl
@[simp] theorem State.record_touchResp (e : Event) : (s.record e).touchResp = s.touchResp := rfl
@[simp] theorem State.record_hostData (e : Event) : (s.record e).hostData = s.hostData := rfl
@[simp] theorem State.record_answer (e : Event) : (s.record e).answer = s.answer := rfl
@[simp] theorem State.record_agenda (e : Event) : (s.record e).agenda = s.agenda := rfl
@[simp] theorem State.record_draws (e : Event) : (s.record e).draws = s.draws := rfl

@[simp] theorem State.setSeq_params (q : Seq) : (s.setSeq q).params = s.params := rfl
@[simp] theorem State.setSeq_portOpen (q : Seq) : (s.setSeq q).portOpen = s.portOpen := rfl
@[simp] theorem State.setSeq_rate (q : Seq) : (s.setSeq q).rate = s.rate := rfl
@[simp] theorem State.setSeq_rx (q : Seq) : (s.setSeq q).rx = s.rx := rfl
@[simp] theorem State.setSeq_seq (q : Seq) : (s.setSeq q).seq = q := rfl
@[simp] theorem State.setSeq_ld (q : Seq) : (s.setSeq q).ld = s.ld := rfl
@[simp] theorem State.setSeq_ldf (q : Seq) : (s.setSeq q).ldf = s.ldf := rfl
@[simp] theorem State.setSeq_ref (q : Seq) : (s.setSeq q).ref = s.ref := rfl
@[simp] theorem State.setSeq_pseen (q : Seq) : (s.setSeq q).pseen = s.pseen := rfl
@[simp] theorem State.setSeq_cnt (q : Seq) : (s.setSeq q).cnt = s.cnt := rfl
@[simp] theorem State.setSeq_abort (q : Seq) : (s.setSeq q).abort = s.abort := rfl
@[simp] theorem State.setSeq_done (q : Seq) : (s.setSeq q).done = s.done := rfl
@[simp] theorem State.setSeq_present (q : Seq) : (s.setSeq q).present = s.present := rfl
@[simp] theorem State.setSeq_ovr (q : Seq) : (s.setSeq q).ovr = s.ovr := rfl
@[simp] theorem State.setSeq_err (q : Seq) : (s.setSeq q).err = s.err := rfl
@[simp] theorem State.setSeq_arg0 (q : Seq) : (s.setSeq q).arg0 = s.arg0 := rfl
@[simp] theorem State.setSeq_arg1 (q : Seq) : (s.setSeq q).arg1 = s.arg1 := rfl
@[simp] theorem State.setSeq_result (q : Seq) : (s.setSeq q).result = s.result := rfl
@[simp] theorem State.setSeq_rom0 (q : Seq) : (s.setSeq q).rom0 = s.rom0 := rfl
@[simp] theorem State.setSeq_rom1 (q : Seq) : (s.setSeq q).rom1 = s.rom1 := rfl
@[simp] theorem State.setSeq_mem (q : Seq) : (s.setSeq q).mem = s.mem := rfl
@[simp] theorem State.setSeq_hist (q : Seq) : (s.setSeq q).hist = s.hist := rfl
@[simp] theorem State.setSeq_touchResp (q : Seq) : (s.setSeq q).touchResp = s.touchResp := rfl
@[simp] theorem State.setSeq_hostData (q : Seq) : (s.setSeq q).hostData = s.hostData := rfl
@[simp] theorem State.setSeq_answer (q : Seq) : (s.setSeq q).answer = s.answer := rfl
@[simp] theorem State.setSeq_agenda (q : Seq) : (s.setSeq q).agenda = s.agenda := rfl
@[simp] theorem State.setSeq_draws (q : Seq) : (s.setSeq q).draws = s.draws := rfl

@[simp] theorem State.accept_params (q : Seq) : (s.accept q).params = s.params := rfl
@[simp] theorem State.accept_portOpen (q : Seq) : (s.accept q).portOpen = s.portOpen := rfl
@[simp] theorem State.accept_rate (q : Seq) : (s.accept q).rate = s.rate := rfl
@[simp] theorem State.accept_rx (q : Seq) : (s.accept q).rx = s.rx := rfl
@[simp] theorem State.accept_seq (q : Seq) : (s.accept q).seq = q := rfl
@[simp] theorem State.accept_ld (q : Seq) : (s.accept q).ld = s.ld := rfl
@[simp] theorem State.accept_ldf (q : Seq) : (s.accept q).ldf = s.ldf := rfl
@[simp] theorem State.accept_ref (q : Seq) : (s.accept q).ref = s.ref := rfl
@[simp] theorem State.accept_pseen (q : Seq) : (s.accept q).pseen = s.pseen := rfl
@[simp] theorem State.accept_cnt (q : Seq) : (s.accept q).cnt = s.cnt := rfl
@[simp] theorem State.accept_abort (q : Seq) : (s.accept q).abort = s.abort := rfl
@[simp] theorem State.accept_done (q : Seq) : (s.accept q).done = false := rfl
@[simp] theorem State.accept_present (q : Seq) : (s.accept q).present = s.present := rfl
@[simp] theorem State.accept_ovr (q : Seq) : (s.accept q).ovr = false := rfl
@[simp] theorem State.accept_err (q : Seq) : (s.accept q).err = .ok := rfl
@[simp] theorem State.accept_arg0 (q : Seq) : (s.accept q).arg0 = s.arg0 := rfl
@[simp] theorem State.accept_arg1 (q : Seq) : (s.accept q).arg1 = s.arg1 := rfl
@[simp] theorem State.accept_result (q : Seq) : (s.accept q).result = s.result := rfl
@[simp] theorem State.accept_rom0 (q : Seq) : (s.accept q).rom0 = s.rom0 := rfl
@[simp] theorem State.accept_rom1 (q : Seq) : (s.accept q).rom1 = s.rom1 := rfl
@[simp] theorem State.accept_mem (q : Seq) : (s.accept q).mem = s.mem := rfl
@[simp] theorem State.accept_hist (q : Seq) : (s.accept q).hist = s.hist := rfl
@[simp] theorem State.accept_touchResp (q : Seq) : (s.accept q).touchResp = s.touchResp := rfl
@[simp] theorem State.accept_hostData (q : Seq) : (s.accept q).hostData = s.hostData := rfl
@[simp] theorem State.accept_answer (q : Seq) : (s.accept q).answer = s.answer := rfl
@[simp] theorem State.accept_agenda (q : Seq) : (s.accept q).agenda = s.agenda := rfl
@[simp] theorem State.accept_draws (q : Seq) : (s.accept q).draws = s.draws := rfl

@[simp] theorem State.complete_params (e : ErrCode) : (s.complete e).params = s.params := rfl
@[simp] theorem State.complete_portOpen (e : ErrCode) : (s.complete e).portOpen = s.portOpen := rfl
@[simp] theorem State.complete_rate (e : ErrCode) : (s.complete e).rate = s.rate := rfl
@[simp] theorem State.complete_rx (e : ErrCode) : (s.complete e).rx = s.rx := rfl
@[simp] theorem State.complete_seq (e : ErrCode) : (s.complete e).seq = .idle := rfl
@[simp] theorem State.complete_ld (e : ErrCode) : (s.complete e).ld = s.ld := rfl
@[simp] theorem State.complete_ldf (e : ErrCode) : (s.complete e).ldf = s.ldf := rfl
@[simp] theorem State.complete_ref (e : ErrCode) : (s.complete e).ref = s.ref := rfl
@[simp] theorem State.complete_pseen (e : ErrCode) : (s.complete e).pseen = s.pseen := rfl
@[simp] theorem State.complete_cnt (e : ErrCode) : (s.complete e).cnt = s.cnt := rfl
@[simp] theorem State.complete_abort (e : ErrCode) : (s.complete e).abort = s.abort := rfl
@[simp] theorem State.complete_done (e : ErrCode) : (s.complete e).done = true := rfl
@[simp] theorem State.complete_present (e : ErrCode) : (s.complete e).present = s.present := rfl
@[simp] theorem State.complete_ovr (e : ErrCode) : (s.complete e).ovr = s.ovr := rfl
@[simp] theorem State.complete_err (e : ErrCode) : (s.complete e).err = e := rfl
@[simp] theorem State.complete_arg0 (e : ErrCode) : (s.complete e).arg0 = s.arg0 := rfl
@[simp] theorem State.complete_arg1 (e : ErrCode) : (s.complete e).arg1 = s.arg1 := rfl
@[simp] theorem State.complete_result (e : ErrCode) : (s.complete e).result = s.result := rfl
@[simp] theorem State.complete_rom0 (e : ErrCode) : (s.complete e).rom0 = s.rom0 := rfl
@[simp] theorem State.complete_rom1 (e : ErrCode) : (s.complete e).rom1 = s.rom1 := rfl
@[simp] theorem State.complete_mem (e : ErrCode) : (s.complete e).mem = s.mem := rfl
@[simp] theorem State.complete_hist (e : ErrCode) : (s.complete e).hist = s.hist := rfl
@[simp] theorem State.complete_touchResp (e : ErrCode) : (s.complete e).touchResp = s.touchResp := rfl
@[simp] theorem State.complete_hostData (e : ErrCode) : (s.complete e).hostData = s.hostData := rfl
@[simp] theorem State.complete_answer (e : ErrCode) : (s.complete e).answer = s.answer := rfl
@[simp] theorem State.complete_agenda (e : ErrCode) : (s.complete e).agenda = s.agenda := rfl
@[simp] theorem State.complete_draws (e : ErrCode) : (s.complete e).draws = s.draws := rfl

@[simp] theorem State.deliver_params (v : Word) : (s.deliver v).params = s.params := rfl
@[simp] theorem State.deliver_portOpen (v : Word) : (s.deliver v).portOpen = s.portOpen := rfl
@[simp] theorem State.deliver_rate (v : Word) : (s.deliver v).rate = s.rate := rfl
@[simp] theorem State.deliver_rx (v : Word) : (s.deliver v).rx = s.rx := rfl
@[simp] theorem State.deliver_seq (v : Word) : (s.deliver v).seq = s.seq := rfl
@[simp] theorem State.deliver_ld (v : Word) : (s.deliver v).ld = s.ld := rfl
@[simp] theorem State.deliver_ldf (v : Word) : (s.deliver v).ldf = s.ldf := rfl
@[simp] theorem State.deliver_ref (v : Word) : (s.deliver v).ref = s.ref := rfl
@[simp] theorem State.deliver_pseen (v : Word) : (s.deliver v).pseen = s.pseen := rfl
@[simp] theorem State.deliver_cnt (v : Word) : (s.deliver v).cnt = s.cnt := rfl
@[simp] theorem State.deliver_abort (v : Word) : (s.deliver v).abort = s.abort := rfl
@[simp] theorem State.deliver_done (v : Word) : (s.deliver v).done = s.done := rfl
@[simp] theorem State.deliver_present (v : Word) : (s.deliver v).present = s.present := rfl
@[simp] theorem State.deliver_ovr (v : Word) : (s.deliver v).ovr = s.ovr := rfl
@[simp] theorem State.deliver_err (v : Word) : (s.deliver v).err = s.err := rfl
@[simp] theorem State.deliver_arg0 (v : Word) : (s.deliver v).arg0 = s.arg0 := rfl
@[simp] theorem State.deliver_arg1 (v : Word) : (s.deliver v).arg1 = s.arg1 := rfl
@[simp] theorem State.deliver_result (v : Word) : (s.deliver v).result = s.result := rfl
@[simp] theorem State.deliver_rom0 (v : Word) : (s.deliver v).rom0 = s.rom0 := rfl
@[simp] theorem State.deliver_rom1 (v : Word) : (s.deliver v).rom1 = s.rom1 := rfl
@[simp] theorem State.deliver_mem (v : Word) : (s.deliver v).mem = s.mem := rfl
@[simp] theorem State.deliver_hist (v : Word) : (s.deliver v).hist = s.hist := rfl
@[simp] theorem State.deliver_touchResp (v : Word) : (s.deliver v).touchResp = s.touchResp := rfl
@[simp] theorem State.deliver_hostData (v : Word) : (s.deliver v).hostData = v := rfl
@[simp] theorem State.deliver_answer (v : Word) : (s.deliver v).answer = s.answer := rfl
@[simp] theorem State.deliver_agenda (v : Word) : (s.deliver v).agenda = s.agenda := rfl
@[simp] theorem State.deliver_draws (v : Word) : (s.deliver v).draws = s.draws := rfl

@[simp] theorem State.deliverFree_params (w : Width) : (s.deliverFree w).params = s.params := rfl
@[simp] theorem State.deliverFree_portOpen (w : Width) : (s.deliverFree w).portOpen = s.portOpen := rfl
@[simp] theorem State.deliverFree_rate (w : Width) : (s.deliverFree w).rate = s.rate := rfl
@[simp] theorem State.deliverFree_rx (w : Width) : (s.deliverFree w).rx = s.rx := rfl
@[simp] theorem State.deliverFree_seq (w : Width) : (s.deliverFree w).seq = s.seq := rfl
@[simp] theorem State.deliverFree_ld (w : Width) : (s.deliverFree w).ld = s.ld := rfl
@[simp] theorem State.deliverFree_ldf (w : Width) : (s.deliverFree w).ldf = s.ldf := rfl
@[simp] theorem State.deliverFree_ref (w : Width) : (s.deliverFree w).ref = s.ref := rfl
@[simp] theorem State.deliverFree_pseen (w : Width) : (s.deliverFree w).pseen = s.pseen := rfl
@[simp] theorem State.deliverFree_cnt (w : Width) : (s.deliverFree w).cnt = s.cnt := rfl
@[simp] theorem State.deliverFree_abort (w : Width) : (s.deliverFree w).abort = s.abort := rfl
@[simp] theorem State.deliverFree_done (w : Width) : (s.deliverFree w).done = s.done := rfl
@[simp] theorem State.deliverFree_present (w : Width) : (s.deliverFree w).present = s.present := rfl
@[simp] theorem State.deliverFree_ovr (w : Width) : (s.deliverFree w).ovr = s.ovr := rfl
@[simp] theorem State.deliverFree_err (w : Width) : (s.deliverFree w).err = s.err := rfl
@[simp] theorem State.deliverFree_arg0 (w : Width) : (s.deliverFree w).arg0 = s.arg0 := rfl
@[simp] theorem State.deliverFree_arg1 (w : Width) : (s.deliverFree w).arg1 = s.arg1 := rfl
@[simp] theorem State.deliverFree_result (w : Width) : (s.deliverFree w).result = s.result := rfl
@[simp] theorem State.deliverFree_rom0 (w : Width) : (s.deliverFree w).rom0 = s.rom0 := rfl
@[simp] theorem State.deliverFree_rom1 (w : Width) : (s.deliverFree w).rom1 = s.rom1 := rfl
@[simp] theorem State.deliverFree_mem (w : Width) : (s.deliverFree w).mem = s.mem := rfl
@[simp] theorem State.deliverFree_hist (w : Width) : (s.deliverFree w).hist = s.hist := rfl
@[simp] theorem State.deliverFree_touchResp (w : Width) : (s.deliverFree w).touchResp = s.touchResp := rfl
@[simp] theorem State.deliverFree_hostData (w : Width) : (s.deliverFree w).hostData = cutTo w (Config.freeWord s.draws) := rfl
@[simp] theorem State.deliverFree_answer (w : Width) : (s.deliverFree w).answer = s.answer := rfl
@[simp] theorem State.deliverFree_agenda (w : Width) : (s.deliverFree w).agenda = s.agenda := rfl
@[simp] theorem State.deliverFree_draws (w : Width) : (s.deliverFree w).draws = s.draws + 1 := rfl

@[simp] theorem State.memWrite_params (o : Nat) (bs : List Byte) : (s.memWrite o bs).params = s.params := rfl
@[simp] theorem State.memWrite_portOpen (o : Nat) (bs : List Byte) : (s.memWrite o bs).portOpen = s.portOpen := rfl
@[simp] theorem State.memWrite_rate (o : Nat) (bs : List Byte) : (s.memWrite o bs).rate = s.rate := rfl
@[simp] theorem State.memWrite_rx (o : Nat) (bs : List Byte) : (s.memWrite o bs).rx = s.rx := rfl
@[simp] theorem State.memWrite_seq (o : Nat) (bs : List Byte) : (s.memWrite o bs).seq = s.seq := rfl
@[simp] theorem State.memWrite_ld (o : Nat) (bs : List Byte) : (s.memWrite o bs).ld = s.ld := rfl
@[simp] theorem State.memWrite_ldf (o : Nat) (bs : List Byte) : (s.memWrite o bs).ldf = s.ldf := rfl
@[simp] theorem State.memWrite_ref (o : Nat) (bs : List Byte) : (s.memWrite o bs).ref = s.ref := rfl
@[simp] theorem State.memWrite_pseen (o : Nat) (bs : List Byte) : (s.memWrite o bs).pseen = s.pseen := rfl
@[simp] theorem State.memWrite_cnt (o : Nat) (bs : List Byte) : (s.memWrite o bs).cnt = s.cnt := rfl
@[simp] theorem State.memWrite_abort (o : Nat) (bs : List Byte) : (s.memWrite o bs).abort = s.abort := rfl
@[simp] theorem State.memWrite_done (o : Nat) (bs : List Byte) : (s.memWrite o bs).done = s.done := rfl
@[simp] theorem State.memWrite_present (o : Nat) (bs : List Byte) : (s.memWrite o bs).present = s.present := rfl
@[simp] theorem State.memWrite_ovr (o : Nat) (bs : List Byte) : (s.memWrite o bs).ovr = s.ovr := rfl
@[simp] theorem State.memWrite_err (o : Nat) (bs : List Byte) : (s.memWrite o bs).err = s.err := rfl
@[simp] theorem State.memWrite_arg0 (o : Nat) (bs : List Byte) : (s.memWrite o bs).arg0 = s.arg0 := rfl
@[simp] theorem State.memWrite_arg1 (o : Nat) (bs : List Byte) : (s.memWrite o bs).arg1 = s.arg1 := rfl
@[simp] theorem State.memWrite_result (o : Nat) (bs : List Byte) : (s.memWrite o bs).result = s.result := rfl
@[simp] theorem State.memWrite_rom0 (o : Nat) (bs : List Byte) : (s.memWrite o bs).rom0 = s.rom0 := rfl
@[simp] theorem State.memWrite_rom1 (o : Nat) (bs : List Byte) : (s.memWrite o bs).rom1 = s.rom1 := rfl
@[simp] theorem State.memWrite_mem (o : Nat) (bs : List Byte) : (s.memWrite o bs).mem = Memory.writeBytes s.mem (dataAddr o) bs := rfl
@[simp] theorem State.memWrite_hist (o : Nat) (bs : List Byte) : (s.memWrite o bs).hist = s.hist := rfl
@[simp] theorem State.memWrite_touchResp (o : Nat) (bs : List Byte) : (s.memWrite o bs).touchResp = s.touchResp := rfl
@[simp] theorem State.memWrite_hostData (o : Nat) (bs : List Byte) : (s.memWrite o bs).hostData = s.hostData := rfl
@[simp] theorem State.memWrite_answer (o : Nat) (bs : List Byte) : (s.memWrite o bs).answer = s.answer := rfl
@[simp] theorem State.memWrite_agenda (o : Nat) (bs : List Byte) : (s.memWrite o bs).agenda = s.agenda := rfl
@[simp] theorem State.memWrite_draws (o : Nat) (bs : List Byte) : (s.memWrite o bs).draws = s.draws := rfl

@[simp] theorem State.beginReset_params : (s.beginReset).params = s.params := rfl
@[simp] theorem State.beginReset_portOpen : (s.beginReset).portOpen = s.portOpen := rfl
@[simp] theorem State.beginReset_rate : (s.beginReset).rate = s.rate := rfl
@[simp] theorem State.beginReset_rx : (s.beginReset).rx = s.rx := rfl
@[simp] theorem State.beginReset_seq : (s.beginReset).seq = s.seq := rfl
@[simp] theorem State.beginReset_ld : (s.beginReset).ld = s.ld := rfl
@[simp] theorem State.beginReset_ldf : (s.beginReset).ldf = s.ldf := rfl
@[simp] theorem State.beginReset_ref : (s.beginReset).ref = s.ref := rfl
@[simp] theorem State.beginReset_pseen : (s.beginReset).pseen = s.pseen := rfl
@[simp] theorem State.beginReset_cnt : (s.beginReset).cnt = s.cnt := rfl
@[simp] theorem State.beginReset_abort : (s.beginReset).abort = s.abort := rfl
@[simp] theorem State.beginReset_done : (s.beginReset).done = s.done := rfl
@[simp] theorem State.beginReset_present : (s.beginReset).present = false := rfl
@[simp] theorem State.beginReset_ovr : (s.beginReset).ovr = s.ovr := rfl
@[simp] theorem State.beginReset_err : (s.beginReset).err = s.err := rfl
@[simp] theorem State.beginReset_arg0 : (s.beginReset).arg0 = s.arg0 := rfl
@[simp] theorem State.beginReset_arg1 : (s.beginReset).arg1 = s.arg1 := rfl
@[simp] theorem State.beginReset_result : (s.beginReset).result = s.result := rfl
@[simp] theorem State.beginReset_rom0 : (s.beginReset).rom0 = s.rom0 := rfl
@[simp] theorem State.beginReset_rom1 : (s.beginReset).rom1 = s.rom1 := rfl
@[simp] theorem State.beginReset_mem : (s.beginReset).mem = s.mem := rfl
@[simp] theorem State.beginReset_hist : (s.beginReset).hist = s.hist := rfl
@[simp] theorem State.beginReset_touchResp : (s.beginReset).touchResp = s.touchResp := rfl
@[simp] theorem State.beginReset_hostData : (s.beginReset).hostData = s.hostData := rfl
@[simp] theorem State.beginReset_answer : (s.beginReset).answer = s.answer := rfl
@[simp] theorem State.beginReset_agenda : (s.beginReset).agenda = s.agenda := rfl
@[simp] theorem State.beginReset_draws : (s.beginReset).draws = s.draws := rfl

@[simp] theorem State.endReset_params (got : List Byte) : (s.endReset got).params = s.params := rfl
@[simp] theorem State.endReset_portOpen (got : List Byte) : (s.endReset got).portOpen = s.portOpen := rfl
@[simp] theorem State.endReset_rate (got : List Byte) : (s.endReset got).rate = s.rate := rfl
@[simp] theorem State.endReset_rx (got : List Byte) : (s.endReset got).rx = s.rx := rfl
@[simp] theorem State.endReset_seq (got : List Byte) : (s.endReset got).seq = s.seq := rfl
@[simp] theorem State.endReset_ld (got : List Byte) : (s.endReset got).ld = s.ld := rfl
@[simp] theorem State.endReset_ldf (got : List Byte) : (s.endReset got).ldf = s.ldf := rfl
@[simp] theorem State.endReset_ref (got : List Byte) : (s.endReset got).ref = s.ref := rfl
@[simp] theorem State.endReset_pseen (got : List Byte) : (s.endReset got).pseen = s.pseen := rfl
@[simp] theorem State.endReset_cnt (got : List Byte) : (s.endReset got).cnt = s.cnt := rfl
@[simp] theorem State.endReset_abort (got : List Byte) : (s.endReset got).abort = s.abort := rfl
@[simp] theorem State.endReset_done (got : List Byte) : (s.endReset got).done = s.done := rfl
@[simp] theorem State.endReset_present (got : List Byte) : (s.endReset got).present = presenceOf (resetEcho got) := rfl
@[simp] theorem State.endReset_ovr (got : List Byte) : (s.endReset got).ovr = s.ovr := rfl
@[simp] theorem State.endReset_err (got : List Byte) : (s.endReset got).err = s.err := rfl
@[simp] theorem State.endReset_arg0 (got : List Byte) : (s.endReset got).arg0 = s.arg0 := rfl
@[simp] theorem State.endReset_arg1 (got : List Byte) : (s.endReset got).arg1 = s.arg1 := rfl
@[simp] theorem State.endReset_result (got : List Byte) : (s.endReset got).result = s.result := rfl
@[simp] theorem State.endReset_rom0 (got : List Byte) : (s.endReset got).rom0 = s.rom0 := rfl
@[simp] theorem State.endReset_rom1 (got : List Byte) : (s.endReset got).rom1 = s.rom1 := rfl
@[simp] theorem State.endReset_mem (got : List Byte) : (s.endReset got).mem = s.mem := rfl
@[simp] theorem State.endReset_hist (got : List Byte) : (s.endReset got).hist = s.hist := rfl
@[simp] theorem State.endReset_touchResp (got : List Byte) : (s.endReset got).touchResp = s.touchResp := rfl
@[simp] theorem State.endReset_hostData (got : List Byte) : (s.endReset got).hostData = s.hostData := rfl
@[simp] theorem State.endReset_answer (got : List Byte) : (s.endReset got).answer = s.answer := rfl
@[simp] theorem State.endReset_agenda (got : List Byte) : (s.endReset got).agenda = s.agenda := rfl
@[simp] theorem State.endReset_draws (got : List Byte) : (s.endReset got).draws = s.draws := rfl

@[simp] theorem State.initSearch_params : (s.initSearch).params = s.params := rfl
@[simp] theorem State.initSearch_portOpen : (s.initSearch).portOpen = s.portOpen := rfl
@[simp] theorem State.initSearch_rate : (s.initSearch).rate = s.rate := rfl
@[simp] theorem State.initSearch_rx : (s.initSearch).rx = s.rx := rfl
@[simp] theorem State.initSearch_seq : (s.initSearch).seq = s.seq := rfl
@[simp] theorem State.initSearch_ld : (s.initSearch).ld = 0 := rfl
@[simp] theorem State.initSearch_ldf : (s.initSearch).ldf = false := rfl
@[simp] theorem State.initSearch_ref : (s.initSearch).ref = 0 := rfl
@[simp] theorem State.initSearch_pseen : (s.initSearch).pseen = false := rfl
@[simp] theorem State.initSearch_cnt : (s.initSearch).cnt = 0 := rfl
@[simp] theorem State.initSearch_abort : (s.initSearch).abort = .ok := rfl
@[simp] theorem State.initSearch_done : (s.initSearch).done = s.done := rfl
@[simp] theorem State.initSearch_present : (s.initSearch).present = s.present := rfl
@[simp] theorem State.initSearch_ovr : (s.initSearch).ovr = s.ovr := rfl
@[simp] theorem State.initSearch_err : (s.initSearch).err = s.err := rfl
@[simp] theorem State.initSearch_arg0 : (s.initSearch).arg0 = s.arg0 := rfl
@[simp] theorem State.initSearch_arg1 : (s.initSearch).arg1 = s.arg1 := rfl
@[simp] theorem State.initSearch_result : (s.initSearch).result = s.result := rfl
@[simp] theorem State.initSearch_rom0 : (s.initSearch).rom0 = s.rom0 := rfl
@[simp] theorem State.initSearch_rom1 : (s.initSearch).rom1 = s.rom1 := rfl
@[simp] theorem State.initSearch_mem : (s.initSearch).mem = Memory.clearRomtab s.mem := rfl
@[simp] theorem State.initSearch_hist : (s.initSearch).hist = s.hist := rfl
@[simp] theorem State.initSearch_touchResp : (s.initSearch).touchResp = s.touchResp := rfl
@[simp] theorem State.initSearch_hostData : (s.initSearch).hostData = s.hostData := rfl
@[simp] theorem State.initSearch_answer : (s.initSearch).answer = s.answer := rfl
@[simp] theorem State.initSearch_agenda : (s.initSearch).agenda = s.agenda := rfl
@[simp] theorem State.initSearch_draws : (s.initSearch).draws = s.draws := rfl

@[simp] theorem State.appendRom_params (c : Rom) : (s.appendRom c).params = s.params := rfl
@[simp] theorem State.appendRom_portOpen (c : Rom) : (s.appendRom c).portOpen = s.portOpen := rfl
@[simp] theorem State.appendRom_rate (c : Rom) : (s.appendRom c).rate = s.rate := rfl
@[simp] theorem State.appendRom_rx (c : Rom) : (s.appendRom c).rx = s.rx := rfl
@[simp] theorem State.appendRom_seq (c : Rom) : (s.appendRom c).seq = s.seq := rfl
@[simp] theorem State.appendRom_ld (c : Rom) : (s.appendRom c).ld = s.ld := rfl
@[simp] theorem State.appendRom_ldf (c : Rom) : (s.appendRom c).ldf = s.ldf := rfl
@[simp] theorem State.appendRom_ref (c : Rom) : (s.appendRom c).ref = s.ref := rfl
@[simp] theorem State.appendRom_pseen (c : Rom) : (s.appendRom c).pseen = s.pseen := rfl
@[simp] theorem State.appendRom_cnt (c : Rom) : (s.appendRom c).cnt = s.cnt + 1 := rfl
@[simp] theorem State.appendRom_abort (c : Rom) : (s.appendRom c).abort = s.abort := rfl
@[simp] theorem State.appendRom_done (c : Rom) : (s.appendRom c).done = s.done := rfl
@[simp] theorem State.appendRom_present (c : Rom) : (s.appendRom c).present = s.present := rfl
@[simp] theorem State.appendRom_ovr (c : Rom) : (s.appendRom c).ovr = s.ovr := rfl
@[simp] theorem State.appendRom_err (c : Rom) : (s.appendRom c).err = s.err := rfl
@[simp] theorem State.appendRom_arg0 (c : Rom) : (s.appendRom c).arg0 = s.arg0 := rfl
@[simp] theorem State.appendRom_arg1 (c : Rom) : (s.appendRom c).arg1 = s.arg1 := rfl
@[simp] theorem State.appendRom_result (c : Rom) : (s.appendRom c).result = s.result := rfl
@[simp] theorem State.appendRom_rom0 (c : Rom) : (s.appendRom c).rom0 = s.rom0 := rfl
@[simp] theorem State.appendRom_rom1 (c : Rom) : (s.appendRom c).rom1 = s.rom1 := rfl
@[simp] theorem State.appendRom_mem (c : Rom) : (s.appendRom c).mem = Memory.writeBytes s.mem (romtabAddr s.cnt) (romBytes c) := rfl
@[simp] theorem State.appendRom_hist (c : Rom) : (s.appendRom c).hist = s.hist := rfl
@[simp] theorem State.appendRom_touchResp (c : Rom) : (s.appendRom c).touchResp = s.touchResp := rfl
@[simp] theorem State.appendRom_hostData (c : Rom) : (s.appendRom c).hostData = s.hostData := rfl
@[simp] theorem State.appendRom_answer (c : Rom) : (s.appendRom c).answer = s.answer := rfl
@[simp] theorem State.appendRom_agenda (c : Rom) : (s.appendRom c).agenda = s.agenda := rfl
@[simp] theorem State.appendRom_draws (c : Rom) : (s.appendRom c).draws = s.draws := rfl

@[simp] theorem State.finishSearch_params : (s.finishSearch).params = s.params := rfl
@[simp] theorem State.finishSearch_portOpen : (s.finishSearch).portOpen = s.portOpen := rfl
@[simp] theorem State.finishSearch_rate : (s.finishSearch).rate = s.rate := rfl
@[simp] theorem State.finishSearch_rx : (s.finishSearch).rx = s.rx := rfl
@[simp] theorem State.finishSearch_seq : (s.finishSearch).seq = .idle := rfl
@[simp] theorem State.finishSearch_ld : (s.finishSearch).ld = s.ld := rfl
@[simp] theorem State.finishSearch_ldf : (s.finishSearch).ldf = s.ldf := rfl
@[simp] theorem State.finishSearch_ref : (s.finishSearch).ref = s.ref := rfl
@[simp] theorem State.finishSearch_pseen : (s.finishSearch).pseen = s.pseen := rfl
@[simp] theorem State.finishSearch_cnt : (s.finishSearch).cnt = s.cnt := rfl
@[simp] theorem State.finishSearch_abort : (s.finishSearch).abort = .ok := rfl
@[simp] theorem State.finishSearch_done : (s.finishSearch).done = true := rfl
@[simp] theorem State.finishSearch_present : (s.finishSearch).present = s.present := rfl
@[simp] theorem State.finishSearch_ovr : (s.finishSearch).ovr = s.ovr := rfl
@[simp] theorem State.finishSearch_err : (s.finishSearch).err = .ok := rfl
@[simp] theorem State.finishSearch_arg0 : (s.finishSearch).arg0 = s.arg0 := rfl
@[simp] theorem State.finishSearch_arg1 : (s.finishSearch).arg1 = s.arg1 := rfl
@[simp] theorem State.finishSearch_result : (s.finishSearch).result = BitVec.ofNat 32 s.cnt := rfl
@[simp] theorem State.finishSearch_rom0 : (s.finishSearch).rom0 = s.rom0 := rfl
@[simp] theorem State.finishSearch_rom1 : (s.finishSearch).rom1 = s.rom1 := rfl
@[simp] theorem State.finishSearch_mem : (s.finishSearch).mem = s.mem := rfl
@[simp] theorem State.finishSearch_hist : (s.finishSearch).hist = s.hist := rfl
@[simp] theorem State.finishSearch_touchResp : (s.finishSearch).touchResp = s.touchResp := rfl
@[simp] theorem State.finishSearch_hostData : (s.finishSearch).hostData = s.hostData := rfl
@[simp] theorem State.finishSearch_answer : (s.finishSearch).answer = s.answer := rfl
@[simp] theorem State.finishSearch_agenda : (s.finishSearch).agenda = s.agenda := rfl
@[simp] theorem State.finishSearch_draws : (s.finishSearch).draws = s.draws := rfl

@[simp] theorem State.abortSearch_params (c : ErrCode) : (s.abortSearch c).params = s.params := rfl
@[simp] theorem State.abortSearch_portOpen (c : ErrCode) : (s.abortSearch c).portOpen = s.portOpen := rfl
@[simp] theorem State.abortSearch_rate (c : ErrCode) : (s.abortSearch c).rate = s.rate := rfl
@[simp] theorem State.abortSearch_rx (c : ErrCode) : (s.abortSearch c).rx = s.rx := rfl
@[simp] theorem State.abortSearch_seq (c : ErrCode) : (s.abortSearch c).seq = .idle := rfl
@[simp] theorem State.abortSearch_ld (c : ErrCode) : (s.abortSearch c).ld = s.ld := rfl
@[simp] theorem State.abortSearch_ldf (c : ErrCode) : (s.abortSearch c).ldf = s.ldf := rfl
@[simp] theorem State.abortSearch_ref (c : ErrCode) : (s.abortSearch c).ref = s.ref := rfl
@[simp] theorem State.abortSearch_pseen (c : ErrCode) : (s.abortSearch c).pseen = s.pseen := rfl
@[simp] theorem State.abortSearch_cnt (c : ErrCode) : (s.abortSearch c).cnt = s.cnt := rfl
@[simp] theorem State.abortSearch_abort (c : ErrCode) : (s.abortSearch c).abort = c := rfl
@[simp] theorem State.abortSearch_done (c : ErrCode) : (s.abortSearch c).done = true := rfl
@[simp] theorem State.abortSearch_present (c : ErrCode) : (s.abortSearch c).present = s.present := rfl
@[simp] theorem State.abortSearch_ovr (c : ErrCode) : (s.abortSearch c).ovr = s.ovr := rfl
@[simp] theorem State.abortSearch_err (c : ErrCode) : (s.abortSearch c).err = (if c = ErrCode.resultOverflow then c else if s.pseen then ErrCode.ok else c) := rfl
@[simp] theorem State.abortSearch_arg0 (c : ErrCode) : (s.abortSearch c).arg0 = s.arg0 := rfl
@[simp] theorem State.abortSearch_arg1 (c : ErrCode) : (s.abortSearch c).arg1 = s.arg1 := rfl
@[simp] theorem State.abortSearch_result (c : ErrCode) : (s.abortSearch c).result = BitVec.ofNat 32 s.cnt := rfl
@[simp] theorem State.abortSearch_rom0 (c : ErrCode) : (s.abortSearch c).rom0 = s.rom0 := rfl
@[simp] theorem State.abortSearch_rom1 (c : ErrCode) : (s.abortSearch c).rom1 = s.rom1 := rfl
@[simp] theorem State.abortSearch_mem (c : ErrCode) : (s.abortSearch c).mem = s.mem := rfl
@[simp] theorem State.abortSearch_hist (c : ErrCode) : (s.abortSearch c).hist = s.hist := rfl
@[simp] theorem State.abortSearch_touchResp (c : ErrCode) : (s.abortSearch c).touchResp = s.touchResp := rfl
@[simp] theorem State.abortSearch_hostData (c : ErrCode) : (s.abortSearch c).hostData = s.hostData := rfl
@[simp] theorem State.abortSearch_answer (c : ErrCode) : (s.abortSearch c).answer = s.answer := rfl
@[simp] theorem State.abortSearch_agenda (c : ErrCode) : (s.abortSearch c).agenda = s.agenda := rfl
@[simp] theorem State.abortSearch_draws (c : ErrCode) : (s.abortSearch c).draws = s.draws := rfl

@[simp] theorem State.busy_setSeq_run (i : Instr) (p : Pos) : (s.setSeq (.run i p)).busy = true := rfl
@[simp] theorem State.pos_setSeq_run (i : Instr) (p : Pos) : (s.setSeq (.run i p)).pos = p := rfl
@[simp] theorem State.busy_complete (e : ErrCode) : (s.complete e).busy = false := rfl
@[simp] theorem State.pos_beginReset : s.beginReset.pos = s.pos := rfl
@[simp] theorem State.pos_initSearch : s.initSearch.pos = s.pos := rfl

theorem State.busy_of_run {i : Instr} {p : Pos} (h : s.seq = .run i p) : s.busy = true := by
  simp [State.busy, h]

theorem State.pos_of_run {i : Instr} {p : Pos} (h : s.seq = .run i p) : s.pos = p := by
  simp [State.pos, h]

/-- BUSY is 0 exactly when the sequencer is idle. -/
theorem State.busy_false_iff : s.busy = false ↔ s.seq = .idle := by
  unfold State.busy; split <;> simp_all

end Sys2Proof.Machine
end

