-- ==== Sys2Proof/Laws/Crc.lean ====
section
/-! SUPPORT. The CRC-8 Validator: the table agrees with the bit-serial form (41_crc8.md R78), an entry
determines its index, and what appending a byte does. -/

namespace Sys2Proof.Machine

open Sys2Proof

/-- The literal table is the bit-serial form, byte for byte. -/
theorem crcEntry_check : ∀ x : Byte, crcEntry x = crcIterate 8 x := by decide +kernel

/-- An index for each entry: the iteration of R78 run backwards. -/
def crcUnshift (c : Byte) : Byte :=
  if c.getLsbD 7 then ((c ^^^ 0x8C) <<< 1) ||| 1 else c <<< 1

def crcIndex (y : Byte) : Byte :=
  crcUnshift (crcUnshift (crcUnshift (crcUnshift (crcUnshift (crcUnshift (crcUnshift (crcUnshift y)))))))

theorem crcIndex_crcEntry : ∀ x : Byte, crcIndex (crcEntry x) = x := by decide +kernel

/-- A table entry determines its index. -/
theorem crcEntry_injective : Function.Injective crcEntry :=
  Function.LeftInverse.injective crcIndex_crcEntry

@[simp] theorem crcEntry_zero : crcEntry 0#8 = 0#8 := by decide +kernel

@[simp] theorem crcStep_self (b : Byte) : crcStep b b = 0 := by simp [crcStep]

theorem crcStep_left_injective (b : Byte) : Function.Injective (fun acc => crcStep acc b) := by
  intro x y h
  have := crcEntry_injective h
  simpa using this

theorem crcStep_right_injective (acc : Byte) : Function.Injective (crcStep acc) := by
  intro x y h
  have := crcEntry_injective h
  simpa using this

theorem foldl_crcStep_injective (bs : List Byte) :
    Function.Injective (fun acc => bs.foldl crcStep acc) := by
  induction bs with
  | nil => exact fun _ _ h => h
  | cons b bs ih => exact fun x y h => crcStep_left_injective b (ih h)

theorem crc8_nil : crc8 [] = 0 := rfl

theorem crc8_append (xs ys : List Byte) : crc8 (xs ++ ys) = ys.foldl crcStep (crc8 xs) := by
  simp [crc8]

theorem crcValid_iff (bs : List Byte) : crcValid bs = true ↔ crc8 bs = 0 := by simp [crcValid]

end Sys2Proof.Machine
end

