-- ==== Sys2Proof/Laws/Memory.lean ====
section
/-! SUPPORT. Memory: read after write, the frame of a write, and that every operation keeps the canonical
form. -/

namespace Sys2Proof.Machine.Memory

open Sys2Proof

theorem read_cell_append (a : Nat) (v : Byte) (m : List Host.Cell) (c : Nat) (h : c ≠ a) :
    read (cell a v ++ m) c = read m c := by
  unfold cell; split <;> simp [read, h]

/-- A write leaves every other address alone. -/
theorem read_write_of_ne (m : List Host.Cell) (a c : Nat) (v : Byte) (h : c ≠ a) :
    read (write m a v) c = read m c := by
  induction m with
  | nil =>
    have := read_cell_append a v [] c h
    simpa [write] using this
  | cons e m ih =>
    obtain ⟨b, w⟩ := e
    simp only [write]
    split
    · exact read_cell_append a v _ c h
    · split
      · next hab =>
        subst hab
        rw [read_cell_append a v m c h]; simp [read, h]
      · by_cases hcb : c = b <;> simp [read, hcb, ih]

/-- An address below or absent from the list reads as unlisted. -/
theorem read_eq_unlisted (m : List Host.Cell) (a : Nat) (h : ∀ c ∈ m, c.1 ≠ a) :
    read m a = unlisted a := by
  induction m with
  | nil => rfl
  | cons e m ih =>
    obtain ⟨b, w⟩ := e
    have hb : b ≠ a := h (b, w) (by simp)
    simp only [read, if_neg (Ne.symm hb)]
    exact ih fun c hc => h c (by simp [hc])

theorem wf_cons (a : Nat) (v : Byte) (m : List Host.Cell) :
    wf ((a, v) :: m) = true ↔
      unlisted a ≠ some v ∧ (∀ c ∈ m, a < c.1) ∧ wf m = true := by
  simp [wf, and_assoc]

theorem read_cell_self (a : Nat) (v : Byte) (m : List Host.Cell) (h : ∀ c ∈ m, c.1 ≠ a) :
    read (cell a v ++ m) a = some v := by
  unfold cell
  split
  · next hu => simpa [hu] using read_eq_unlisted m a h
  · simp [read]

/-- A read after a write to the same address gives the value written. -/
theorem read_write_self (m : List Host.Cell) (a : Nat) (v : Byte) (h : wf m = true) :
    read (write m a v) a = some v := by
  induction m with
  | nil => simpa [write] using read_cell_self a v [] (by simp)
  | cons e m ih =>
    obtain ⟨b, w⟩ := e
    obtain ⟨-, hb, hm⟩ := (wf_cons b w m).1 h
    simp only [write]
    split
    · next hab =>
      refine read_cell_self a v _ fun c hc => ?_
      rcases List.mem_cons.1 hc with rfl | hc
      · exact Nat.ne_of_gt hab
      · exact Nat.ne_of_gt (lt_trans hab (hb c hc))
    · split
      · next hab =>
        subst hab
        exact read_cell_self a v m fun c hc => Nat.ne_of_gt (hb c hc)
      · next hab hne => simpa [read, hne] using ih hm

theorem mem_cell {a : Nat} {v : Byte} {c : Host.Cell} (h : c ∈ cell a v) : c = (a, v) := by
  unfold cell at h; split at h <;> simp_all

/-- A write lists no address but the one written and those listed before. -/
theorem mem_write {m : List Host.Cell} {a : Nat} {v : Byte} {c : Host.Cell} (h : c ∈ write m a v) :
    c = (a, v) ∨ c ∈ m := by
  induction m with
  | nil => exact .inl (mem_cell (by simpa [write] using h))
  | cons e m ih =>
    obtain ⟨b, w⟩ := e
    simp only [write] at h
    split at h
    · rcases List.mem_append.1 h with h | h
      · exact .inl (mem_cell h)
      · exact .inr h
    · split at h
      · rcases List.mem_append.1 h with h | h
        · exact .inl (mem_cell h)
        · exact .inr (by simp [h])
      · rcases List.mem_cons.1 h with rfl | h
        · exact .inr (by simp)
        · rcases ih h with h | h
          · exact .inl h
          · exact .inr (by simp [h])

theorem wf_cell_append (a : Nat) (v : Byte) (m : List Host.Cell) (h : wf m = true)
    (hlt : ∀ c ∈ m, a < c.1) : wf (cell a v ++ m) = true := by
  unfold cell
  split
  · simpa using h
  · next hu => exact (wf_cons a v m).2 ⟨hu, hlt, h⟩

/-- A write keeps the canonical form. -/
theorem wf_write (m : List Host.Cell) (a : Nat) (v : Byte) (h : wf m = true) :
    wf (write m a v) = true := by
  induction m with
  | nil => simpa [write] using wf_cell_append a v [] rfl (by simp)
  | cons e m ih =>
    obtain ⟨b, w⟩ := e
    obtain ⟨hu, hb, hm⟩ := (wf_cons b w m).1 h
    simp only [write]
    split
    · next hab =>
      refine wf_cell_append a v _ h fun c hc => ?_
      rcases List.mem_cons.1 hc with rfl | hc
      · exact hab
      · exact lt_trans hab (hb c hc)
    · split
      · next hab => subst hab; exact wf_cell_append a v m hm hb
      · next hlt hne =>
        refine (wf_cons b w _).2 ⟨hu, fun c hc => ?_, ih hm⟩
        rcases mem_write hc with rfl | hc
        · simp only; omega
        · exact hb c hc

theorem wf_writeBytes (m : List Host.Cell) (a : Nat) (bs : List Byte) (h : wf m = true) :
    wf (writeBytes m a bs) = true := by
  induction bs generalizing m a with
  | nil => exact h
  | cons b bs ih => exact ih _ _ (wf_write m a b h)

/-- Writing bytes leaves every address outside them alone. -/
theorem read_writeBytes_of_outside (m : List Host.Cell) (a c : Nat) (bs : List Byte)
    (h : c < a ∨ a + bs.length ≤ c) : read (writeBytes m a bs) c = read m c := by
  induction bs generalizing m a with
  | nil => rfl
  | cons b bs ih =>
    simp only [List.length_cons] at h
    rw [writeBytes, ih _ _ (by omega), read_write_of_ne _ _ _ _ (by omega)]

/-- Byte k written is byte k read. -/
theorem read_writeBytes_at (m : List Host.Cell) (a k : Nat) (bs : List Byte) (h : wf m = true)
    (hk : k < bs.length) : read (writeBytes m a bs) (a + k) = some bs[k] := by
  induction bs generalizing m a k with
  | nil => simp at hk
  | cons b bs ih =>
    cases k with
    | zero =>
      rw [writeBytes, read_writeBytes_of_outside _ _ _ _ (by omega)]
      simpa using read_write_self m a b h
    | succ k =>
      have := ih (write m a b) (a + 1) k (wf_write m a b h) (by simpa using hk)
      simpa [writeBytes, Nat.add_assoc, Nat.add_comm 1 k] using this

theorem mem_writeBytes {m : List Host.Cell} {a : Nat} {bs : List Byte} {c : Host.Cell}
    (h : c ∈ writeBytes m a bs) : (a ≤ c.1 ∧ c.1 < a + bs.length) ∨ c ∈ m := by
  induction bs generalizing m a with
  | nil => exact .inr h
  | cons b bs ih =>
    rcases ih h with h | h
    · left; simp only [List.length_cons]; omega
    · rcases mem_write h with rfl | h
      · left; simp
      · exact .inr h

theorem readBytes_length {m : List Host.Cell} {a n : Nat} {bs : List Byte}
    (h : readBytes m a n = some bs) : bs.length = n := by
  induction n generalizing a bs with
  | zero => simp [readBytes] at h; simp [h]
  | succ n ih =>
    simp only [readBytes] at h
    split at h
    · next hb => cases h; simp [ih hb]
    · simp at h

/-- Reading the bytes just written gives them back. -/
theorem readBytes_writeBytes (m : List Host.Cell) (a : Nat) (bs : List Byte) (h : wf m = true) :
    readBytes (writeBytes m a bs) a bs.length = some bs := by
  induction bs generalizing m a with
  | nil => rfl
  | cons b bs ih =>
    have h0 : read (writeBytes m a (b :: bs)) a = some b :=
      read_writeBytes_at m a 0 (b :: bs) h (by simp)
    have h1 := ih (write m a b) (a + 1) (wf_write m a b h)
    simp only [List.length_cons, readBytes, h0]
    simp only [writeBytes, h1]

theorem mem_clearRomtab {m : List Host.Cell} {c : Host.Cell} :
    c ∈ clearRomtab m ↔ c ∈ m ∧ c.1 < Config.romtabBase := by
  simp [clearRomtab]

theorem wf_clearRomtab (m : List Host.Cell) (h : wf m = true) : wf (clearRomtab m) = true := by
  induction m with
  | nil => rfl
  | cons e m ih =>
    obtain ⟨a, v⟩ := e
    obtain ⟨hu, hlt, hm⟩ := (wf_cons a v m).1 h
    by_cases hc : a < Config.romtabBase
    · have : clearRomtab ((a, v) :: m) = (a, v) :: clearRomtab m := by simp [clearRomtab, hc]
      rw [this]
      exact (wf_cons a v _).2 ⟨hu, fun c h' => hlt c (mem_clearRomtab.1 h').1, ih hm⟩
    · have : clearRomtab ((a, v) :: m) = clearRomtab m := by simp [clearRomtab, hc]
      rw [this]; exact ih hm

/-- Below ROMTAB nothing changes. -/
theorem read_clearRomtab_below (m : List Host.Cell) (a : Nat) (h : a < Config.romtabBase) :
    read (clearRomtab m) a = read m a := by
  induction m with
  | nil => rfl
  | cons e m ih =>
    obtain ⟨b, w⟩ := e
    by_cases hb : b < Config.romtabBase
    · simp only [clearRomtab, List.filter_cons, hb, decide_true, if_true] at ih ⊢
      by_cases hab : a = b <;> simp [read, hab, ih]
    · have hab : a ≠ b := by omega
      simp only [clearRomtab, List.filter_cons, hb, decide_false] at ih ⊢
      simpa [read, hab] using ih

/-- Every ROMTAB byte reads 0. -/
theorem read_clearRomtab_above (m : List Host.Cell) (a : Nat) (h : Config.romtabBase ≤ a) :
    read (clearRomtab m) a = some 0 := by
  rw [read_eq_unlisted _ _ fun c hc => by have := (mem_clearRomtab.1 hc).2; omega]
  simp [unlisted, Nat.not_lt.2 h]

end Sys2Proof.Machine.Memory
end

