-- ==== Sys2Proof/Laws/Touch.lean ====
section
/-! SUPPORT. OwTouch as primitive steps: one chunk and the rest; what is transmitted, what is read, how
many steps it takes (42_bus_engine.md R85, 70_reset_and_hazards.md R133). -/

namespace Sys2Proof.Machine

open Sys2Proof Sys2Proof.Safety

theorem sym_true : sym true = 0xFF := by decide
theorem sym_false : sym false = 0x00 := by decide
theorem resetByte_eq : resetByte = 0xF0 := by decide

theorem touchFrom_fuel (f g : Nat) (bits : List Bool) (hf : bits.length ≤ f)
    (hg : bits.length ≤ g) : touchFrom f bits = touchFrom g bits := by
  induction f generalizing g bits with
  | zero =>
    have : bits = [] := by simpa using hf
    subst this; cases g <;> rfl
  | succ f ih =>
    cases bits with
    | nil => cases g <;> rfl
    | cons b bits =>
      cases g with
      | zero => simp at hg
      | succ g =>
        simp only [touchFrom]
        have hd : ((b :: bits).drop Config.chunk).length ≤ bits.length := by
          simp [Config.chunk]
        rw [ih g _ (by simp at hf; omega) (by simp at hg; omega)]

@[simp] theorem touchPrims_nil : touchPrims [] = [] := rfl

/-- One chunk, then the rest. -/
theorem touchPrims_chunk (bits : List Bool) (h : bits ≠ []) :
    touchPrims bits =
      .uartTx ((bits.take Config.chunk).map sym) :: .delay .chunkSettle ::
        .uartRx (bits.take Config.chunk).length :: touchPrims (bits.drop Config.chunk) := by
  cases bits with
  | nil => exact absurd rfl h
  | cons b bits =>
    simp only [touchPrims, List.length_cons, touchFrom]
    rw [touchFrom_fuel bits.length ((b :: bits).drop Config.chunk).length _ _ le_rfl]
    simp [Config.chunk]

/-- Induction over the chunks of a bit list. -/
theorem chunk_induction {P : List Bool → Prop} (nil : P [])
    (chunk : ∀ bits, bits ≠ [] → P (bits.drop Config.chunk) → P bits) (bits : List Bool) : P bits := by
  induction hn : bits.length using Nat.strong_induction_on generalizing bits with
  | _ n ih =>
    by_cases h : bits = []
    · exact h ▸ nil
    · refine chunk bits h (ih _ ?_ _ rfl)
      have : 0 < bits.length := List.length_pos_of_ne_nil h
      simp [Config.chunk]; omega

theorem rxTotal_touchPrims (bits : List Bool) :
    rxTotal (touchPrims bits) = bits.length := by
  induction bits using chunk_induction with
  | nil => rfl
  | chunk bits h ih => rw [touchPrims_chunk bits h]; simp [rxTotal, ih]; omega

@[simp] theorem byteOfBits_bitsOfByte (b : Byte) : byteOfBits (bitsOfByte b) = b := by
  revert b; decide +kernel

theorem writeBytePrims_eq (b : Byte) :
    writeBytePrims b =
      [.uartTx ((bitsOfByte b).map sym), .delay .chunkSettle, .uartRx 8] := by
  rw [writeBytePrims, touchPrims_chunk _ (by simp [bitsOfByte])]
  simp [bitsOfByte, Config.chunk]

theorem readBytePrims_eq :
    readBytePrims = [.uartTx (List.replicate 8 0xFF), .delay .chunkSettle, .uartRx 8] := by
  decide

theorem touchPrims_one (b : Bool) :
    touchPrims [b] = [.uartTx [sym b], .delay .chunkSettle, .uartRx 1] := rfl

theorem touchPrims_two (a b : Bool) :
    touchPrims [a, b] = [.uartTx [sym a, sym b], .delay .chunkSettle, .uartRx 2] := rfl

end Sys2Proof.Machine
end

