-- ==== Sys2Proof/Laws/Prim.lean ====
section
/-! SUPPORT. What a primitive step can do, said once (20_memory.md R46 to R50), and what a step of an
operation can do, from that. Provers cite these inversions instead of unfolding. -/

namespace Sys2Proof.Machine

open Sys2Proof Sys2Proof.Safety

/-- All that a primitive step can change: the transport link and the wire history. -/
def State.withLink (s : State) (o : Bool) (r : Rate) (x : List Byte) (es : List Event) : State :=
  { s with portOpen := o, rate := r, rx := x, hist := s.hist ++ es }

/-- How many bytes a primitive step returns. -/
def rxCount : Prim → Nat
  | .uartRx n => n
  | .uartOpen _ | .uartClose | .uartFlush | .uartSetRate _ | .uartTx _ | .delay _ => 0

theorem rxTotal_cons (p : Prim) (rest : List Prim) :
    rxTotal (p :: rest) = rxCount p + rxTotal rest := by
  cases p <;> simp [rxTotal, rxCount]

/-- A primitive step that succeeds changes only the link and the history, returns as many bytes as it
asked for, and leaves a closed port with an empty FIFO. -/
theorem runPrim_ok {p : Prim} {s s' : State} {bs : List Byte} (h : runPrim p s = .ok s' bs) :
    ∃ o r x es, s' = s.withLink o r x es ∧ bs.length = rxCount p ∧
      ((s.portOpen = false → s.rx = []) → o = false → x = []) := by
  cases p <;>
    simp only [runPrim, uartOpen, uartClose, uartFlush, uartSetRate, uartTx, uartRx, uartDelay] at h <;>
    repeat' split at h
  all_goals (try cases h)
  all_goals first
    | exact ⟨_, _, _, _, rfl, by simp [rxCount, *], by simp_all⟩
    | exact ⟨s.portOpen, s.rate, s.rx, [], by simp [State.withLink], by simp [rxCount, *], by simp_all⟩

/-- A primitive step that raises changes only the link and the history. -/
theorem runPrim_raised {p : Prim} {s s' : State} (h : runPrim p s = .raised s') :
    ∃ o r x es, s' = s.withLink o r x es ∧
      ((s.portOpen = false → s.rx = []) → o = false → x = []) := by
  cases p <;>
    simp only [runPrim, uartOpen, uartClose, uartFlush, uartSetRate, uartTx, uartRx, uartDelay] at h <;>
    repeat' split at h
  all_goals (try cases h)
  all_goals first
    | exact ⟨_, _, _, _, rfl, by simp_all⟩
    | exact ⟨s.portOpen, s.rate, s.rx, [], by simp [State.withLink], by simp_all⟩

/-- What a step of an operation at a primitive step can do. -/
theorem stepPrim_cases (i : Instr) (ph : Phase) (p : Prim) (rest : List Prim) (got : List Byte)
    (s : State) :
    (∃ o r x es bs, stepPrim i ph p rest got s =
        .next ((s.withLink o r x es).setSeq (.run i (.going ph rest (got ++ bs)))) ∧
        bs.length = rxCount p ∧ ((s.portOpen = false → s.rx = []) → o = false → x = [])) ∨
    (∃ o r x es, stepPrim i ph p rest got s =
        .next ((s.withLink o r x es).setSeq (.run i (.raised .transport))) ∧
        ((s.portOpen = false → s.rx = []) → o = false → x = [])) := by
  unfold stepPrim
  split
  · next s' bs h =>
    obtain ⟨o, r, x, es, rfl, hl, hx⟩ := runPrim_ok h
    exact .inl ⟨o, r, x, es, bs, rfl, hl, hx⟩
  · next s' h =>
    obtain ⟨o, r, x, es, rfl, hx⟩ := runPrim_raised h
    exact .inr ⟨o, r, x, es, rfl, hx⟩

/-- The frame of a primitive step: the link, the history and the sequencer. -/
theorem stepPrim_frame {i : Instr} {ph : Phase} {p : Prim} {rest : List Prim} {got : List Byte}
    {s t : State} (h : stepPrim i ph p rest got s = .next t) :
    t = { s with
      portOpen := t.portOpen, rate := t.rate, rx := t.rx, hist := t.hist, seq := t.seq } := by
  rcases stepPrim_cases i ph p rest got s with
    ⟨o, r, x, es, bs, h', -⟩ | ⟨o, r, x, es, h', -⟩ <;> (rw [h'] at h; cases h; rfl)

/-- Where a primitive step leaves the sequencer: past the step, or at the raise. -/
theorem stepPrim_seq {i : Instr} {ph : Phase} {p : Prim} {rest : List Prim} {got : List Byte}
    {s t : State} (h : stepPrim i ph p rest got s = .next t) :
    t.seq = .run i (.raised .transport) ∨ ∃ bs, t.seq = .run i (.going ph rest (got ++ bs)) := by
  rcases stepPrim_cases i ph p rest got s with
    ⟨o, r, x, es, bs, h', -⟩ | ⟨o, r, x, es, h', -⟩ <;> (rw [h'] at h; cases h)
  · exact .inr ⟨bs, rfl⟩
  · exact .inl rfl

/-- A primitive step only appends to the history. -/
theorem stepPrim_hist {i : Instr} {ph : Phase} {p : Prim} {rest : List Prim} {got : List Byte}
    {s t : State} (h : stepPrim i ph p rest got s = .next t) : s.hist <+: t.hist := by
  rcases stepPrim_cases i ph p rest got s with
    ⟨o, r, x, es, bs, h', -⟩ | ⟨o, r, x, es, h', -⟩ <;> (rw [h'] at h; cases h)
  · exact List.prefix_append _ _
  · exact List.prefix_append _ _

/-- An operation at a primitive step stays busy. -/
theorem stepPrim_busy {i : Instr} {ph : Phase} {p : Prim} {rest : List Prim} {got : List Byte}
    {s t : State} (h : stepPrim i ph p rest got s = .next t) : t.busy = true := by
  rcases stepPrim_cases i ph p rest got s with
    ⟨o, r, x, es, bs, h', -⟩ | ⟨o, r, x, es, h', -⟩ <;> (rw [h'] at h; cases h; rfl)

/-- A primitive step never stops the machine. -/
theorem stepPrim_next (i : Instr) (ph : Phase) (p : Prim) (rest : List Prim) (got : List Byte)
    (s : State) : ∃ t, stepPrim i ph p rest got s = .next t := by
  rcases stepPrim_cases i ph p rest got s with ⟨o, r, x, es, bs, h, -⟩ | ⟨o, r, x, es, h, -⟩ <;>
    exact ⟨_, h⟩

/-! ### An operation walked by `runPlan`, position by position -/

variable {i : Instr} {launch : State → Launch}
  {finish : List Byte → State → Host.Outcome State Fault Refusal} {s : State}

theorem runPlan_raised {e : ErrCode} (h : s.pos = .raised e) :
    runPlan i launch finish s = .next (s.complete e) := by simp [runPlan, h]

theorem runPlan_end {ph : Phase} {got : List Byte} (h : s.pos = .going ph [] got) :
    runPlan i launch finish s = finish got s := by simp [runPlan, h]

theorem runPlan_prim {ph : Phase} {p : Prim} {rest : List Prim} {got : List Byte}
    (h : s.pos = .going ph (p :: rest) got) :
    runPlan i launch finish s = stepPrim i ph p rest got s := by simp [runPlan, h]

theorem runPlan_start_raise {e : ErrCode} (h : s.pos = .start) (hl : launch s = .raise e) :
    runPlan i launch finish s = .next (s.complete e) := by simp [runPlan, h, hl]

theorem runPlan_start_fault {f : Fault} (h : s.pos = .start) (hl : launch s = .fault f) :
    runPlan i launch finish s = .fault f := by simp [runPlan, h, hl]

theorem runPlan_start_nil {s' : State} (h : s.pos = .start) (hl : launch s = .go s' []) :
    runPlan i launch finish s = finish [] s' := by simp [runPlan, h, hl]

theorem runPlan_start_prim {s' : State} {p : Prim} {rest : List Prim} (h : s.pos = .start)
    (hl : launch s = .go s' (p :: rest)) :
    runPlan i launch finish s = stepPrim i .plain p rest [] s' := by simp [runPlan, h, hl]

end Sys2Proof.Machine
end

