-- ==== Sys2Proof/Laws/Exec.lean ====
section
/-! SUPPORT. Every instruction but OW_SEARCH is one plan: what it does before its first primitive step,
and after its last. What one step of it can do, said once; and the same for OW_SEARCH. -/

namespace Sys2Proof.Machine

open Sys2Proof Sys2Proof.Safety

/-- The pseudocode before the first primitive step, per instruction (OW_SEARCH has none: see
`search_cases`). -/
def launchOf : Instr → State → Launch
  | .nop, s => .go s []
  | .openPort r, s => if s.portOpen then .raise .badState else .go s [.uartOpen r]
  | .close, s => .go s (if s.portOpen then [.uartClose] else [])
  | .switchRate r, s => .go s [.uartSetRate r]
  | .flush, s => .go s [.uartFlush]
  | .uartWrite n off, s => s.fetchOperand n off (fun bs => .go s [.uartTx bs])
  | .uartRead n off, s => if s.inRange n off then .go s [.uartRx n.toNat] else .raise .argRange
  | .owReset, s => .go s.beginReset resetPrims
  | .owTouch n off, s => s.fetchOperand n off (fun bs => .go s (touchPrims (bs.map resp)))
  | .owWriteByte b, s => .go s (writeBytePrims b)
  | .owReadByte, s => .go s readBytePrims
  | .owSelect rom, s => .go s (selectPrims rom)
  | .owSearch, s => .go s []
  | .crcCompute n off, s => s.fetchOperand n off (fun _ => .go s [])
  | .crcValidate n off, s => s.fetchOperand n off (fun _ => .go s [])
  | .wireTouch1, s => .go s (touchPrims [true])
  | .wireTouch0, s => .go s (touchPrims [false])
  | .wireReset, s => .go s.beginReset resetPrims
  | .romMatch, s => .go s (writeBytePrims (opByte .romMatch))
  | .romSearch, s => .go s (writeBytePrims (opByte .romSearch))
  | .fnConvertT, s => .go s (writeBytePrims (opByte .fnConvertT))
  | .fnReadScratchpad, s => .go s (writeBytePrims (opByte .fnReadScratchpad))

/-- The pseudocode after the last primitive step, from the bytes read, per instruction. -/
def finishOf : Instr → List Byte → State → Host.Outcome State Fault Refusal
  | .uartRead _ off, bs, s => finishOk (s.memWrite off.toNat bs)
  | .owReset, got, s =>
    finishOk { s.endReset got with
      result := packResult (resetEcho got) (presenceOf (resetEcho got)) }
  | .owTouch _ off, got, s =>
    finishOk (s.memWrite off.toNat (got.map (fun e => bitByte (resp e))))
  | .owReadByte, got, s => finishOk { s with result := (byteOfBits (got.map resp)).setWidth 32 }
  | .crcCompute n off, _, s =>
    match s.memRead off.toNat n.toNat with
    | some bs => finishOk { s with result := (crc8 bs).setWidth 32 }
    | none => .fault .unwrittenOperand
  | .crcValidate n off, _, s =>
    match s.memRead off.toNat n.toNat with
    | some bs =>
      .next (State.complete { s with result := packResult (crc8 bs) (crcValid bs) }
        (if crcValid bs then .ok else .dataIntegrity))
    | none => .fault .unwrittenOperand
  | .wireTouch1, got, s => finishOk { s with touchResp := some (touchBit got 0) }
  | .wireTouch0, got, s => finishOk { s with touchResp := some (touchBit got 0) }
  | .wireReset, got, s => finishOk (s.endReset got)
  | .nop, _, s | .openPort _, _, s | .close, _, s | .switchRate _, _, s | .flush, _, s
  | .uartWrite _ _, _, s | .owWriteByte _, _, s | .owSelect _, _, s | .owSearch, _, s
  | .romMatch, _, s | .romSearch, _, s | .fnConvertT, _, s | .fnReadScratchpad, _, s => finishOk s

/-- Every instruction but OW_SEARCH is its plan. -/
theorem exec_eq_runPlan (i : Instr) (hi : i ≠ .owSearch) (s : State) :
    exec i s = runPlan i (launchOf i) (finishOf i) s := by
  cases i <;> first
    | rfl
    | exact absurd rfl hi

/-- At a primitive step every instruction, OW_SEARCH too, performs it. -/
theorem exec_prim (i : Instr) {s : State} {ph : Phase} {p : Prim} {rest : List Prim}
    {got : List Byte} (h : s.pos = .going ph (p :: rest) got) :
    exec i s = stepPrim i ph p rest got s := by
  by_cases hi : i = .owSearch
  · subst hi; simp only [exec, execOwSearch, h]
  · rw [exec_eq_runPlan i hi, runPlan_prim h]

/-- After its last primitive step an instruction finishes. -/
theorem exec_end (i : Instr) (hi : i ≠ .owSearch) {s : State} {ph : Phase} {got : List Byte}
    (h : s.pos = .going ph [] got) : exec i s = finishOf i got s := by
  rw [exec_eq_runPlan i hi, runPlan_end h]

/-- A raise is what completion reports. -/
theorem exec_raised (i : Instr) (hi : i ≠ .owSearch) {s : State} {e : ErrCode}
    (h : s.pos = .raised e) : exec i s = .next (s.complete e) := by
  rw [exec_eq_runPlan i hi, runPlan_raised h]

/-- All that one step of an instruction other than OW_SEARCH can do when it gives a next state. -/
theorem exec_cases {i : Instr} (hi : i ≠ .owSearch) {s t : State} (h : exec i s = .next t) :
    (∃ e, (s.pos = .raised e ∨ (s.pos = .start ∧ launchOf i s = .raise e)) ∧ t = s.complete e) ∨
    (∃ s' got, ((s.pos = .start ∧ launchOf i s = .go s' [] ∧ got = []) ∨
        (s' = s ∧ ∃ ph, s.pos = .going ph [] got)) ∧ finishOf i got s' = .next t) ∨
    (∃ s' ph p rest got, ((s.pos = .start ∧ launchOf i s = .go s' (p :: rest) ∧ ph = .plain ∧
          got = []) ∨ (s' = s ∧ s.pos = .going ph (p :: rest) got)) ∧
        stepPrim i ph p rest got s' = .next t) := by
  rw [exec_eq_runPlan i hi] at h
  unfold runPlan at h
  split at h
  · next hs =>
    split at h
    · cases h
    · next e he => cases h; exact .inl ⟨e, .inr ⟨hs, he⟩, rfl⟩
    · next s' he => exact .inr (.inl ⟨s', [], .inl ⟨hs, he, rfl⟩, h⟩)
    · next s' p rest he => exact .inr (.inr ⟨s', .plain, p, rest, [], .inl ⟨hs, he, rfl, rfl⟩, h⟩)
  · next ph p rest got hs => exact .inr (.inr ⟨s, ph, p, rest, got, .inr ⟨rfl, hs⟩, h⟩)
  · next ph got hs => exact .inr (.inl ⟨s, got, .inr ⟨rfl, ph, hs⟩, h⟩)
  · next e hs => cases h; exact .inl ⟨e, .inl hs, rfl⟩

/-- The range check and the read of the operand, all outcomes. -/
theorem fetchOperand_cases (s : State) (n off : Word) (go : List Byte → Launch) :
    (s.params.bufBytes < off.toNat + n.toNat ∧ s.fetchOperand n off go = .raise .argRange) ∨
    (off.toNat + n.toNat ≤ s.params.bufBytes ∧ s.memRead off.toNat n.toNat = none ∧
      s.fetchOperand n off go = .fault .unwrittenOperand) ∨
    (∃ bs, off.toNat + n.toNat ≤ s.params.bufBytes ∧ s.memRead off.toNat n.toNat = some bs ∧
      s.fetchOperand n off go = go bs) := by
  unfold State.fetchOperand State.inRange
  by_cases h : off.toNat + n.toNat ≤ s.params.bufBytes
  · cases hm : s.memRead off.toNat n.toNat with
    | none => exact .inr (.inl ⟨h, rfl, by simp [h]⟩)
    | some bs => exact .inr (.inr ⟨bs, h, rfl, by simp [h]⟩)
  · exact .inl ⟨by omega, by simp [h]⟩

/-- The state an operation starts from: as it was, but PRESENT cleared by a bus reset. -/
theorem launchOf_go_state {i : Instr} {s s' : State} {todo : List Prim}
    (h : launchOf i s = .go s' todo) :
    s' = s ∨ ((i = .owReset ∨ i = .wireReset) ∧ s' = s.beginReset) := by
  cases i <;> simp only [launchOf] at h
  case openPort r => split at h <;> cases h; exact .inl rfl
  case uartRead n off => split at h <;> cases h; exact .inl rfl
  case owReset => cases h; exact .inr ⟨.inl rfl, rfl⟩
  case wireReset => cases h; exact .inr ⟨.inr rfl, rfl⟩
  case uartWrite n off | owTouch n off | crcCompute n off | crcValidate n off =>
    rcases fetchOperand_cases s n off _ with ⟨-, e⟩ | ⟨-, -, e⟩ | ⟨bs, -, -, e⟩ <;>
      (rw [e] at h; cases h)
    exact .inl rfl
  all_goals (cases h; exact .inl rfl)

/-- What an operation raises before any primitive step (60_exceptions.md R110). -/
theorem launchOf_raise {i : Instr} {s : State} {e : ErrCode} (h : launchOf i s = .raise e) :
    e = .badState ∨ e = .argRange := by
  cases i <;> simp only [launchOf] at h
  case openPort r => split at h <;> cases h; exact .inl rfl
  case uartRead n off => split at h <;> cases h; exact .inr rfl
  case uartWrite n off | owTouch n off | crcCompute n off | crcValidate n off =>
    rcases fetchOperand_cases s n off _ with ⟨-, e⟩ | ⟨-, -, e⟩ | ⟨bs, -, -, e⟩ <;>
      (rw [e] at h; cases h)
    exact .inr rfl
  all_goals cases h

theorem rxTotal_selectPrims (rom : Rom) : rxTotal (selectPrims rom) = 72 := by
  simp [selectPrims, romBytes, writeBytePrims_eq, rxTotal]

/-- An operation's reads ask for what `bytesRead` says, and it is past its range check. -/
theorem launchOf_go_reads {i : Instr} (hi : i ≠ .owSearch) {s s' : State} {todo : List Prim}
    (h : launchOf i s = .go s' todo) :
    rxTotal todo = bytesRead i .plain ∧ rangeOk s i := by
  have one (b : Bool) : rxTotal (touchPrims [b]) = 1 := by rw [touchPrims_one]; rfl
  have eight (b : Byte) : rxTotal (writeBytePrims b) = 8 := by rw [writeBytePrims_eq]; rfl
  cases i <;> simp only [launchOf] at h
  case openPort r => split at h <;> cases h; exact ⟨rfl, trivial⟩
  case close => split at h <;> cases h <;> exact ⟨rfl, trivial⟩
  case uartRead n off =>
    split at h
    · next hr =>
      cases h
      exact ⟨by simp [rxTotal, bytesRead], by simpa [State.inRange, rangeOk] using hr⟩
    · cases h
  case owTouch n off =>
    rcases fetchOperand_cases s n off _ with ⟨-, e⟩ | ⟨-, -, e⟩ | ⟨bs, hr, hm, e⟩ <;>
      (rw [e] at h; cases h)
    refine ⟨?_, hr⟩
    rw [rxTotal_touchPrims, List.length_map]
    exact Memory.readBytes_length hm
  case uartWrite n off | crcCompute n off | crcValidate n off =>
    rcases fetchOperand_cases s n off _ with ⟨-, e⟩ | ⟨-, -, e⟩ | ⟨bs, -, -, e⟩ <;>
      (rw [e] at h; cases h)
    exact ⟨rfl, trivial⟩
  case owSelect rom => cases h; exact ⟨rxTotal_selectPrims rom, trivial⟩
  case owSearch => exact absurd rfl hi
  case owReadByte => cases h; exact ⟨by rw [readBytePrims_eq]; rfl, trivial⟩
  case owWriteByte b => cases h; exact ⟨eight b, trivial⟩
  case wireTouch1 | wireTouch0 => cases h; exact ⟨one _, trivial⟩
  case romMatch | romSearch | fnConvertT | fnReadScratchpad => cases h; exact ⟨eight _, trivial⟩
  all_goals (cases h; exact ⟨rfl, trivial⟩)

/-- All that completion without a raise can change: PRESENT, RESULT, the response bit, DATA, and what
every completion writes. -/
theorem finishOf_next {i : Instr} {got : List Byte} {s t : State}
    (h : finishOf i got s = .next t) :
    ∃ p r k m e, t = State.complete
        { s with present := p, result := r, touchResp := k, mem := m } e ∧
      (e = .ok ∨ e = .dataIntegrity) := by
  cases i <;> simp only [finishOf, finishOk] at h
  case crcCompute n off => split at h <;> cases h; exact ⟨_, _, _, _, _, rfl, .inl rfl⟩
  case crcValidate n off =>
    split at h <;> cases h
    refine ⟨_, _, _, _, _, rfl, ?_⟩
    split <;> simp
  all_goals (cases h; exact ⟨_, _, _, _, _, rfl, .inl rfl⟩)

/-! ### OW_SEARCH -/

/-- What the pseudocode of OW_SEARCH may write between two primitive steps: the search state, PRESENT
and the ROM table. -/
def State.withSearch (s : State) (ld : Nat) (ldf : Bool) (ref : Rom) (pseen : Bool) (cnt : Nat)
    (abort : ErrCode) (present : Bool) (mem : List Host.Cell) : State :=
  { s with
    ld := ld, ldf := ldf, ref := ref, pseen := pseen, cnt := cnt, abort := abort
    present := present, mem := mem }

/-- Memory below ROMTAB is out of OW_SEARCH's reach. -/
theorem read_appendRom_below (s : State) (cand : Rom) (a : Nat) (h : a < Config.romtabBase) :
    Memory.read (s.appendRom cand).mem a = Memory.read s.mem a :=
  Memory.read_writeBytes_of_outside _ _ _ _ (.inl (by simp [romtabAddr]; omega))

/-- All that one step of OW_SEARCH can do when it gives a next state: it writes search state, and then
aborts, ends, or performs one primitive step. -/
theorem search_cases {s t : State} (h : execOwSearch s = .next t) :
    ∃ ld ldf ref pseen cnt abort present mem,
      (∀ a, a < Config.romtabBase → Memory.read mem a = Memory.read s.mem a) ∧
      let s' := s.withSearch ld ldf ref pseen cnt abort present mem
      (∃ c, t = s'.abortSearch c) ∨ t = s'.finishSearch ∨
      (∃ ph p rest got, stepPrim .owSearch ph p rest got s' = .next t) := by
  have part : ∀ ld ldf ref pseen cnt abort present mem ph todo,
      beginPart ph todo (s.withSearch ld ldf ref pseen cnt abort present mem) = .next t →
      todo ≠ [] → (∀ a, a < Config.romtabBase → Memory.read mem a = Memory.read s.mem a) →
      ∃ ld ldf ref pseen cnt abort present mem,
      (∀ a, a < Config.romtabBase → Memory.read mem a = Memory.read s.mem a) ∧
      let s' := s.withSearch ld ldf ref pseen cnt abort present mem
      (∃ c, t = s'.abortSearch c) ∨ t = s'.finishSearch ∨
      (∃ ph p rest got, stepPrim .owSearch ph p rest got s' = .next t) := by
    intro ld ldf ref pseen cnt abort present mem ph todo hb hne hm
    cases todo with
    | nil => exact absurd rfl hne
    | cons p rest =>
      exact ⟨ld, ldf, ref, pseen, cnt, abort, present, mem, hm, .inr (.inr ⟨ph, p, rest, [], hb⟩)⟩
  have round : ∀ cand marker cnt mem,
      (∀ a, a < Config.romtabBase → Memory.read mem a = Memory.read s.mem a) →
      closeRound cand marker (s.withSearch s.ld s.ldf s.ref s.pseen cnt s.abort s.present mem) =
        .next t →
      ∃ ld ldf ref pseen cnt abort present mem,
      (∀ a, a < Config.romtabBase → Memory.read mem a = Memory.read s.mem a) ∧
      let s' := s.withSearch ld ldf ref pseen cnt abort present mem
      (∃ c, t = s'.abortSearch c) ∨ t = s'.finishSearch ∨
      (∃ ph p rest got, stepPrim .owSearch ph p rest got s' = .next t) := by
    intro cand marker cnt mem hm hc
    unfold closeRound at hc
    split at hc
    · cases hc
      exact ⟨marker, true, cand, s.pseen, cnt, s.abort, s.present, mem, hm, .inr (.inl rfl)⟩
    · exact part marker s.ldf cand s.pseen cnt s.abort false mem .reset resetPrims hc
        (by simp [resetPrims]) hm
  have keep : ∀ a, a < Config.romtabBase → Memory.read s.mem a = Memory.read s.mem a :=
    fun _ _ => rfl
  have touchne (b : Bool) (bs : List Bool) : touchPrims (b :: bs) ≠ [] := by
    rw [touchPrims_chunk _ (by simp)]; simp
  unfold execOwSearch at h
  split at h
  · exact part 0 false 0 false 0 .ok false (Memory.clearRomtab s.mem) .reset resetPrims h
      (by simp [resetPrims]) (fun a ha => Memory.read_clearRomtab_below _ _ ha)
  · next ph p rest got _ =>
    exact ⟨s.ld, s.ldf, s.ref, s.pseen, s.cnt, s.abort, s.present, s.mem, keep,
      .inr (.inr ⟨ph, p, rest, got, h⟩)⟩
  · next ph got _ =>
    cases ph with
    | plain =>
      exact part s.ld s.ldf s.ref s.pseen s.cnt s.abort false s.mem .reset resetPrims h
        (by simp [resetPrims]) keep
    | reset =>
      simp only [endPart] at h
      split at h
      · exact part s.ld s.ldf s.ref true s.cnt s.abort _ s.mem .command _ h
          (by rw [writeBytePrims_eq]; simp) keep
      · cases h
        exact ⟨s.ld, s.ldf, s.ref, s.pseen, s.cnt, s.abort, _, s.mem, keep, .inl ⟨_, rfl⟩⟩
    | command =>
      simp only [endPart, beginPosition] at h
      exact part s.ld s.ldf s.ref s.pseen s.cnt s.abort s.present s.mem _ _ h (touchne _ _) keep
    | pair p cand marker =>
      simp only [endPart, decidePosition] at h
      split at h
      · cases h
        exact ⟨s.ld, s.ldf, s.ref, s.pseen, s.cnt, s.abort, s.present, s.mem, keep, .inl ⟨_, rfl⟩⟩
      · split at h <;>
          exact part s.ld s.ldf s.ref s.pseen s.cnt s.abort s.present s.mem _ _ h (touchne _ _) keep
    | direct p d cand marker =>
      simp only [endPart, endRound] at h
      split at h
      · exact part s.ld s.ldf s.ref s.pseen s.cnt s.abort s.present s.mem _ _ h (touchne _ _) keep
      · split at h
        · split at h
          · cases h
            exact ⟨s.ld, s.ldf, s.ref, s.pseen, s.cnt, s.abort, s.present, s.mem, keep,
              .inl ⟨_, rfl⟩⟩
          · exact round _ _ (s.cnt + 1) _ (read_appendRom_below s _) h
        · exact round _ _ s.cnt s.mem keep h
  · next e _ =>
    cases h
    exact ⟨s.ld, s.ldf, s.ref, s.pseen, s.cnt, s.abort, s.present, s.mem, keep, .inl ⟨_, rfl⟩⟩

end Sys2Proof.Machine
end

