-- ==== Sys2Proof/Laws/Host.lean ====
section
/-! SUPPORT. Host accesses and the step around them: where an access goes, what it can change, words and
bytes, and how a step takes its turn (20_memory.md R38 to R41, R52). -/

namespace Sys2Proof.Machine

open Sys2Proof Sys2Proof.Safety

/-! ### Where an access goes -/

/-- An access that reaches DATA lies inside it. -/
theorem accessTarget_data {p : Params} {w : Width} {a : Nat} (h : accessTarget p w a = .data) :
    0x100 ≤ a ∧ a < 0x1000 ∧ a + w.bytes ≤ 0x100 + p.bufBytes := by
  have e1 : Config.dataBase = 0x100 := rfl
  have e2 : Config.romtabBase = 0x1000 := rfl
  unfold accessTarget regionTarget at h
  repeat' split at h
  all_goals first
    | cases h; done
    | omega

/-- An aligned access inside DATA reaches it. -/
theorem accessTarget_of_data {p : Params} {w : Width} {a : Nat} (h0 : a % w.bytes = 0)
    (h1 : 0x100 ≤ a) (h2 : a < 0x1000) (h3 : a + w.bytes ≤ 0x100 + p.bufBytes) :
    accessTarget p w a = .data := by
  have e1 : Config.dataBase = 0x100 := rfl
  have e2 : Config.romtabBase = 0x1000 := rfl
  unfold accessTarget regionTarget
  rw [if_neg (by omega), if_neg (by omega), if_pos (by omega), if_pos (by omega)]

/-- An aligned access inside ROMTAB reaches it. -/
theorem accessTarget_of_romtab {p : Params} {w : Width} {a : Nat} (h0 : a % w.bytes = 0)
    (h1 : 0x1000 ≤ a) (h2 : a + w.bytes ≤ 0x1000 + 8 * p.maxDevices) :
    accessTarget p w a = .romtab := by
  have e1 : Config.dataBase = 0x100 := rfl
  have e2 : Config.romtabBase = 0x1000 := rfl
  unfold accessTarget regionTarget
  rw [if_neg (by omega), if_neg (by omega), if_neg (by omega), if_pos (by omega)]

/-- Only an aligned 32-bit access reaches a register, at its offset. -/
theorem accessTarget_register {p : Params} {w : Width} {a off : Nat}
    (h : accessTarget p w a = .register off) : w = .w32 ∧ a = off ∧ a ≤ 0x28 := by
  unfold accessTarget regionTarget at h
  repeat' split at h
  all_goals first
    | cases h; exact ⟨by assumption, rfl, by assumption⟩
    | cases h

/-! ### Words and bytes -/

@[simp] theorem bytesOfWord_length (v : Word) (n : Nat) : (bytesOfWord v n).length = n := by
  induction n generalizing v with
  | zero => rfl
  | succ n ih => simp [bytesOfWord, ih]

/-- Byte k of a word is its bits 8k+7:8k (20_memory.md R41). -/
theorem bytesOfWord_getElem (v : Word) (n k : Nat) (h : k < (bytesOfWord v n).length) :
    (bytesOfWord v n)[k] = v.extractLsb' (8 * k) 8 := by
  induction n generalizing v k with
  | zero => simp [bytesOfWord] at h
  | succ n ih =>
    cases k with
    | zero => simp [bytesOfWord]
    | succ k =>
      simp only [bytesOfWord, List.getElem_cons_succ]
      rw [ih]
      ext i hi
      simp [show 8 * (k + 1) + i = 8 + (8 * k + i) by omega]

/-- Byte k of the word that at most four bytes make is bits 8k+7:8k, and above them it is 0 (20_memory.md
R41). -/
theorem wordOfBytes_bits (bs : List Byte) (hl : bs.length ≤ 4) :
    (∀ (k : Nat) (hk : k < bs.length), (wordOfBytes bs).extractLsb' (8 * k) 8 = bs[k]) ∧
    ∀ j, 8 * bs.length ≤ j → (wordOfBytes bs).getLsbD j = false := by
  induction bs with
  | nil => simp [wordOfBytes]
  | cons b bs ih =>
    simp only [List.length_cons] at hl
    obtain ⟨h1, h2⟩ := ih (by omega)
    refine ⟨fun k hk => ?_, fun j hj => ?_⟩
    · cases k with
      | zero =>
        ext i hi
        simp [wordOfBytes, hi, show i < 32 by omega]
      | succ k =>
        simp only [List.length_cons] at hk
        rw [List.getElem_cons_succ, ← h1 k (by omega)]
        ext i hi
        simp [wordOfBytes, show 8 * (k + 1) + i < 32 by omega,
          show ¬ 8 * (k + 1) + i < 8 by omega, show 8 * (k + 1) + i - 8 = 8 * k + i by omega]
        rw [BitVec.getLsbD_of_ge b _ (by omega), Bool.false_or]
        rfl
    · simp only [List.length_cons] at hj
      simp [wordOfBytes, show ¬ j < 8 by omega]
      exact ⟨fun _ => BitVec.getLsbD_of_ge _ _ (by omega), fun _ => h2 _ (by omega)⟩

/-- Taking a word apart and putting it together leaves the word cut to the width. -/
theorem wordOfBytes_bytesOfWord (w : Width) (v : Word) :
    wordOfBytes (bytesOfWord v w.bytes) = cutTo w v := by
  cases w
  · simp [Width.bytes, bytesOfWord, wordOfBytes, cutTo]
  · simp only [Width.bytes, bytesOfWord, wordOfBytes, cutTo]
    ext i hi
    have : i < 8 ∨ (8 ≤ i ∧ i < 16) ∨ (16 ≤ i ∧ i < 24) ∨ (24 ≤ i ∧ i < 32) := by omega
    interval_cases i <;> simp
  · simp only [Width.bytes, bytesOfWord, wordOfBytes, cutTo]
    ext i hi
    have : i < 8 ∨ (8 ≤ i ∧ i < 16) ∨ (16 ≤ i ∧ i < 24) ∨ (24 ≤ i ∧ i < 32) := by omega
    interval_cases i <;> simp

/-! ### What an access can change -/

/-- A load changes nothing but what it returns and the count of free values (20_memory.md R52). -/
theorem hostRead_next {w : Width} {a : HostAddr} {s t : State} (h : hostRead w a s = .next t) :
    t = { s with hostData := t.hostData, draws := t.draws } := by
  unfold hostRead State.loadBytes at h
  repeat' split at h
  all_goals first
    | cases h; rfl
    | cases h

/-- While an operation runs, a turn that is not the ENGINE's leaves the sequencer, the port and the
parameters as they are, unless it is a block reset. -/
theorem runTurn_keeps {tn : Turn} {s t : State} (hb : s.busy = true) (h : runTurn tn s = .next t)
    (he : isEngine tn = false) (hr : tn ≠ .blockReset) :
    t.seq = s.seq ∧ t.portOpen = s.portOpen ∧ t.params = s.params := by
  cases tn with
  | host acc =>
    cases acc with
    | read w a => rw [hostRead_next h]; exact ⟨rfl, rfl, rfl⟩
    | write w a v =>
      cases h
      simp only [hostWrite, State.regWrite, State.cmdWrite, hb, if_true]
      repeat' split
      all_goals exact ⟨rfl, rfl, rfl⟩
  | engine ans => cases he
  | line v => cases h; unfold State.lineAppend; split <;> exact ⟨rfl, rfl, rfl⟩
  | blockReset => exact absurd rfl hr

/-- What an operation has yet to take depends on the sequencer and the port alone. -/
theorem stepsLeft_congr {s t : State} (hq : t.seq = s.seq) (ho : t.portOpen = s.portOpen) :
    stepsLeft t = stepsLeft s := by
  unfold stepsLeft
  rw [hq]
  split <;> try rfl
  unfold primCount
  rw [ho]

/-! ### A step takes its turn -/

/-- Taking a turn changes the agenda and the count of free values only. -/
theorem takeTurn_eq (s : State) :
    ∃ dr, s.takeTurn.2 = { s with agenda := s.agenda.tail, draws := dr } := by
  unfold State.takeTurn
  split
  · next h => exact ⟨s.draws, by rw [h]; rfl⟩
  · next h => exact ⟨s.draws + 1, by rw [h]; rfl⟩

theorem step_hostRead {s : State} {w : Width} {a : HostAddr} {rest : List Turn}
    (h : s.agenda = .host (.read w a) :: rest) :
    step s = hostRead w a { s with agenda := rest } := by
  simp [step, State.takeTurn, h, runTurn, hostAccess]

theorem step_hostWrite {s : State} {w : Width} {a : HostAddr} {v : Word} {rest : List Turn}
    (h : s.agenda = .host (.write w a v) :: rest) :
    step s = .next (hostWrite w a v { s with agenda := rest }) := by
  simp [step, State.takeTurn, h, runTurn, hostAccess]

theorem step_cmdWrite {s : State} {v : Word} {rest : List Turn}
    (h : s.agenda = .host (.write .w32 0x000 v) :: rest) :
    step s = .next (State.cmdWrite { s with agenda := rest } v) := by
  rw [step_hostWrite h]
  simp [hostWrite, accessTarget, Config.dataBase, Width.bytes, State.regWrite]

theorem step_engine {s : State} {i : Instr} {pos : Pos} {ans : LineAnswer} {rest : List Turn}
    (hs : s.seq = .run i pos) (h : s.agenda = .engine ans :: rest) :
    step s = exec i { s with agenda := rest, answer := ans } := by
  simp [step, State.takeTurn, h, runTurn, engineTurn, hs]

theorem step_line {s : State} {v : Byte} {rest : List Turn} (ho : s.portOpen = true)
    (h : s.agenda = .line v :: rest) :
    step s = .next { s with agenda := rest, rx := s.rx ++ [v], hist := s.hist ++ [.lineRx v] } := by
  simp [step, State.takeTurn, h, runTurn, State.lineAppend, ho]

/-! ### Several steps -/

@[simp] theorem runSteps_zero (s : State) : runSteps 0 s = .next s := rfl

theorem runSteps_succ {k : Nat} {s t : State} (h : step s = .next t) :
    runSteps (k + 1) s = runSteps k t := by
  have h' : Sys2Proof.core.step s = .next t := h
  show Sys2Proof.core.run (k + 1) s = Sys2Proof.core.run k t
  simp only [Host.Core.run, h']

theorem runSteps_one (s : State) : runSteps 1 s = step s := by
  show Sys2Proof.core.run 1 s = Sys2Proof.core.step s
  simp only [Host.Core.run]
  cases Sys2Proof.core.step s <;> simp

theorem runSteps_add {j k : Nat} {s t : State} (h : runSteps j s = .next t) :
    runSteps (j + k) s = runSteps k t := by
  induction j generalizing s with
  | zero => cases h; simp
  | succ j ih =>
    cases hs : step s with
    | next s' =>
      rw [runSteps_succ hs] at h
      rw [Nat.succ_add, runSteps_succ hs, ih h]
    | fault f =>
      have h' : Sys2Proof.core.step s = .fault f := hs
      change Sys2Proof.core.run (j + 1) s = _ at h
      simp only [Host.Core.run, h'] at h
      cases h
    | refused f =>
      have h' : Sys2Proof.core.step s = .refused f := hs
      change Sys2Proof.core.run (j + 1) s = _ at h
      simp only [Host.Core.run, h'] at h
      cases h

end Sys2Proof.Machine
end

