-- ==== Sys2Proof/Laws/PerInstr.lean ====
section
/-! SUPPORT. Statements about the instruction as syntax, one lemma per constructor. `EncodedForm`: an
instruction's encoding is a CMD word exactly when the opcode map lists it (30_encoding.md R56, R59); the
others are wire codes (R61, R62, R65, R66). -/

namespace Sys2Proof.Laws.EncodedForm

open Sys2Proof

def Statement (i : Instr) : Prop := (∃ img, encode i = .command img) ↔ i.isCommand = true

theorem nop : Statement .nop := ⟨fun _ => rfl, fun _ => ⟨_, rfl⟩⟩
theorem openPort (r : Rate) : Statement (.openPort r) := ⟨fun _ => rfl, fun _ => ⟨_, rfl⟩⟩
theorem close : Statement .close := ⟨fun _ => rfl, fun _ => ⟨_, rfl⟩⟩
theorem switchRate (r : Rate) : Statement (.switchRate r) := ⟨fun _ => rfl, fun _ => ⟨_, rfl⟩⟩
theorem flush : Statement .flush := ⟨fun _ => rfl, fun _ => ⟨_, rfl⟩⟩
theorem uartWrite (n off : Word) : Statement (.uartWrite n off) :=
  ⟨fun _ => rfl, fun _ => ⟨_, rfl⟩⟩
theorem uartRead (n off : Word) : Statement (.uartRead n off) := ⟨fun _ => rfl, fun _ => ⟨_, rfl⟩⟩
theorem owReset : Statement .owReset := ⟨fun _ => rfl, fun _ => ⟨_, rfl⟩⟩
theorem owTouch (n off : Word) : Statement (.owTouch n off) := ⟨fun _ => rfl, fun _ => ⟨_, rfl⟩⟩
theorem owWriteByte (b : Byte) : Statement (.owWriteByte b) := ⟨fun _ => rfl, fun _ => ⟨_, rfl⟩⟩
theorem owReadByte : Statement .owReadByte := ⟨fun _ => rfl, fun _ => ⟨_, rfl⟩⟩
theorem owSelect (rom : Rom) : Statement (.owSelect rom) := ⟨fun _ => rfl, fun _ => ⟨_, rfl⟩⟩
theorem owSearch : Statement .owSearch := ⟨fun _ => rfl, fun _ => ⟨_, rfl⟩⟩
theorem crcCompute (n off : Word) : Statement (.crcCompute n off) :=
  ⟨fun _ => rfl, fun _ => ⟨_, rfl⟩⟩
theorem crcValidate (n off : Word) : Statement (.crcValidate n off) :=
  ⟨fun _ => rfl, fun _ => ⟨_, rfl⟩⟩
theorem wireTouch1 : Statement .wireTouch1 := ⟨(nomatch ·), (nomatch ·)⟩
theorem wireTouch0 : Statement .wireTouch0 := ⟨(nomatch ·), (nomatch ·)⟩
theorem wireReset : Statement .wireReset := ⟨(nomatch ·), (nomatch ·)⟩
theorem romMatch : Statement .romMatch := ⟨(nomatch ·), (nomatch ·)⟩
theorem romSearch : Statement .romSearch := ⟨(nomatch ·), (nomatch ·)⟩
theorem fnConvertT : Statement .fnConvertT := ⟨(nomatch ·), (nomatch ·)⟩
theorem fnReadScratchpad : Statement .fnReadScratchpad := ⟨(nomatch ·), (nomatch ·)⟩

end Sys2Proof.Laws.EncodedForm
end

