-- ==== Sys2Proof/Laws/SimBus.lean ====
section
/-! SUPPORT. The list of devices of the SimBus fixture is fixed (43_rom_search.md R104): nothing on the
wire changes an address or a scratchpad, so a bus stays a bus. -/

namespace Sys2Proof.Machine.SimBus

open Sys2Proof Sys2Proof.Machine

/-- What of a device is fixed. -/
def Device.fixed (d : Device) : Rom × Scratchpad := (d.addr, d.pad)

@[simp] theorem Device.fixed_st (d : Device) (q : DevState) :
    ({ d with st := q } : Device).fixed = d.fixed := rfl

/-- A sample moves a device, and changes neither its address nor its scratchpad. -/
@[simp] theorem Device.sample_fixed (d : Device) (line : Bool) :
    (d.sample line).fixed = d.fixed := by
  unfold Device.sample
  dsimp only
  repeat' split
  all_goals rfl

theorem dataByte_fixed (devs : List Device) (x : Byte) :
    (dataByte devs x).1.map Device.fixed = devs.map Device.fixed := by
  unfold dataByte
  split
  · simp [Function.comp_def]
  · rfl

theorem dataBytes_fixed (devs : List Device) (bs : List Byte) :
    (dataBytes devs bs).1.map Device.fixed = devs.map Device.fixed := by
  induction bs generalizing devs with
  | nil => rfl
  | cons x xs ih => exact (ih _).trans (dataByte_fixed devs x)

theorem transmit_fixed (devs : List Device) (rate : Rate) (bs : List Byte) :
    (transmit devs rate bs).1.map Device.fixed = devs.map Device.fixed := by
  cases rate with
  | reset =>
    simp only [transmit]
    split
    · simp [Function.comp_def]
    · rfl
  | data => exact dataBytes_fixed devs bs

theorem hear_fixed (devs : List Device) (es : List Event) :
    (hear devs es).1.map Device.fixed = devs.map Device.fixed := by
  induction es generalizing devs with
  | nil => rfl
  | cons e es ih =>
    cases e with
    | tx rate bs => exact (ih _).trans (transmit_fixed devs rate bs)
    | rx _ | flush | setRate _ | opened _ | closed | delay _ | lineRx _ => exact ih devs

theorem isBus_congr {devs devs' : List Device} (h : devs'.map Device.fixed = devs.map Device.fixed) :
    isBus devs' = isBus devs := by
  have h' := congrArg (List.map Prod.fst) h
  simp only [List.map_map] at h'
  unfold isBus
  rw [show Device.addr = Prod.fst ∘ Device.fixed from rfl, h']

/-- A step under the fixture leaves the addresses and the scratchpads, and so the bus, as they are. -/
theorem Sys.take_fixed {y z : Sys} {t : Turn} {due : List Byte} (h : y.take t due = .next z) :
    z.devs.map Device.fixed = y.devs.map Device.fixed ∧ z.wellFormed = y.wellFormed := by
  unfold Sys.take at h
  split at h
  · cases h
    have h' := hear_fixed y.devs
    exact ⟨h' _, isBus_congr (h' _)⟩
  · cases h
  · cases h

end Sys2Proof.Machine.SimBus
end

