-- ==== Sys2Proof/Machine/Assembler.lean ====
section
/-! DEFINITION. The host's statements (30_encoding.md R67) and their expansions into host accesses
(R68). The host program itself, its loops and tests, lives outside the engine (20_memory.md R55). -/

namespace Sys2Proof.Machine.Assembler

open Sys2Proof Sys2Proof.Machine

/-- A host statement, its numbers as written. -/
inductive Stmt where
  | nop
  | openPort (r : Nat)
  | close
  | switchRate (r : Nat)
  | flush
  | uartWrite (n off : Nat)
  | uartRead (n off : Nat)
  | owReset
  | owTouch (n off : Nat)
  | owWriteByte (b : Nat)
  | owReadByte
  | owSelect (rom : List Nat)
  | owSearch
  | crcCompute (n off : Nat)
  | crcValidate (n off : Nat)
  | store32 (a v : Nat)
  | store8 (a v : Nat)
  | load32 (a : Nat)
  | load8 (a : Nat)
  | waitDone
  | data (off : Nat) (bs : List Nat)
  | check (e : Nat)
  deriving DecidableEq, Repr, Inhabited

/-- What a host does: an access; polling STATUS until BUSY reads 0; comparing ERR with a code. -/
inductive Action where
  | access (acc : HostAccess)
  | poll
  | expectErr (e : Nat)
  deriving DecidableEq, Repr, Inhabited

/-- The rates an OPEN or SWITCH_RATE accepts (30_encoding.md R67). -/
def rateNumber (r : Nat) : Bool := decide (r = Rate.reset.bps) || decide (r = Rate.data.bps)

def isWord (v : Nat) : Bool := decide (v < 2 ^ 32)
def isByte (v : Nat) : Bool := decide (v < 2 ^ 8)
def isAddr (a : Nat) : Bool := decide (a < 2 ^ 13)

/-- The statements the syntax admits (30_encoding.md R67, operand widths R58, host addresses 20_memory.md
R38). DESIGN CHOICE (log 26): R67 and R68 bound neither the offset of DATA nor the code of CHECK; a DATA
is admitted if its last byte stands at 0x1FFF or below, a CHECK if its code fits bits 11:8. -/
def Stmt.wellFormed : Stmt → Bool
  | .nop | .close | .flush | .owReset | .owReadByte | .owSearch | .waitDone => true
  | .openPort r | .switchRate r => rateNumber r
  | .uartWrite n off | .uartRead n off | .owTouch n off | .crcCompute n off | .crcValidate n off =>
    isWord n && isWord off
  | .owWriteByte b => isByte b
  | .owSelect rom => decide (rom.length = Config.romBytes) && rom.all isByte
  | .store32 a v => isAddr a && isWord v
  | .store8 a v => isAddr a && isByte v
  | .load32 a | .load8 a => isAddr a
  | .data off bs => decide (Config.dataBase + off + bs.length ≤ 2 ^ 13) && bs.all isByte
  | .check e => decide (e < 16)

def w32 (a v : Nat) : Action := .access (.write .w32 (BitVec.ofNat 13 a) (BitVec.ofNat 32 v))
def w8 (a v : Nat) : Action := .access (.write .w8 (BitVec.ofNat 13 a) (BitVec.ofNat 32 v))
def r32 (a : Nat) : Action := .access (.read .w32 (BitVec.ofNat 13 a))
def r8 (a : Nat) : Action := .access (.read .w8 (BitVec.ofNat 13 a))

/-- The store to CMD and the wait that end every command (30_encoding.md R68). -/
def issue (op : Nat) : List Action := [w32 0x000 op, .poll]

/-- The operand stores of a rate: 1 for 115200, 0 for 9600 (30_encoding.md R68). -/
def storeRate (r : Nat) : Action := w32 0x008 (if r = Rate.data.bps then 1 else 0)

def storeRange (n off : Nat) : List Action := [w32 0x008 n, w32 0x00C off]

/-- Four address bytes as a register word (30_encoding.md R68). -/
def romWord : List Nat → Nat
  | [] => 0
  | b :: bs => b + 256 * romWord bs

/-- `DATA off, b0, b1, ...` (30_encoding.md R68). -/
def storeBytes (a : Nat) : List Nat → List Action
  | [] => []
  | b :: bs => w8 a b :: storeBytes (a + 1) bs

/-- The expansion of a statement (30_encoding.md R68). -/
def Stmt.expand : Stmt → List Action
  | .nop => issue 0x00
  | .openPort r => storeRate r :: issue 0x01
  | .close => issue 0x02
  | .switchRate r => storeRate r :: issue 0x03
  | .flush => issue 0x04
  | .uartWrite n off => storeRange n off ++ issue 0x05
  | .uartRead n off => storeRange n off ++ issue 0x06
  | .owReset => issue 0x10
  | .owTouch n off => storeRange n off ++ issue 0x11
  | .owWriteByte b => w32 0x008 b :: issue 0x12
  | .owReadByte => issue 0x13
  | .owSelect rom =>
    w32 0x014 (romWord (rom.take 4)) :: w32 0x018 (romWord (rom.drop 4)) :: issue 0x14
  | .owSearch => issue 0x20
  | .crcCompute n off => storeRange n off ++ issue 0x30
  | .crcValidate n off => storeRange n off ++ issue 0x31
  | .store32 a v => [w32 a v]
  | .store8 a v => [w8 a v]
  | .load32 a => [r32 a]
  | .load8 a => [r8 a]
  | .waitDone => [.poll]
  | .data off bs => storeBytes (Config.dataBase + off) bs
  | .check e => [r32 0x004, .expectErr e]

/-- WAITDONE repeats while bit 0 (BUSY) of the value read is 1 (30_encoding.md R68). -/
def pollAgain (status : Word) : Bool := status.getLsbD 0

/-- CHECK e compares bits 11:8 of the value read with e (30_encoding.md R68). -/
def checkHolds (status : Word) (e : Nat) : Bool := decide ((status.extractLsb' 8 4).toNat = e)

end Sys2Proof.Machine.Assembler
end

