-- ==== Sys2Proof/Tests/Slice0.lean ====
section
/-! SUPPORT. Tests: the well-formedness checks refuse ill-formed terms; words written out from
30_encoding.md decode to what they stand for; one step per test, its expected values from
95_test_vectors.md (the vector is named at each); and for each obligation with hypotheses a witness that
meets them. -/

namespace Sys2Proof.Tests

open Sys2Proof Sys2Proof.Machine Sys2Proof.Safety

/-! ### Well-formedness: each check refuses -/

theorem test_standard_params_legal : Params.standard.legal = true := by decide
theorem test_buf_too_small : (Params.mk 15 64).legal = false := by decide
theorem test_buf_too_large : (Params.mk 3841 64).legal = false := by decide
theorem test_no_devices : (Params.mk 256 0).legal = false := by decide
theorem test_too_many_devices : (Params.mk 256 513).legal = false := by decide
theorem test_extreme_params_legal :
    (Params.mk 16 1).legal = true ∧ (Params.mk 3840 512).legal = true := by decide

theorem test_stmt_bad_rate : (Assembler.Stmt.openPort 19200).wellFormed = false := by decide
theorem test_stmt_bad_word : (Assembler.Stmt.owTouch (2 ^ 32) 0).wellFormed = false := by decide
theorem test_stmt_bad_byte : (Assembler.Stmt.owWriteByte 256).wellFormed = false := by decide
theorem test_stmt_short_rom : (Assembler.Stmt.owSelect [0x28]).wellFormed = false := by decide
theorem test_stmt_bad_addr : (Assembler.Stmt.load8 0x2000).wellFormed = false := by decide
theorem test_stmt_bad_store : (Assembler.Stmt.store8 0x100 256).wellFormed = false := by decide
theorem test_stmt_data_past_space : (Assembler.Stmt.data 0x1F00 [1]).wellFormed = false := by decide
theorem test_stmt_data_to_the_end : (Assembler.Stmt.data 0x1EFF [1]).wellFormed = true := by decide
theorem test_stmt_bad_check : (Assembler.Stmt.check 16).wellFormed = false := by decide

/-! ### Decoding: a word for each row (30_encoding.md R59, R61, R62, R65, R66) -/

/-- CMD with the operand registers. -/
def cmd (w a0 a1 r0 r1 : Word) : Except Reject Instr := decode (.command ⟨w, a0, a1, r0, r1⟩)

theorem decode_nop : cmd 0b00000000 0 0 0 0 = .ok .nop := by decide
theorem decode_open_9600 : cmd 0b00000001 0 0 0 0 = .ok (.openPort .reset) := by decide
theorem decode_open_115200 : cmd 0b00000001 0xFFFFFFFF 0 0 0 = .ok (.openPort .data) := by decide
theorem decode_close : cmd 0b00000010 0 0 0 0 = .ok .close := by decide
theorem decode_switchRate : cmd 0b00000011 0b10 0 0 0 = .ok (.switchRate .reset) := by decide
theorem decode_flush : cmd 0b00000100 0 0 0 0 = .ok .flush := by decide
theorem decode_uartWrite : cmd 0b00000101 3 0x40 0 0 = .ok (.uartWrite 3 0x40) := by decide
theorem decode_uartRead : cmd 0b00000110 9 0xFF 0 0 = .ok (.uartRead 9 0xFF) := by decide
theorem decode_owReset : cmd 0b00010000 0 0 0 0 = .ok .owReset := by decide
theorem decode_owTouch : cmd 0b00010001 20 0x80 0 0 = .ok (.owTouch 20 0x80) := by decide
theorem decode_owWriteByte : cmd 0b00010010 0x12345655 0 0 0 = .ok (.owWriteByte 0x55) := by decide
theorem decode_owReadByte : cmd 0b00010011 0 0 0 0 = .ok .owReadByte := by decide
/-- Address A of 95_test_vectors.md section 0, vector B-S1. -/
theorem decode_owSelect :
    cmd 0b00010100 0 0 0x00000028 0x1E000000 = .ok (.owSelect 0x1E00000000000028) := by decide
theorem decode_owSearch : cmd 0b00100000 0 0 0 0 = .ok .owSearch := by decide
theorem decode_crcCompute : cmd 0b00110000 7 0 0 0 = .ok (.crcCompute 7 0) := by decide
/-- Vector X-2: CMD[31:8] is ignored. -/
theorem decode_ignores_high_bits : cmd 0xFFFFFF30 7 1 0 0 = .ok (.crcCompute 7 1) := by decide
theorem decode_crcValidate : cmd 0b00110001 8 1 0 0 = .ok (.crcValidate 8 1) := by decide
theorem decode_wireTouch1 : decode (.wire .slot 0b11111111) = .ok .wireTouch1 := by decide
theorem decode_wireTouch0 : decode (.wire .slot 0b00000000) = .ok .wireTouch0 := by decide
theorem decode_wireReset : decode (.wire .resetSymbol 0b11110000) = .ok .wireReset := by decide
theorem decode_romMatch : decode (.wire .romCommand 0b01010101) = .ok .romMatch := by decide
theorem decode_romSearch : decode (.wire .romCommand 0b11110000) = .ok .romSearch := by decide
theorem decode_fnConvertT : decode (.wire .functionCommand 0b01000100) = .ok .fnConvertT := by decide
theorem decode_fnReadScratchpad :
    decode (.wire .functionCommand 0b10111110) = .ok .fnReadScratchpad := by decide

/-- Vectors X-1, X-3 and the edges of the reserved ranges (30_encoding.md R60). -/
theorem decode_reserved :
    [(0x07 : Word), 0x0F, 0x15, 0x1F, 0x21, 0x2F, 0x32, 0xFF].all
      (fun w => match cmd w 0 0 0 0 with
        | .ok _ => false
        | .error _ => true) = true := by decide

theorem decode_no_wire_code :
    decode (.wire .slot 0xF0) = .error (.noWireCode .slot 0xF0) ∧
    decode (.wire .resetSymbol 0xFF) = .error (.noWireCode .resetSymbol 0xFF) ∧
    decode (.wire .romCommand 0x33) = .error (.noWireCode .romCommand 0x33) ∧
    decode (.wire .functionCommand 0x4E) = .error (.noWireCode .functionCommand 0x4E) := by decide

/-- The rows of spec/opcode_table.json by their bits; 0x00 and 0xF0 stand for two rows each (log 9). -/
theorem test_table_words :
    decodeTableWord 8 0x00 = some .nop ∧ decodeTableWord 8 0x20 = some .owSearch ∧
    decodeTableWord 8 0xFF = some .wireTouch1 ∧ decodeTableWord 8 0xF0 = some .wireReset ∧
    decodeTableWord 8 0x55 = some .romMatch ∧ decodeTableWord 8 0x44 = some .fnConvertT ∧
    decodeTableWord 8 0xBE = some .fnReadScratchpad ∧ decodeTableWord 8 0x07 = none := by decide

/-! ### Small states -/

/-- The port open at 115200 and operation `i` at a position. -/
def running (i : Instr) (p : Pos) : State :=
  { State.reset with portOpen := true, rate := .data, seq := .run i p }

/-- The port closed. -/
def closed (i : Instr) (p : Pos) : State := { State.reset with seq := .run i p }

/-- After a part whose primitive steps are done, having read `got`. -/
def done (got : List Byte) : Pos := .going .plain [] got

/-- DATA holding bytes from an offset on. -/
def dataAt (off : Nat) (bs : List Byte) : List Host.Cell := Memory.writeBytes [] (dataAddr off) bs

/-- A field of the next state of one ENGINE step. -/
def after {α : Type} (i : Instr) (s : State) (f : State → α) : Option α := (nextState? (exec i s)).map f

/-! ### One step per test -/

/-- T-1. -/
theorem test_nop : after .nop (closed .nop .start) State.statusWord = some 0x00000002 := by decide
/-- T-3. -/
theorem test_open :
    after (.openPort .reset) (closed (.openPort .reset) .start)
      (fun t => (t.portOpen, t.rate, t.hist)) = some (true, .reset, [.opened .reset]) := by decide
/-- T-5, X-4. -/
theorem test_open_twice :
    after (.openPort .reset) (running (.openPort .reset) .start)
      (fun t => (t.statusWord, t.hist)) = some (0x0000071A, []) := by decide
/-- T-10. -/
theorem test_close :
    after .close { running .close .start with rx := [0x55] }
      (fun t => (t.portOpen, t.rx, t.hist)) = some (false, [], [.closed]) := by decide
/-- T-11. -/
theorem test_close_closed :
    after .close (closed .close .start) (fun t => (t.statusWord, t.hist)) =
      some (0x00000002, []) := by decide
/-- T-7: the FIFO is emptied though the rate does not change. -/
theorem test_switchRate :
    after (.switchRate .data) { running (.switchRate .data) .start with rx := [0x11] }
      (fun t => (t.rx, t.rate, t.hist)) = some ([], .data, [.setRate .data]) := by decide
/-- T-8. -/
theorem test_switchRate_fails :
    after (.switchRate .reset) { running (.switchRate .reset) .start with answer := .fail 0 }
      (fun t => (t.portOpen, t.hist, t.seq)) =
      some (false, [.setRate .reset], .run (.switchRate .reset) (.raised .transport)) := by decide
/-- T-12. -/
theorem test_flush :
    after .flush { running .flush .start with rx := [0x00, 0xFF] } (fun t => (t.rx, t.hist)) =
      some ([], [.flush]) := by decide
/-- T-13, its last step. -/
theorem test_flush_closed :
    after .flush (closed .flush (.raised .transport)) State.statusWord = some 0x00000102 := by decide
/-- T-17: a short write. -/
theorem test_uartWrite_short :
    after (.uartWrite 3 0)
      { running (.uartWrite 3 0) .start with mem := dataAt 0 [1, 2, 3], answer := .fail 1 }
      (fun t => (t.hist, t.seq)) =
      some ([.tx .data [1]], .run (.uartWrite 3 0) (.raised .transport)) := by decide
/-- T-18. -/
theorem test_uartWrite_range :
    after (.uartWrite 1 256) (running (.uartWrite 1 256) .start) State.statusWord =
      some 0x0000081A := by decide
/-- T-19, its last step: DATA[4]. -/
theorem test_uartRead_stores :
    after (.uartRead 1 4) { running (.uartRead 1 4) (done [0xE0]) with rx := [0x11] }
      (fun t => (Memory.read t.mem 0x104, Memory.read t.mem 0x105, t.rx, t.statusWord)) =
      some (some 0xE0, none, [0x11], 0x0000001A) := by decide
/-- T-20: a timeout consumes what is there and writes nothing. -/
theorem test_uartRead_timeout :
    after (.uartRead 2 0)
      { running (.uartRead 2 0) .start with
        mem := dataAt 0 [0xAA, 0xBB], rx := [0xE0] }
      (fun t => (t.rx, t.hist, t.mem)) =
      some ([], [.rx [0xE0]], dataAt 0 [0xAA, 0xBB]) := by decide

/-- B-R1, its last step. -/
theorem test_owReset_presence :
    after .owReset (running .owReset (done [0xE0])) (fun t => (t.result, t.statusWord)) =
      some (0x0000E001, 0x0000001E) := by decide
/-- B-R3, its last step: a line held low is no presence. -/
theorem test_owReset_line_low :
    after .owReset (running .owReset (done [0x00])) (fun t => (t.result, t.statusWord)) =
      some (0x00000000, 0x0000001A) := by decide
/-- B-T4: seventeen bits go out as a chunk of sixteen first. -/
theorem test_owTouch_chunk :
    after (.owTouch 17 0)
      { running (.owTouch 17 0) .start with mem := dataAt 0 (List.replicate 17 0x01) }
      (fun t => t.hist) = some [.tx .data (List.replicate 16 0xFF)] := by decide +kernel
/-- B-T7, its last step: only bit 0 of each echo counts. -/
theorem test_owTouch_response :
    after (.owTouch 3 0) (running (.owTouch 3 0) (done [0xFF, 0xFE, 0x03]))
      (fun t => Memory.readBytes t.mem 0x100 3) = some (some [0x01, 0x00, 0x01]) := by decide
/-- B-W1. -/
theorem test_owWriteByte :
    after (.owWriteByte 0x55) (running (.owWriteByte 0x55) .start) (fun t => t.hist) =
      some [.tx .data [0xFF, 0x00, 0xFF, 0x00, 0xFF, 0x00, 0xFF, 0x00]] := by decide
/-- B-W1: RESULT is unchanged. -/
theorem test_owWriteByte_result :
    after (.owWriteByte 0x55) { running (.owWriteByte 0x55) (done [0x00]) with result := 7 }
      (fun t => (t.result, t.statusWord)) = some (7, 0x0000001A) := by decide
/-- B-RB1, its last step. -/
theorem test_owReadByte :
    after .owReadByte
      (running .owReadByte (done [0xFF, 0xFE, 0xFE, 0xFE, 0xFF, 0xFE, 0xFE, 0xFF]))
      (fun t => t.result) = some 0x00000091 := by decide
/-- B-RB1, its first step. -/
theorem test_owReadByte_slots :
    after .owReadByte (running .owReadByte .start) (fun t => t.hist) =
      some [.tx .data (List.replicate 8 0xFF)] := by decide
/-- B-S1: the wire bytes of A. -/
theorem test_owSelect :
    txBytes (selectPrims 0x1E00000000000028) =
      [0xFF, 0x00, 0xFF, 0x00, 0xFF, 0x00, 0xFF, 0x00,
       0x00, 0x00, 0x00, 0xFF, 0x00, 0xFF, 0x00, 0x00]
        ++ List.replicate 48 0x00 ++ [0x00, 0xFF, 0xFF, 0xFF, 0xFF, 0x00, 0x00, 0x00] := by
  decide +kernel
/-- B-S4. -/
theorem test_owSelect_closed :
    after (.owSelect 0) (closed (.owSelect 0) .start) (fun t => (t.hist, t.seq)) =
      some ([], .run (.owSelect 0) (.raised .transport)) := by decide

/-- S-E1, its last step. -/
theorem test_search_no_presence :
    after .owSearch (running .owSearch (.going .reset [] [0xF0]))
      (fun t => (t.result, t.srchStatWord, t.statusWord)) =
      some (0, 0x00000200, 0x0000021A) := by decide
/-- S-C1, round 2 of S-3 at position 9: the replayed direction 0 records the marker. -/
theorem test_search_marker :
    after .owSearch
      { running .owSearch (.going (.pair 9 0x28 0) [] [0xFE, 0xFE]) with
        ld := 10, ref := 0x1E00000000000028, pseen := true }
      (fun t => t.seq) =
      some (.run .owSearch (.going (.direct 9 false 0x28 9) [.delay .chunkSettle, .uartRx 1] [])) := by
  decide
/-- CRC-O1. -/
theorem test_crcCompute :
    after (.crcCompute 7 0)
      { closed (.crcCompute 7 0) .start with mem := dataAt 0 [0x28, 0, 0, 0, 0, 0, 0] }
      (fun t => (t.result, t.err)) = some (0x0000001E, .ok) := by decide +kernel
/-- CRC-O9. -/
theorem test_crcCompute_unwritten :
    after (.crcCompute 1 0) (closed (.crcCompute 1 0) .start) (fun t => t.result) = none := by decide
/-- CRC-O3. -/
theorem test_crcValidate_bad :
    after (.crcValidate 8 0)
      { closed (.crcValidate 8 0) .start with mem := dataAt 0 [0x28, 0, 0, 0x10, 0, 0, 0, 0x1E] }
      (fun t => (t.result, t.err)) = some (0x00007C00, .dataIntegrity) := by decide +kernel
/-- CRC-O7: no wrap at 2^32. -/
theorem test_crcValidate_range :
    after (.crcValidate 2 0xFFFFFFFF) (closed (.crcValidate 2 0xFFFFFFFF) .start)
      (fun t => (t.result, t.err)) = some (0, .argRange) := by decide
/-- CRC-3: the published check value. -/
theorem test_crc8_check :
    crc8 [0x31, 0x32, 0x33, 0x34, 0x35, 0x36, 0x37, 0x38, 0x39] = 0xA1 := by decide +kernel

/-- 30_encoding.md R61: the response is bit 0 of the echo. -/
theorem test_wireTouch1 :
    after .wireTouch1 (running .wireTouch1 (done [0xFE])) (fun t => t.touchResp) =
      some (some false) := by decide
theorem test_wireTouch0 :
    after .wireTouch0 (running .wireTouch0 .start) (fun t => t.hist) =
      some [.tx .data [0x00]] := by decide
/-- 30_encoding.md R62, echo of B-R4. -/
theorem test_wireReset :
    after .wireReset (running .wireReset (done [0xF1])) (fun t => (t.present, t.result)) =
      some (true, 0) := by decide
/-- B-W1. -/
theorem test_romMatch :
    after .romMatch (running .romMatch .start) (fun t => t.hist) =
      some [.tx .data [0xFF, 0x00, 0xFF, 0x00, 0xFF, 0x00, 0xFF, 0x00]] := by decide
/-- B-W2. -/
theorem test_romSearch :
    after .romSearch (running .romSearch .start) (fun t => t.hist) =
      some [.tx .data [0x00, 0x00, 0x00, 0x00, 0xFF, 0xFF, 0xFF, 0xFF]] := by decide
/-- B-W3. -/
theorem test_fnConvertT :
    after .fnConvertT (running .fnConvertT .start) (fun t => t.hist) =
      some [.tx .data [0x00, 0x00, 0xFF, 0x00, 0x00, 0x00, 0xFF, 0x00]] := by decide
/-- B-W4. -/
theorem test_fnReadScratchpad :
    after .fnReadScratchpad (running .fnReadScratchpad .start) (fun t => t.hist) =
      some [.tx .data [0x00, 0xFF, 0xFF, 0xFF, 0xFF, 0xFF, 0x00, 0xFF]] := by decide

/-- H-5, its load: little-endian. -/
theorem test_host_load :
    (nextState? (hostRead .w32 0x100
      { State.reset with mem := dataAt 0 [0x91, 0x01, 0x4B, 0x46] })).map (fun t => t.hostData) =
      some 0x464B0191 := by decide
/-- H-6, its store. -/
theorem test_host_store :
    Memory.read (hostWrite .w32 0x104 0x0FFF7F46 State.reset).mem 0x105 = some 0x7F := by decide
/-- H-4: STATUS ignores writes. -/
theorem test_host_status_write :
    hostWrite .w32 0x004 0xFFFFFFFF State.reset = State.reset := by decide
/-- X-7: a store to CMD while BUSY is dropped. -/
theorem test_cmd_while_busy :
    hostWrite .w32 0x000 0 (running .owSearch .start) =
      { running .owSearch .start with ovr := true } := by decide

/-- A placed instruction is the one the next step runs. -/
theorem test_withFetchWord :
    (nextState? (step (State.reset.withFetchWord 8 0x31))).map (fun t => (t.result, t.done)) =
      some (1, true) := by decide +kernel
/-- T-1 on a placed NOP; CRC-O4 above on a placed CRC_VALIDATE 0, 0. -/
theorem test_withFetchWord_nop :
    (nextState? (step (State.reset.withFetchWord 8 0x00))).map State.statusWord =
      some 0x00000002 := by decide

/-! ### The SimBus fixture and the assembler -/

/-- Scratchpad s1 of 95_test_vectors.md section 0. -/
def s1 : SimBus.Scratchpad := #v[0x91, 0x01, 0x4B, 0x46, 0x7F, 0xFF, 0x0F, 0x10, 0x25]

/-- Two devices with one address are no bus; A and B are (43_rom_search.md R104). -/
theorem test_simbus_distinct :
    SimBus.isBus [.fresh 0x1E00000000000028 s1, .fresh 0x1E00000000000028 s1] = false ∧
    (SimBus.Sys.begin State.reset
      [(0x1E00000000000028, s1), (0x7000000000000228, s1)]).wellFormed = true := by decide

/-- 43_rom_search.md R104: a scratchpad goes out byte 0 first, least significant bit first, and the device
is IDLE after its 72 bits. -/
theorem test_simbus_scratchpad :
    (SimBus.dataBytes [⟨0, s1, .scratch 0⟩] (List.replicate 8 0xFF)).2 =
      [0xFF, 0xFE, 0xFE, 0xFE, 0xFF, 0xFE, 0xFE, 0xFF] ∧
    SimBus.dataByte [⟨0, s1, .scratch 69⟩] 0xFF = ([⟨0, s1, .scratch 70⟩], 0xFF) ∧
    SimBus.dataByte [⟨0, s1, .scratch 71⟩] 0xFF = ([⟨0, s1, .idle⟩], 0xFE) := by decide +kernel

/-- B-R1, B-R2: the echo of a reset with and without devices. -/
theorem test_simbus_reset :
    (SimBus.transmit [.fresh 0x1E00000000000028 s1] .reset [0xF0]).2 = [0xE0] ∧
    (SimBus.transmit [] .reset [0xF0]).2 = [0xF0] := by decide
/-- 43_rom_search.md R104: two devices that differ pull both read slots low. -/
theorem test_simbus_discrepancy :
    (SimBus.dataBytes [⟨0, s1, .search 1 0⟩, ⟨1, s1, .search 1 0⟩] [0xFF, 0xFF]).2 =
      [0xFE, 0xFE] := by decide
/-- 30_encoding.md R68. -/
theorem test_expand_select :
    (Assembler.Stmt.owSelect [0x28, 2, 0, 0, 0, 0, 0, 0x70]).expand =
      [.access (.write .w32 0x014 0x00000228), .access (.write .w32 0x018 0x70000000),
       .access (.write .w32 0x000 0x14), .poll] := by decide

/-! ### Witnesses: states and operands that meet the hypotheses of each obligation -/

/-- An idle state whose next turns are given. -/
def idleThen (ts : List Turn) : State := { State.reset with agenda := ts }

/-- A busy state whose next turns are given. -/
def busyThen (ts : List Turn) : State := { running .owSearch .start with agenda := ts }

theorem witness_DecodeOfEncodeGivesBack :
    Instr.wellFormed (.owSelect 0xFFFFFFFFFFFFFFFF) = true := by decide

theorem witness_ReservedOpcodeCompletesIllegal :
    ∃ (s : State) (w : Word) (ans : LineAnswer) (rest : List Turn) (r : Reject),
      s.seq = .idle ∧ s.agenda = .host (.write .w32 0x000 w) :: .engine ans :: rest ∧
      decodeCommand ⟨w, s.arg0, s.arg1, s.rom0, s.rom1⟩ = .error r :=
  ⟨idleThen [.host (.write .w32 0x000 0x32), .engine .ok], 0x32, .ok, [], .reservedOpcode 0x32,
    by decide⟩

theorem witness_CommandAcceptLatchesOrDrops :
    (∃ (s : State) (w : Word) (rest : List Turn),
      s.agenda = .host (.write .w32 0x000 w) :: rest ∧ s.busy = true) ∧
    (∃ (s : State) (w : Word) (rest : List Turn) (i : Instr),
      s.agenda = .host (.write .w32 0x000 w) :: rest ∧ s.busy = false ∧
      decodeCommand ⟨w, s.arg0, s.arg1, s.rom0, s.rom1⟩ = .ok i) ∧
    (∃ (s : State) (w : Word) (rest : List Turn) (r : Reject),
      s.agenda = .host (.write .w32 0x000 w) :: rest ∧ s.busy = false ∧
      decodeCommand ⟨w, s.arg0, s.arg1, s.rom0, s.rom1⟩ = .error r) :=
  ⟨⟨busyThen [.host (.write .w32 0x000 0)], 0, [], by decide⟩,
   ⟨idleThen [.host (.write .w32 0x000 0x31)], 0x31, [], .crcValidate 0 0, by decide⟩,
   ⟨idleThen [.host (.write .w32 0x000 0x2F)], 0x2F, [], .reservedOpcode 0x2F, by decide⟩⟩

theorem witness_StepRunsTheDecodedInstruction :
    (∃ (s : State) (w : Word) (ans : LineAnswer) (rest : List Turn) (i : Instr),
      s.seq = .idle ∧ s.agenda = .host (.write .w32 0x000 w) :: .engine ans :: rest ∧
      decodeCommand ⟨w, s.arg0, s.arg1, s.rom0, s.rom1⟩ = .ok i) ∧
    (∃ (s : State) (i : Instr) (pos : Pos) (ans : LineAnswer) (rest : List Turn),
      s.seq = .run i pos ∧ s.agenda = .engine ans :: rest) :=
  ⟨⟨idleThen [.host (.write .w32 0x000 0x01), .engine .ok], 0x01, .ok, [], .openPort .reset,
      by decide⟩,
   ⟨busyThen [.engine (.fail 0)], .owSearch, .start, .fail 0, [], by decide⟩⟩

theorem witness_OnlyACommandStoreStartsAnOperation :
    ∃ s t : State, s.busy = false ∧ step s = .next t ∧ t.busy = true :=
  ⟨idleThen [.host (.write .w32 0x000 0x20)], _, by decide, rfl, by decide⟩

theorem witness_LineAppendsOnlyWhileOpen :
    (∃ (s : State) (v : Byte) (rest : List Turn), s.agenda = .line v :: rest ∧ s.portOpen = true) ∧
    (∃ (s : State) (v : Byte) (rest : List Turn), s.agenda = .line v :: rest ∧ s.portOpen = false) :=
  ⟨⟨busyThen [.line 0xFF], 0xFF, [], by decide⟩, ⟨idleThen [.line 0xFF], 0xFF, [], by decide⟩⟩

theorem witness_CompletionReportsAndRollsNothingBack :
    (∃ (i : Instr) (s : State) (e : ErrCode), i ≠ .owSearch ∧ s.seq = .run i (.raised e)) ∧
    (∃ (i : Instr) (pos : Pos) (s t : State), s.seq = .run i pos ∧ exec i s = .next t ∧
      t.busy = false) :=
  ⟨⟨.owReset, running .owReset (.raised .transport), .transport, by decide⟩,
   ⟨.owReset, done [0xE0], running .owReset (done [0xE0]), _, rfl, rfl, by decide⟩⟩

/-- At the start of each operation that a flush opens, and where a later round begins, on a valid and on
an invalid candidate; both with the port open and closed. -/
theorem witness_FlushAndDelaySteps_opening :
    (∀ i : Instr, (running i .start).seq = .run i .start ∧ (running i .start).portOpen = true ∧
      (closed i .start).seq = .run i .start ∧ (closed i .start).portOpen = false) ∧
    (∃ (s : State) (d : Bool) (cand : Rom) (marker : Nat) (got : List Byte),
      s.seq = .run .owSearch (.going (.direct 64 d cand marker) [] got) ∧ marker ≠ 0 ∧
      crc8 (romBytes (setBit cand 64 d)) ≠ 0) ∧
    (∃ (s : State) (d : Bool) (cand : Rom) (marker : Nat) (got : List Byte),
      s.seq = .run .owSearch (.going (.direct 64 d cand marker) [] got) ∧ marker ≠ 0 ∧
      s.cnt ≠ s.params.maxDevices) :=
  ⟨fun _ => ⟨rfl, rfl, rfl, rfl⟩,
   ⟨running .owSearch (.going (.direct 64 false 0x28 1) [] []), false, 0x28, 1, [],
    by decide +kernel⟩,
   ⟨running .owSearch (.going (.direct 64 false 0 64) [] []), false, 0, 64, [], by decide⟩⟩

theorem witness_FlushAndDelaySteps :
    (∃ (i : Instr) (ph : Phase) (rest : List Prim) (got : List Byte) (s : State),
      s.seq = .run i (.going ph (.uartFlush :: rest) got) ∧ s.portOpen = true) ∧
    (∃ (i : Instr) (ph : Phase) (rest : List Prim) (got : List Byte) (s : State),
      s.seq = .run i (.going ph (.uartFlush :: rest) got) ∧ s.portOpen = false) ∧
    (∃ (i : Instr) (ph : Phase) (p : TimeParam) (rest : List Prim) (got : List Byte) (s : State),
      s.seq = .run i (.going ph (.delay p :: rest) got)) :=
  ⟨⟨.owReset, .plain, [], [], running .owReset (.going .plain [.uartFlush] []), by decide⟩,
   ⟨.owReset, .plain, [], [], closed .owReset (.going .plain [.uartFlush] []), by decide⟩,
   ⟨.owReset, .plain, .resetSettle, [.uartRx 1], [],
    running .owReset (.going .plain [.delay .resetSettle, .uartRx 1] []), by decide⟩⟩

/-- A rate switch at hand; the transmit and the read below likewise. -/
def switching : State := running .owReset (.going .plain [.uartSetRate .reset] [])

theorem witness_RateSwitchReopensOrCloses :
    (∃ (i : Instr) (ph : Phase) (r : Rate) (rest : List Prim) (got : List Byte) (s : State),
      s.seq = .run i (.going ph (.uartSetRate r :: rest) got) ∧ s.portOpen = true ∧
      s.answer = .ok) ∧
    (∃ (i : Instr) (ph : Phase) (r : Rate) (rest : List Prim) (got : List Byte) (s : State) (k : Nat),
      s.seq = .run i (.going ph (.uartSetRate r :: rest) got) ∧ s.portOpen = true ∧
      s.answer = .fail k) ∧
    (∃ (i : Instr) (ph : Phase) (r : Rate) (rest : List Prim) (got : List Byte) (s : State),
      s.seq = .run i (.going ph (.uartSetRate r :: rest) got) ∧ s.portOpen = false) :=
  ⟨⟨.owReset, .plain, .reset, [], [], switching, by decide⟩,
   ⟨.owReset, .plain, .reset, [], [], { switching with answer := .fail 0 }, 0, by decide⟩,
   ⟨.owReset, .plain, .reset, [], [], { switching with portOpen := false }, by decide⟩⟩

def sending (bs : List Byte) : State := running .owReset (.going .plain [.uartTx bs] [])

theorem witness_TransmitSendsAllOrAProperBeginning :
    (∃ (i : Instr) (ph : Phase) (bs : List Byte) (rest : List Prim) (got : List Byte) (s : State),
      s.seq = .run i (.going ph (.uartTx bs :: rest) got) ∧ s.portOpen = false) ∧
    (∃ (i : Instr) (ph : Phase) (bs : List Byte) (rest : List Prim) (got : List Byte) (s : State),
      s.seq = .run i (.going ph (.uartTx bs :: rest) got) ∧ s.portOpen = true ∧ bs = []) ∧
    (∃ (i : Instr) (ph : Phase) (bs : List Byte) (rest : List Prim) (got : List Byte) (s : State),
      s.seq = .run i (.going ph (.uartTx bs :: rest) got) ∧ s.portOpen = true ∧ bs ≠ [] ∧
      s.answer = .ok) ∧
    (∃ (i : Instr) (ph : Phase) (bs : List Byte) (rest : List Prim) (got : List Byte) (s : State)
      (k : Nat), s.seq = .run i (.going ph (.uartTx bs :: rest) got) ∧ s.portOpen = true ∧ bs ≠ [] ∧
      s.answer = .fail k ∧ k < bs.length) :=
  ⟨⟨.owReset, .plain, [], [], [], { sending [] with portOpen := false }, by decide⟩,
   ⟨.owReset, .plain, [], [], [], sending [], by decide⟩,
   ⟨.owReset, .plain, [0xF0], [], [], sending [0xF0], by decide⟩,
   ⟨.owReset, .plain, [0xF0, 0x00], [], [], { sending [0xF0, 0x00] with answer := .fail 1 }, 1,
    by decide⟩⟩

def reading (n : Nat) (rx : List Byte) : State :=
  { running .owReset (.going .plain [.uartRx n] []) with rx := rx }

theorem witness_ReadCompletesOrTimesOut :
    (∃ (i : Instr) (ph : Phase) (n : Nat) (rest : List Prim) (got : List Byte) (s : State),
      s.seq = .run i (.going ph (.uartRx n :: rest) got) ∧ s.portOpen = false) ∧
    (∃ (i : Instr) (ph : Phase) (n : Nat) (rest : List Prim) (got : List Byte) (s : State),
      s.seq = .run i (.going ph (.uartRx n :: rest) got) ∧ s.portOpen = true ∧ n = 0) ∧
    (∃ (i : Instr) (ph : Phase) (n : Nat) (rest : List Prim) (got : List Byte) (s : State),
      s.seq = .run i (.going ph (.uartRx n :: rest) got) ∧ s.portOpen = true ∧ 0 < n ∧
      n ≤ s.rx.length) ∧
    (∃ (i : Instr) (ph : Phase) (n : Nat) (rest : List Prim) (got : List Byte) (s : State),
      s.seq = .run i (.going ph (.uartRx n :: rest) got) ∧ s.portOpen = true ∧
      s.rx.length < n) :=
  ⟨⟨.owReset, .plain, 1, [], [], { reading 1 [] with portOpen := false }, by decide⟩,
   ⟨.owReset, .plain, 0, [], [], reading 0 [], by decide⟩,
   ⟨.owReset, .plain, 1, [], [], reading 1 [0xE0], by decide⟩,
   ⟨.owReset, .plain, 2, [], [], reading 2 [0xE0], by decide⟩⟩

/-- A schedule that gives every turn to the ENGINE, and the run of a read that times out under it. -/
def engineOnly : Nat → Turn := fun _ => .engine .ok

def timedOut : State := { reading 2 [] with seq := .run .owReset (.raised .transport),
                                            hist := [.rx [0xE0]] }

def readRun : Nat → State
  | 0 => reading 2 [0xE0]
  | 1 => timedOut
  | _ => { timedOut with seq := .idle, done := true, err := .transport }

theorem readRun_runs : RunsUnder engineOnly readRun := by
  intro k
  match k with
  | 0 => rfl
  | 1 => rfl
  | _ + 2 => rfl

/-- A fair run in which a read is come to. -/
theorem witness_ReadCompletesOrTimesOut_fair :
    RunsUnder engineOnly readRun ∧ EngineFair engineOnly ∧ pendingRead (readRun 0) = some 2 :=
  ⟨readRun_runs, fun k => ⟨k, le_refl k, rfl⟩, rfl⟩

theorem witness_FailedTransmitRaisesAndSendsABeginning :
    ∃ (i : Instr) (s t : State) (k : Nat) (bs : List Byte), s.answer = .fail k ∧
      exec i { s with answer := .ok } = .next t ∧ t.hist = s.hist ++ [.tx s.rate bs] :=
  ⟨.wireTouch0, { running .wireTouch0 .start with answer := .fail 0 }, _, 0, [0x00], rfl, rfl,
    by decide⟩

theorem witness_NothingOnTheWireWhileClosed :
    ∃ (i : Instr) (s t : State), s.portOpen = false ∧ exec i s = .next t :=
  ⟨.flush, closed .flush .start, _, rfl, rfl⟩

/-- The opcode hypotheses of the operations' statements. -/
theorem witness_opcodes :
    [(0x00 : Word), 0x01, 0x02, 0x03, 0x04, 0x05, 0x06, 0x10, 0x11, 0x12, 0x13, 0x14, 0x20, 0x30,
      0x31].all (fun w => decide ((CmdImage.plain w).op.setWidth 32 = w)) = true := by decide

/-- Each operation at its start, at its end and after a raise, port open and closed: the hypotheses of the
statements about NOP, OPEN, CLOSE, SWITCH_RATE, FLUSH and of the wire codes. -/
theorem witness_positions (i : Instr) :
    (running i .start).seq = .run i .start ∧ (running i .start).portOpen = true ∧
    (running i .start).answer = .ok ∧
    (closed i .start).seq = .run i .start ∧ (closed i .start).portOpen = false ∧
    ({ closed i .start with answer := .fail 0 } : State).answer = .fail 0 ∧
    (running i (done [])).seq = .run i (.going .plain [] []) ∧
    (running i (done [0xFE])).seq = .run i (.going .plain [] [0xFE]) ∧
    (running i (.raised .transport)).seq = .run i (.raised .transport) :=
  ⟨rfl, rfl, rfl, rfl, rfl, rfl, rfl, rfl, rfl⟩

/-- An operand exactly filling the buffer, all written; one byte beyond it; one unwritten. -/
def full (i : Instr) : State :=
  { running i .start with
    params := ⟨16, 1⟩, mem := dataAt 0 (List.replicate 16 0x01) }

theorem witness_UartWriteSendsDataBytes :
    (∃ s : State, s.seq = .run (.uartWrite 1 16) .start ∧
      s.params.bufBytes < (16 : Word).toNat + (1 : Word).toNat) ∧
    (∃ s : State, s.seq = .run (.uartWrite 16 0) .start ∧
      (0 : Word).toNat + (16 : Word).toNat ≤ s.params.bufBytes ∧
      Memory.readBytes s.mem (0x100 + (0 : Word).toNat) (16 : Word).toNat = none) ∧
    (∃ s : State, s.seq = .run (.uartWrite 16 0) .start ∧ s.portOpen = true ∧ s.answer = .ok ∧
      (0 : Word).toNat + (16 : Word).toNat ≤ s.params.bufBytes ∧
      Memory.readBytes s.mem (0x100 + (0 : Word).toNat) (16 : Word).toNat =
        some (List.replicate 16 0x01)) ∧
    (∃ s : State, s.seq = .run (.uartWrite 0 16) .start ∧ s.portOpen = true ∧
      (16 : Word).toNat + (0 : Word).toNat ≤ s.params.bufBytes ∧
      Memory.readBytes s.mem (0x100 + (16 : Word).toNat) (0 : Word).toNat = some []) ∧
    (∃ s : State, s.seq = .run (.uartWrite 1 15) .start ∧ s.answer = .fail 0 ∧
      (15 : Word).toNat + (1 : Word).toNat ≤ s.params.bufBytes ∧
      Memory.readBytes s.mem (0x100 + (15 : Word).toNat) (1 : Word).toNat = some [0x01]) :=
  ⟨⟨full (.uartWrite 1 16), by decide⟩,
   ⟨{ full (.uartWrite 16 0) with mem := dataAt 0 (List.replicate 15 0x01) }, by decide +kernel⟩,
   ⟨full (.uartWrite 16 0), by decide +kernel⟩,
   ⟨full (.uartWrite 0 16), by decide⟩,
   ⟨{ full (.uartWrite 1 15) with answer := .fail 0 }, by decide +kernel⟩⟩

theorem witness_UartReadStoresWhatItRead :
    (∃ s : State, s.seq = .run (.uartRead 1 16) .start ∧
      s.params.bufBytes < (16 : Word).toNat + (1 : Word).toNat) ∧
    (∃ s : State, s.seq = .run (.uartRead 0 16) .start ∧ s.portOpen = true ∧
      (16 : Word).toNat + (0 : Word).toNat ≤ s.params.bufBytes) ∧
    (∃ s : State, s.seq = .run (.uartRead 1 15) .start ∧ s.portOpen = true ∧
      (15 : Word).toNat + (1 : Word).toNat ≤ s.params.bufBytes ∧
      (1 : Word).toNat ≤ s.rx.length) ∧
    (∃ s : State, s.seq = .run (.uartRead 2 14) .start ∧ s.portOpen = true ∧
      (14 : Word).toNat + (2 : Word).toNat ≤ s.params.bufBytes ∧
      s.rx.length < (2 : Word).toNat) ∧
    (∃ (s : State) (bs : List Byte), s.seq = .run (.uartRead 1 15) (.going .plain [] bs) ∧
      bs.length = (1 : Word).toNat ∧ Memory.wf s.mem = true) :=
  ⟨⟨full (.uartRead 1 16), by decide⟩,
   ⟨full (.uartRead 0 16), by decide⟩,
   ⟨{ full (.uartRead 1 15) with rx := [0xE0] }, by decide⟩,
   ⟨{ full (.uartRead 2 14) with rx := [0xE0] }, by decide⟩,
   ⟨{ full .nop with seq := .run (.uartRead 1 15) (done [0xE0]) }, [0xE0], by decide +kernel⟩⟩

theorem witness_CrcConsequences :
    (0x00 : Byte) ≠ 0xFF ∧ crcValid ([] ++ (0x00 : Byte) :: []) = true := by decide

theorem witness_CrcComputeWritesTheCrc :
    (∃ s : State, s.seq = .run (.crcCompute 2 0xFFFFFFFF) .start ∧
      s.params.bufBytes < (0xFFFFFFFF : Word).toNat + (2 : Word).toNat) ∧
    (∃ s : State, s.seq = .run (.crcCompute 1 0) .start ∧
      (0 : Word).toNat + (1 : Word).toNat ≤ s.params.bufBytes ∧
      Memory.readBytes s.mem (0x100 + (0 : Word).toNat) (1 : Word).toNat = none) ∧
    (∃ s : State, s.seq = .run (.crcCompute 16 0) .start ∧
      (0 : Word).toNat + (16 : Word).toNat ≤ s.params.bufBytes ∧
      Memory.readBytes s.mem (0x100 + (0 : Word).toNat) (16 : Word).toNat =
        some (List.replicate 16 0x01)) :=
  ⟨⟨full (.crcCompute 2 0xFFFFFFFF), by decide⟩,
   ⟨closed (.crcCompute 1 0) .start, by decide⟩,
   ⟨full (.crcCompute 16 0), by decide +kernel⟩⟩

theorem witness_CrcValidateReportsIntegrity :
    (∃ s : State, s.seq = .run (.crcValidate 1 16) .start ∧
      s.params.bufBytes < (16 : Word).toNat + (1 : Word).toNat) ∧
    (∃ s : State, s.seq = .run (.crcValidate 1 0) .start ∧
      (0 : Word).toNat + (1 : Word).toNat ≤ s.params.bufBytes ∧
      Memory.readBytes s.mem (0x100 + (0 : Word).toNat) (1 : Word).toNat = none) ∧
    (∃ s : State, s.seq = .run (.crcValidate 0 16) .start ∧
      (16 : Word).toNat + (0 : Word).toNat ≤ s.params.bufBytes ∧
      Memory.readBytes s.mem (0x100 + (16 : Word).toNat) (0 : Word).toNat = some []) :=
  ⟨⟨full (.crcValidate 1 16), by decide⟩,
   ⟨closed (.crcValidate 1 0) .start, by decide⟩,
   ⟨full (.crcValidate 0 16), by decide⟩⟩

theorem witness_OwResetRunsToPresence :
    ∃ (s : State) (e : Byte) (rest : List Turn),
      s.seq = .run .owReset .start ∧ s.portOpen = true ∧
      s.agenda = [.engine .ok, .engine .ok, .engine .ok, .line e, .engine .ok, .engine .ok,
                  .engine .ok, .engine .ok] ++ rest :=
  ⟨{ running .owReset .start with
      agenda := [.engine .ok, .engine .ok, .engine .ok, .line 0xE0, .engine .ok, .engine .ok,
                 .engine .ok, .engine .ok] }, 0xE0, [], by decide⟩

theorem witness_TouchSendsEveryBitInChunks :
    ∃ (bits : List Bool) (bs : List Byte), Prim.uartTx bs ∈ touchPrims bits ∧ bits ≠ [] :=
  ⟨[true], [0xFF], by decide⟩

theorem witness_OwTouchBeginsAndWritesBack :
    (∃ s : State, s.seq = .run (.owTouch 1 16) .start ∧
      s.params.bufBytes < (16 : Word).toNat + (1 : Word).toNat) ∧
    (∃ s : State, s.seq = .run (.owTouch 1 0) .start ∧
      (0 : Word).toNat + (1 : Word).toNat ≤ s.params.bufBytes ∧
      Memory.readBytes s.mem (0x100 + (0 : Word).toNat) (1 : Word).toNat = none) ∧
    (∃ s : State, s.seq = .run (.owTouch 0 16) .start ∧
      (16 : Word).toNat ≤ s.params.bufBytes) ∧
    (∃ s : State, s.seq = .run (.owTouch 16 0) .start ∧ s.portOpen = true ∧ s.answer = .ok ∧
      (0 : Word).toNat + (16 : Word).toNat ≤ s.params.bufBytes ∧ (16 : Word) ≠ 0 ∧
      Memory.readBytes s.mem (0x100 + (0 : Word).toNat) (16 : Word).toNat =
        some (List.replicate 16 0x01)) ∧
    (∃ s : State, s.seq = .run (.owTouch 1 15) .start ∧ s.portOpen = false ∧
      (15 : Word).toNat + (1 : Word).toNat ≤ s.params.bufBytes ∧
      Memory.readBytes s.mem (0x100 + (15 : Word).toNat) (1 : Word).toNat = some [0x01]) ∧
    (∃ (s : State) (es : List Byte), s.seq = .run (.owTouch 1 15) (.going .plain [] es) ∧
      es.length = (1 : Word).toNat ∧ Memory.wf s.mem = true) :=
  ⟨⟨full (.owTouch 1 16), by decide⟩,
   ⟨closed (.owTouch 1 0) .start, by decide⟩,
   ⟨full (.owTouch 0 16), by decide⟩,
   ⟨full (.owTouch 16 0), by decide +kernel⟩,
   ⟨{ full (.owTouch 1 15) with portOpen := false }, by decide +kernel⟩,
   ⟨{ full .nop with seq := .run (.owTouch 1 15) (done [0xFE]) }, [0xFE], by decide +kernel⟩⟩

/-- Seventeen bits: two chunks. -/
theorem witness_OwTouchRunKeepsTheBitOrder :
    ∃ (s : State) (bs es : List Byte) (rest : List Turn),
      s.seq = .run (.owTouch 17 0) .start ∧ s.portOpen = true ∧ s.rx = [] ∧
      Memory.wf s.mem = true ∧ (17 : Word) ≠ 0 ∧
      (0 : Word).toNat + (17 : Word).toNat ≤ s.params.bufBytes ∧
      Memory.readBytes s.mem (0x100 + (0 : Word).toNat) (17 : Word).toNat = some bs ∧
      es.length = (17 : Word).toNat ∧ s.agenda = touchTurns es ++ rest :=
  ⟨{ running (.owTouch 17 0) .start with
      mem := dataAt 0 (List.replicate 17 0x01), agenda := touchTurns (List.replicate 17 0xFE) },
    List.replicate 17 0x01, List.replicate 17 0xFE, [], by decide +kernel⟩

theorem witness_OwReadByteAssemblesLsbFirst :
    ∃ (s : State) (es : List Byte), s.seq = .run .owReadByte (.going .plain [] es) ∧
      es.length = 8 :=
  ⟨running .owReadByte (done (List.replicate 8 0xFF)), List.replicate 8 0xFF, by decide⟩

theorem witness_BitPositionsOfAnAddress :
    (1 ≤ 1 ∧ 1 ≤ 64) ∧ (1 ≤ 64 ∧ 64 ≤ 64) := by decide

theorem witness_SearchNeedsPresenceOrAborts :
    (∃ (s : State) (e : Byte), s.seq = .run .owSearch (.going .reset [] [e]) ∧
      (e = 0xF0 ∨ e = 0x00)) ∧
    (∃ (s : State) (e : Byte), s.seq = .run .owSearch (.going .reset [] [e]) ∧ e ≠ 0xF0 ∧
      e ≠ 0x00 ∧ s.portOpen = true ∧ s.answer = .ok) ∧
    (∃ s : State, s.seq = .run .owSearch (.raised .transport)) :=
  ⟨⟨running .owSearch (.going .reset [] [0x00]), 0x00, by decide⟩,
   ⟨running .owSearch (.going .reset [] [0xF1]), 0xF1, by decide⟩,
   ⟨running .owSearch (.raised .transport), by decide⟩⟩

/-- OW_SEARCH after the two read slots of position `p`, the last discrepancy at 10. -/
def atPair (p : Nat) (ea ec : Byte) : State :=
  { running .owSearch (.going (.pair p 0 0) [] [ea, ec]) with
    ld := 10, ref := 0x0000000000000100, pseen := true }

/-- Each clause, at positions 8 and 9 (below the last discrepancy, the reference bit 0 and 1), 10 (at it)
and 11 (beyond it). -/
theorem witness_SearchPositionStep :
    (∀ p ea ec, (atPair p ea ec).seq = .run .owSearch (.going (.pair p 0 0) [] [ea, ec]) ∧
      (atPair p ea ec).portOpen = true ∧ (atPair p ea ec).answer = .ok) ∧
    ((0xFF : Byte).getLsbD 0 = true ∧ (0xFE : Byte).getLsbD 0 = false) ∧
    (9 < (atPair 9 0 0).ld ∧ bitAt (atPair 9 0 0).ref 9 = true) ∧
    (8 < (atPair 8 0 0).ld ∧ bitAt (atPair 8 0 0).ref 8 = false) ∧
    10 = (atPair 10 0 0).ld ∧ (atPair 11 0 0).ld < 11 :=
  ⟨fun _ _ _ => ⟨rfl, rfl, rfl⟩, by decide, by decide, by decide, by decide, by decide⟩

theorem witness_SearchVisitsPositionsInOrder :
    (∃ s : State, s.portOpen = true ∧ s.answer = .ok ∧
      s.seq = .run .owSearch (.going .command [] [])) ∧
    (∃ s : State, s.portOpen = true ∧ s.answer = .ok ∧
      s.seq = .run .owSearch (.going (.direct 63 true 0 0) [] []) ∧ 63 < 64) :=
  ⟨⟨running .owSearch (.going .command [] []), by decide⟩,
   ⟨running .owSearch (.going (.direct 63 true 0 0) [] []), by decide⟩⟩

/-- OW_SEARCH after the last direction of a round. -/
def atRoundEnd (cand : Rom) (marker : Nat) : State :=
  running .owSearch (.going (.direct 64 false cand marker) [] [0x00])

/-- A valid candidate (A), an invalid one (Xi), both markers, and a full table. -/
theorem witness_SearchRoundEnds :
    (∀ cand marker, (atRoundEnd cand marker).seq =
        .run .owSearch (.going (.direct 64 false cand marker) [] [0x00]) ∧
      Memory.wf (atRoundEnd cand marker).mem = true ∧ (atRoundEnd cand marker).portOpen = true) ∧
    crc8 (romBytes (setBit 0x1E00000000000028 64 false)) = 0 ∧
    crc8 (romBytes (setBit 0x0000000000000028 64 false)) ≠ 0 ∧
    (atRoundEnd 0 0).cnt ≠ (atRoundEnd 0 0).params.maxDevices ∧
    ({ atRoundEnd 0 0 with cnt := 64 } : State).cnt = (atRoundEnd 0 0).params.maxDevices :=
  ⟨fun _ _ => ⟨rfl, rfl, rfl⟩, by decide +kernel, by decide +kernel, by decide, by decide⟩

/-- NOP under the ENGINE's turns alone: one turn, and it is done. -/
def nopRun : Nat → State
  | 0 => running .nop .start
  | _ => { running .nop .start with seq := .idle, done := true }

theorem nopRun_runs : RunsUnder engineOnly nopRun := by
  intro k
  match k with
  | 0 => rfl
  | _ + 1 => rfl

/-- Each clause: a step of NOP, the first step of OW_SEARCH, and a run of NOP. -/
theorem witness_OperationsTakeTheStatedSteps :
    (∃ s t : State, s.seq = .run .nop .start ∧ exec .nop s = .next t) ∧
    (∃ s t : State, s.seq = .run .owSearch .start ∧ SeqOk s ∧ exec .owSearch s = .next t) ∧
    (RunsUnder engineOnly nopRun ∧ (nopRun 0).seq = .run .nop .start ∧
      stepsLeft (nopRun 0) + 1 ≤ engineTurns engineOnly 1) :=
  ⟨⟨running .nop .start, _, rfl, rfl⟩, ⟨running .owSearch .start, _, rfl, trivial, rfl⟩,
   nopRun_runs, rfl, by decide⟩

/-- 95_test_vectors.md section 8. -/
theorem test_stepsLeft :
    stepsLeft (running (.openPort .data) .start) = 1 ∧ stepsLeft (running (.owSelect 0) .start) = 27 ∧
    stepsLeft (running (.owTouch 17 0) .start) = 6 ∧ stepsLeft (running .owSearch .start) = 393 ∧
    stepsLeft (running .close .start) = 1 ∧ stepsLeft (closed .close .start) = 0 := by decide

theorem witness_frames :
    (∃ t, exec .nop (running .nop .start) = .next t) ∧
    (∃ t, exec .owReset (running .owReset (done [0xE0])) = .next t) ∧
    (∃ t, exec (.crcCompute 0 0) (running (.crcCompute 0 0) .start) = .next t) ∧
    (∃ t, exec .owSearch (running .owSearch .start) = .next t) :=
  ⟨⟨_, rfl⟩, ⟨_, rfl⟩, ⟨_, rfl⟩, ⟨_, rfl⟩⟩

theorem witness_StoringOperationsKeepTheRest :
    ∃ (s t : State), s.seq = .run (.uartRead 1 4) (.going .plain [] [0xE0]) ∧ SeqOk s ∧
      exec (.uartRead 1 4) s = .next t :=
  ⟨running (.uartRead 1 4) (done [0xE0]), _, rfl, ⟨rfl, by unfold rangeOk; decide, rfl⟩, rfl⟩

theorem witness_ResultIsWrittenOnlyByNamedOperations :
    ∃ s t : State, exec .owReset s = .next t ∧ t.result ≠ s.result :=
  ⟨running .owReset (done [0xE0]), _, rfl, by decide⟩

/-- A store to an operand register while idle, to a read-only one while busy, and to ROMTAB. -/
theorem witness_RegistersTakeStores :
    (∃ (s : State) (v : Word) (rest : List Turn), s.busy = false ∧
      s.agenda = .host (.write .w32 0x008 v) :: rest) ∧
    (∃ (s : State) (v : Word) (rest : List Turn), s.busy = true ∧
      s.agenda = .host (.write .w32 0x004 v) :: rest) ∧
    (∃ (s : State) (v : Word) (rest : List Turn), s.agenda = .host (.write .w32 0x1000 v) :: rest ∧
      0x1000 ≤ (0x1000 : HostAddr).toNat) :=
  ⟨⟨idleThen [.host (.write .w32 0x008 0x12345678)], 0x12345678, [], by decide⟩,
   ⟨busyThen [.host (.write .w32 0x004 0xFFFFFFFF)], 0xFFFFFFFF, [], by decide⟩,
   ⟨idleThen [.host (.write .w32 0x1000 5)], 5, [], by decide⟩⟩

/-- A host load of the last register while idle, and of CMD while busy. -/
theorem witness_RegistersReadTheirState :
    (∃ (s : State) (rest : List Turn), s.busy = true ∧
      s.agenda = .host (.read .w32 0x000) :: rest) ∧
    ∃ (s : State) (a : HostAddr) (v : Word) (rest : List Turn), s.busy = false ∧
      s.agenda = .host (.read .w32 a) :: rest ∧ a = 0x028 ∧ v = s.ref.extractLsb' 32 32 :=
  ⟨⟨busyThen [.host (.read .w32 0x000)], [], by decide⟩,
   ⟨idleThen [.host (.read .w32 0x028)], 0x028, 0, [], by decide⟩⟩

theorem witness_HostLoadsHaveNoSideEffect :
    ∃ (s t : State) (w : Width) (a : HostAddr) (rest : List Turn),
      s.agenda = .host (.read w a) :: rest ∧ step s = .next t :=
  ⟨idleThen [.host (.read .w32 0x004)], _, .w32, 0x004, [], rfl, rfl⟩

/-- Each kind of irregular or reserved access at a boundary, with 18 bytes of DATA and one entry. -/
theorem witness_IrregularAndReservedAccesses :
    (0x001 % Width.w32.bytes ≠ 0) ∧ (0x0FF < 0x100 ∧ Width.w8 ≠ .w32) ∧
    (0x110 < 0x100 + 18 ∧ 0x100 + 18 < 0x110 + Width.w32.bytes) ∧
    (0x02C % Width.w32.bytes = 0 ∧ 0x02C < 0x100) ∧
    (0x112 % Width.w16.bytes = 0 ∧ 0x100 + 18 ≤ 0x112) ∧
    (0x1FFC % Width.w32.bytes = 0 ∧ 0x1000 + 8 * 1 ≤ 0x1FFC) ∧
    (∀ (w : Width) (a : HostAddr) (v : Word),
      (idleThen [.host (.write w a v)]).agenda = .host (.write w a v) :: [] ∧
      (idleThen [.host (.read w a)]).agenda = .host (.read w a) :: []) :=
  ⟨by decide, by decide, by decide, by decide, by decide, by decide, fun _ _ _ => ⟨rfl, rfl⟩⟩

/-- A load of the last word of DATA and of the last of ROMTAB, with one device. -/
theorem witness_DataAndRomtabLoads :
    (∃ (s : State) (bs : List Byte) (rest : List Turn), s.busy = false ∧
      (0x10C : HostAddr).toNat + Width.w32.bytes ≤ 0x100 + s.params.bufBytes ∧
      bs.length = Width.w32.bytes ∧
      (∀ (k : Nat) (hk : k < bs.length), Memory.read s.mem (0x10C + k) = some bs[k]) ∧
      s.agenda = .host (.read .w32 0x10C) :: rest) ∧
    (∃ (s : State) (bs : List Byte) (rest : List Turn), s.busy = false ∧
      (0x1006 : HostAddr).toNat + Width.w16.bytes ≤ 0x1000 + 8 * s.params.maxDevices ∧
      bs.length = Width.w16.bytes ∧
      (∀ (k : Nat) (hk : k < bs.length), Memory.read s.mem (0x1006 + k) = some bs[k]) ∧
      s.agenda = .host (.read .w16 0x1006) :: rest) :=
  ⟨⟨{ full .nop with seq := .idle, agenda := [.host (.read .w32 0x10C)] },
    List.replicate 4 0x01, [], by decide +kernel⟩,
   ⟨{ full .nop with seq := .idle, mem := [(0x1007, 0x1E)], agenda := [.host (.read .w16 0x1006)] },
    [0x00, 0x1E], [], by decide +kernel⟩⟩

theorem witness_DataAndRomtabAreLittleEndian :
    ∃ (s : State) (w : Width) (a : HostAddr) (v : Word) (rest : List Turn),
      s.busy = false ∧ Memory.wf s.mem = true ∧ a.toNat % w.bytes = 0 ∧ 0x100 ≤ a.toNat ∧
      a.toNat < 0x1000 ∧ a.toNat + w.bytes ≤ 0x100 + s.params.bufBytes ∧
      s.agenda = .host (.write w a v) :: .host (.read w a) :: rest :=
  ⟨idleThen [.host (.write .w32 0x1FC 0x0FFF7F46), .host (.read .w32 0x1FC)], .w32, 0x1FC,
    0x0FFF7F46, [], by decide⟩

theorem witness_HostAccessesWhileBusy :
    (∀ ts, (busyThen ts).busy = true ∧ (busyThen ts).agenda = ts) ∧
    ((0x100 : HostAddr).toNat + Width.w8.bytes ≤ 0x100 + (busyThen []).params.bufBytes) ∧
    ((0x11FC : HostAddr).toNat + Width.w32.bytes ≤ 0x1000 + 8 * (busyThen []).params.maxDevices) :=
  ⟨fun _ => ⟨rfl, rfl⟩, by decide, by decide⟩

theorem witness_UnwrittenDataFaults :
    (∃ (s : State) (a : HostAddr) (k : Nat) (rest : List Turn),
      s.busy = false ∧ s.agenda = .host (.read .w32 a) :: rest ∧ a.toNat % Width.w32.bytes = 0 ∧
      0x100 ≤ a.toNat ∧ a.toNat < 0x1000 ∧ a.toNat + Width.w32.bytes ≤ 0x100 + s.params.bufBytes ∧
      k < Width.w32.bytes ∧ Memory.read s.mem (a.toNat + k) = none) ∧
    (∃ (s : State) (k : Nat), s.seq = .run (.owTouch 2 254) .start ∧
      (254 : Word).toNat + (2 : Word).toNat ≤ s.params.bufBytes ∧ k < (2 : Word).toNat ∧
      Memory.read s.mem (0x100 + (254 : Word).toNat + k) = none) :=
  ⟨⟨{ idleThen [.host (.read .w32 0x1FC)] with mem := dataAt 0xFC [1, 2, 3] }, 0x1FC, 3, [],
    by decide⟩,
   ⟨running (.owTouch 2 254) .start, 1, by decide⟩⟩

theorem witness_BlockResetStopsEverything :
    ∃ (s : State) (rest : List Turn), s.agenda = .blockReset :: rest :=
  ⟨busyThen [.blockReset], [], rfl⟩

/-- OW_SEARCH at position 10 of its second round, one address found, its next turn the read of a slot. -/
def midSearch : State :=
  { running .owSearch (.going (.pair 10 0x28 9) [.uartRx 2] []) with
    ld := 10, ref := 0x1E00000000000028, pseen := true, cnt := 1, rx := [0xFE, 0xFE]
    present := true
    mem := [(0x100, 0x01), (0x1000, 0x28), (0x1007, 0x1E)], agenda := [.engine .ok] }

theorem midSearch_inv : Inv midSearch where
  seqOk := by
    refine ⟨?_, trivial, rfl⟩
    rw [phaseOk, if_pos rfl]
    exact ⟨rfl, by decide, by decide, by decide⟩
  memOk := ⟨by decide, by decide⟩
  statusOk := by unfold StatusOk; decide
  linkOk := by unfold LinkOk; decide
  boundsOk := by unfold BoundsOk; decide

/-- A state that meets the invariant and has a next step: for the three statements about the
invariant and for `HistoryOnlyGrows`. -/
theorem witness_EveryStepKeepsTheInvariant : ∃ s t : State, Inv s ∧ step s = .next t :=
  ⟨midSearch, _, midSearch_inv, rfl⟩

end Sys2Proof.Tests
end

/-! ### Proofs: the state (10_state.md)

The rules that the statements about the state are settled from: what a step can grow, what an ENGINE
step can do between accept and completion, which of it reaches memory, and how each agent's turn
keeps the invariant. -/

namespace Sys2Proof.Proofs

open Sys2Proof Sys2Proof.Machine Sys2Proof.Safety

/-! #### One ENGINE step of an operation other than OW_SEARCH -/

/-- The state in which an operation's primitive steps begin or finish: as it was, but with PRESENT
cleared where a bus reset starts (42_bus_engine.md R83). -/
def Entered (i : Instr) (s s' : State) : Prop :=
  s' = s ∨ ((i = .owReset ∨ i = .wireReset) ∧ s' = s.beginReset)

/-- What `SeqOk` says of an operation inside a part. -/
def PartOk (s : State) (i : Instr) (ph : Phase) (todo : List Prim) (got : List Byte) : Prop :=
  phaseOk s i ph ∧ rangeOk s i ∧ got.length + rxTotal todo = bytesRead i ph

theorem partOk_of_seqOk {s : State} {i : Instr} {ph : Phase} {todo : List Prim} {got : List Byte}
    (hq : SeqOk s) (hs : s.seq = .run i (.going ph todo got)) : PartOk s i ph todo got := by
  simpa [SeqOk, PartOk, hs] using hq

theorem raised_of_seqOk {s : State} {i : Instr} {e : ErrCode} (hq : SeqOk s)
    (hs : s.seq = .run i (.raised e)) : e = .transport := by
  simpa [SeqOk, hs] using hq

theorem partOk_of_launch {i : Instr} (hi : i ≠ .owSearch) {s s' : State} {todo : List Prim}
    (h : launchOf i s = .go s' todo) : PartOk s' i .plain todo [] := by
  obtain ⟨hreads, hrange⟩ := launchOf_go_reads hi h
  refine ⟨by simp [phaseOk, hi], ?_, by simpa using hreads⟩
  rcases launchOf_go_state h with rfl | ⟨-, rfl⟩ <;> exact hrange

/-- The three ways an ENGINE step of an operation other than OW_SEARCH gives a next state, as far as
its frame goes: it reports a raise, it finishes, or it performs a primitive step. -/
theorem exec_outcomes {i : Instr} (hi : i ≠ .owSearch) {s t : State} (h : exec i s = .next t) :
    (∃ e, t = s.complete e) ∨
    (∃ s' got, Entered i s s' ∧ finishOf i got s' = .next t) ∨
    (∃ s' ph p rest got, Entered i s s' ∧ stepPrim i ph p rest got s' = .next t) := by
  rcases exec_cases hi h with ⟨e, -, ht⟩ | ⟨s', got, hpos, hf⟩ | ⟨s', ph, p, rest, got, hpos, hp⟩
  · exact .inl ⟨e, ht⟩
  · refine .inr (.inl ⟨s', got, ?_, hf⟩)
    rcases hpos with ⟨-, hl, -⟩ | ⟨rfl, -⟩
    · exact launchOf_go_state hl
    · exact .inl rfl
  · refine .inr (.inr ⟨s', ph, p, rest, got, ?_, hp⟩)
    rcases hpos with ⟨-, hl, -⟩ | ⟨rfl, -⟩
    · exact launchOf_go_state hl
    · exact .inl rfl

/-- The same from a position the sequencer can be at: what is raised, and that each part is in
order. -/
theorem exec_outcomes_of_seqOk {i : Instr} (hi : i ≠ .owSearch) {s t : State} {pos : Pos}
    (hq : SeqOk s) (hs : s.seq = .run i pos) (h : exec i s = .next t) :
    (∃ e, (e = .transport ∨ e = .badState ∨ e = .argRange) ∧ t = s.complete e) ∨
    (∃ s' ph got, Entered i s s' ∧ PartOk s' i ph [] got ∧ finishOf i got s' = .next t) ∨
    (∃ s' ph p rest got, Entered i s s' ∧ PartOk s' i ph (p :: rest) got ∧
      stepPrim i ph p rest got s' = .next t) := by
  have hpos := State.pos_of_run s hs
  rcases exec_cases hi h with ⟨e, he, ht⟩ | ⟨s', got, hc, hf⟩ | ⟨s', ph, p, rest, got, hc, hp⟩
  · refine .inl ⟨e, ?_, ht⟩
    rcases he with he | ⟨-, hl⟩
    · exact .inl (raised_of_seqOk hq (by rw [hs, ← he, hpos]))
    · exact .inr (launchOf_raise hl)
  · right; left
    rcases hc with ⟨-, hl, rfl⟩ | ⟨rfl, ph, hg⟩
    · exact ⟨s', .plain, [], launchOf_go_state hl, partOk_of_launch hi hl, hf⟩
    · exact ⟨s', ph, got, .inl rfl, partOk_of_seqOk hq (by rw [hs, ← hg, hpos]), hf⟩
  · right; right
    rcases hc with ⟨-, hl, rfl, rfl⟩ | ⟨rfl, hg⟩
    · exact ⟨s', .plain, p, rest, [], launchOf_go_state hl, partOk_of_launch hi hl, hp⟩
    · exact ⟨s', ph, p, rest, got, .inl rfl, partOk_of_seqOk hq (by rw [hs, ← hg, hpos]), hp⟩

/-! #### The history, the parameters and the agenda -/

/-- `t` follows `s` with the history kept as a beginning, and the parameters and the agenda as they
were. -/
def Grows (s t : State) : Prop := s.hist <+: t.hist ∧ t.params = s.params ∧ t.agenda = s.agenda

theorem grows_of_stepPrim {i : Instr} {ph : Phase} {p : Prim} {rest : List Prim} {got : List Byte}
    {s t : State} (h : stepPrim i ph p rest got s = .next t) : Grows s t := by
  refine ⟨stepPrim_hist h, ?_, ?_⟩ <;> rw [stepPrim_frame h]

theorem grows_of_finish {i : Instr} {got : List Byte} {s t : State}
    (h : finishOf i got s = .next t) : Grows s t := by
  obtain ⟨p, r, k, m, e, rfl, -⟩ := finishOf_next h
  exact ⟨List.prefix_rfl, rfl, rfl⟩

theorem grows_of_exec {i : Instr} {s t : State} (h : exec i s = .next t) : Grows s t := by
  by_cases hi : i = .owSearch
  · subst hi
    obtain ⟨ld, ldf, ref, pseen, cnt, abort, present, mem, -, hc⟩ := search_cases h
    rcases hc with ⟨c, rfl⟩ | rfl | ⟨ph, p, rest, got, hp⟩
    · exact ⟨List.prefix_rfl, rfl, rfl⟩
    · exact ⟨List.prefix_rfl, rfl, rfl⟩
    · exact (grows_of_stepPrim hp :)
  · rcases exec_outcomes hi h with ⟨e, rfl⟩ | ⟨s', got, hs', hf⟩ | ⟨s', ph, p, rest, got, hs', hp⟩
    · exact ⟨List.prefix_rfl, rfl, rfl⟩
    · rcases hs' with rfl | ⟨-, rfl⟩ <;> exact (grows_of_finish hf :)
    · rcases hs' with rfl | ⟨-, rfl⟩ <;> exact (grows_of_stepPrim hp :)

theorem grows_of_engineTurn {ans : LineAnswer} {s t : State} (h : engineTurn ans s = .next t) :
    Grows s t := by
  unfold engineTurn at h
  split at h
  · cases h; exact ⟨List.prefix_rfl, rfl, rfl⟩
  · cases h; exact ⟨List.prefix_rfl, rfl, rfl⟩
  · exact (grows_of_exec h :)

theorem grows_of_hostWrite (w : Width) (a : HostAddr) (v : Word) (s : State) :
    Grows s (hostWrite w a v s) := by
  unfold hostWrite State.regWrite State.cmdWrite
  repeat' split
  all_goals exact ⟨List.prefix_rfl, rfl, rfl⟩

theorem grows_of_runTurn {tn : Turn} {s t : State} (h : runTurn tn s = .next t) : Grows s t := by
  cases tn with
  | host acc =>
    cases acc with
    | read w a => rw [hostRead_next h]; exact ⟨List.prefix_rfl, rfl, rfl⟩
    | write w a v => cases h; exact grows_of_hostWrite w a v s
  | engine ans => exact grows_of_engineTurn h
  | line v =>
    cases h
    unfold State.lineAppend
    split
    · exact ⟨List.prefix_append _ _, rfl, rfl⟩
    · exact ⟨List.prefix_rfl, rfl, rfl⟩
  | blockReset =>
    cases h
    refine ⟨?_, rfl, rfl⟩
    simp only [State.blockReset]
    split
    · exact List.prefix_append _ _
    · exact List.prefix_rfl

/-- A step is the turn's, on the state with the turn taken. -/
theorem step_eq_runTurn (s : State) :
    ∃ dr, step s = runTurn s.takeTurn.1 { s with agenda := s.agenda.tail, draws := dr } := by
  obtain ⟨dr, htake⟩ := takeTurn_eq s
  exact ⟨dr, by rw [step, htake]⟩

/-- Settles O59: what a turn does grows the history (`grows_of_runTurn`), and taking it takes the
head of the agenda. -/
theorem historyOnlyGrows : Obligations.HistoryOnlyGrows := by
  unfold Obligations.HistoryOnlyGrows
  intro s t h
  obtain ⟨dr, hstep⟩ := step_eq_runTurn s
  exact (grows_of_runTurn (hstep ▸ h) :)

/-! #### What reaches memory -/

/-- The memory of `t` is that of `s` with a block of DATA written, of no byte at least. -/
def DataWrite (s t : State) : Prop :=
  ∃ off bs, off + bs.length ≤ s.params.bufBytes ∧
    t.mem = Memory.writeBytes s.mem (dataAddr off) bs

theorem dataWrite_of_eq {s t : State} (h : t.mem = s.mem) : DataWrite s t :=
  ⟨0, [], by simp, h⟩

/-- An operation that finishes writes only the DATA bytes it read, inside the buffer. -/
theorem dataWrite_of_finish {i : Instr} {ph : Phase} {got : List Byte} {s t : State}
    (hp : PartOk s i ph [] got) (h : finishOf i got s = .next t) : DataWrite s t := by
  obtain ⟨-, hrange, hlen⟩ := hp
  cases i <;> simp only [finishOf, finishOk] at h
  case uartRead n off =>
    cases h
    refine ⟨off.toNat, got, ?_, rfl⟩
    simp only [rangeOk, rxTotal, bytesRead] at hrange hlen
    omega
  case owTouch n off =>
    cases h
    refine ⟨off.toNat, _, ?_, rfl⟩
    simp only [rangeOk, rxTotal, bytesRead, List.length_map] at hrange hlen ⊢
    omega
  case crcCompute n off | crcValidate n off => split at h <;> cases h; exact dataWrite_of_eq rfl
  all_goals cases h; exact dataWrite_of_eq rfl

/-- An ENGINE step of an operation other than OW_SEARCH writes no memory but DATA of the buffer. -/
theorem dataWrite_of_exec {i : Instr} (hi : i ≠ .owSearch) {s t : State} {pos : Pos}
    (hq : SeqOk s) (hs : s.seq = .run i pos) (h : exec i s = .next t) : DataWrite s t := by
  rcases exec_outcomes_of_seqOk hi hq hs h with
    ⟨e, -, rfl⟩ | ⟨s', ph, got, hs', hp, hf⟩ | ⟨s', ph, p, rest, got, hs', -, hp⟩
  · exact dataWrite_of_eq rfl
  · rcases hs' with rfl | ⟨-, rfl⟩ <;> exact (dataWrite_of_finish hp hf :)
  · refine dataWrite_of_eq ?_
    rw [stepPrim_frame hp]
    rcases hs' with rfl | ⟨-, rfl⟩ <;> rfl

/-- A store writes no memory but DATA of the buffer. -/
theorem dataWrite_of_hostWrite (w : Width) (a : HostAddr) (v : Word) (s : State) :
    DataWrite s (hostWrite w a v s) := by
  unfold hostWrite
  split
  · unfold State.regWrite State.cmdWrite
    repeat' split
    all_goals exact dataWrite_of_eq rfl
  · next htarget =>
    obtain ⟨hlo, -, hhi⟩ := accessTarget_data htarget
    split
    · exact dataWrite_of_eq rfl
    · refine ⟨a.toNat - 0x100, bytesOfWord v w.bytes, ?_, ?_⟩
      · rw [bytesOfWord_length]; omega
      · have haddr : dataAddr (a.toNat - 0x100) = a.toNat := by
          simp only [dataAddr, Config.dataBase]; omega
        rw [haddr]
  all_goals exact dataWrite_of_eq rfl

/-- Memory stays in order through a write of DATA. -/
theorem memOk_of_dataWrite {s t : State} (hm : MemOk s) (hw : DataWrite s t)
    (hp : t.params = s.params) (hc : t.cnt = s.cnt) : MemOk t := by
  obtain ⟨hwf, hcells⟩ := hm
  obtain ⟨off, bs, hfit, hmem⟩ := hw
  unfold MemOk
  rw [hmem, hp, hc]
  refine ⟨Memory.wf_writeBytes _ _ _ hwf, fun c hmem' => ?_⟩
  rcases Memory.mem_writeBytes hmem' with ⟨hlo, hhi⟩ | hold
  · left; simp only [dataAddr] at hlo hhi; omega
  · exact hcells c hold

/-- A write of DATA leaves every ROMTAB byte alone. -/
theorem read_romtab_of_dataWrite {s t : State} (hb : BoundsOk s) (hw : DataWrite s t) {a : Nat}
    (ha : 0x1000 ≤ a) : Memory.read t.mem a = Memory.read s.mem a := by
  obtain ⟨hlegal, -, -⟩ := hb
  obtain ⟨off, bs, hfit, hmem⟩ := hw
  simp only [Params.legal, Bool.and_eq_true, decide_eq_true_eq] at hlegal
  rw [hmem]
  refine Memory.read_writeBytes_of_outside _ _ _ _ (.inr ?_)
  simp only [dataAddr, Config.dataBase]
  omega

/-! #### The invariant inside an ENGINE step -/

/-- The causes OW_SEARCH can leave in ABORT (43_rom_search.md R102). -/
def AbortOk (c : ErrCode) : Prop :=
  c = .ok ∨ c = .transport ∨ c = .noPresence ∨ c = .noResponse ∨ c = .resultOverflow

/-- The invariant of a state between accept and completion, but for the sequencer: STATUS is as a
running operation has it. -/
structure BodyOk (s : State) : Prop where
  memOk : MemOk s
  linkOk : LinkOk s
  boundsOk : BoundsOk s
  done_eq : s.done = false
  err_eq : s.err = .ok
  abortOk : AbortOk s.abort

theorem bodyOk_of_inv {s : State} (hi : Inv s) (hb : s.busy = true) : BodyOk s := by
  obtain ⟨hbusy, -, -, habort⟩ := hi.statusOk
  exact ⟨hi.memOk, hi.linkOk, hi.boundsOk, (hbusy hb).1, (hbusy hb).2, habort⟩

theorem bodyOk_of_entered {i : Instr} {s s' : State} (hb : BodyOk s) (h : Entered i s s') :
    BodyOk s' := by
  rcases h with rfl | ⟨-, rfl⟩
  · exact hb
  · exact { hb with }

/-- Completion keeps the invariant, with any code but the two that STATUS never shows. -/
theorem inv_complete {s : State} (hb : BodyOk s) {e : ErrCode} (h1 : e ≠ .noResponse)
    (h2 : e ≠ .deviceLost) : Inv (s.complete e) where
  seqOk := trivial
  memOk := hb.memOk
  statusOk := ⟨by simp, h1, h2, hb.abortOk⟩
  linkOk := hb.linkOk
  boundsOk := hb.boundsOk

/-- A move of the sequencer to a position in order keeps the invariant. -/
theorem inv_setSeq {s : State} (hb : BodyOk s) {q : Seq} (hq : SeqOk (s.setSeq q)) :
    Inv (s.setSeq q) where
  seqOk := hq
  memOk := hb.memOk
  statusOk :=
    ⟨fun _ => ⟨hb.done_eq, hb.err_eq⟩, by simp [hb.err_eq], by simp [hb.err_eq], hb.abortOk⟩
  linkOk := hb.linkOk
  boundsOk := hb.boundsOk

theorem bodyOk_withLink {s : State} (hb : BodyOk s) {o : Bool} {r : Rate} {x : List Byte}
    {es : List Event} (hx : o = false → x = []) : BodyOk (s.withLink o r x es) :=
  { hb with linkOk := hx }

/-- A primitive step keeps the invariant, wherever an operation takes it. -/
theorem inv_of_stepPrim {i : Instr} {ph : Phase} {p : Prim} {rest : List Prim} {got : List Byte}
    {s t : State} (hb : BodyOk s) (hp : PartOk s i ph (p :: rest) got)
    (h : stepPrim i ph p rest got s = .next t) : Inv t := by
  obtain ⟨hph, hrange, hlen⟩ := hp
  rcases stepPrim_cases i ph p rest got s with
    ⟨o, r, x, es, bs, h', hbs, hx⟩ | ⟨o, r, x, es, h', hx⟩
  · rw [h'] at h; cases h
    refine inv_setSeq (bodyOk_withLink hb (hx hb.linkOk)) ⟨hph, hrange, ?_⟩
    rw [rxTotal_cons] at hlen
    rw [List.length_append]
    omega
  · rw [h'] at h; cases h
    exact inv_setSeq (bodyOk_withLink hb (hx hb.linkOk)) rfl

/-- Completion without a raise keeps the invariant. -/
theorem inv_of_finish {i : Instr} {ph : Phase} {got : List Byte} {s t : State} (hb : BodyOk s)
    (hp : PartOk s i ph [] got) (h : finishOf i got s = .next t) : Inv t := by
  have hw := dataWrite_of_finish hp h
  obtain ⟨p, r, k, m, e, rfl, he⟩ := finishOf_next h
  have hmem : MemOk { s with present := p, result := r, touchResp := k, mem := m } :=
    memOk_of_dataWrite hb.memOk hw rfl rfl
  refine inv_complete { hb with memOk := hmem } ?_ ?_ <;>
    rcases he with rfl | rfl <;> decide

/-! #### OW_SEARCH keeps the invariant -/

/-- What OW_SEARCH reports beside ERR leaves the rest in order. -/
theorem bodyOk_reported {s : State} (hb : BodyOk s) {c : ErrCode} (hc : AbortOk c) (r : Word) :
    BodyOk { s with abort := c, result := r } :=
  { hb with abortOk := hc }

theorem inv_finishSearch {s : State} (hb : BodyOk s) : Inv s.finishSearch :=
  inv_complete (bodyOk_reported hb (.inl rfl) _) nofun nofun

/-- An abort keeps the invariant: NO_RESPONSE is raised only after presence was seen, so that ERR
does not show it (43_rom_search.md R102). -/
theorem inv_abortSearch {s : State} (hb : BodyOk s) {c : ErrCode} (hc : AbortOk c)
    (hn : c = .noResponse → s.pseen = true) : Inv (s.abortSearch c) := by
  have hlost : c ≠ .deviceLost := by rcases hc with rfl | rfl | rfl | rfl | rfl <;> decide
  refine inv_complete (bodyOk_reported hb hc _) ?_ ?_
  · split_ifs with hover hseen
    · rw [hover]; decide
    · decide
    · exact fun hnoResponse => hseen (hn hnoResponse)
  · split_ifs with hover hseen
    · exact hlost
    · decide
    · exact hlost

theorem partOk_search {s : State} {ph : Phase} {todo : List Prim} {got : List Byte} :
    PartOk s .owSearch ph todo got ↔
      searchPhaseOk s ph ∧ got.length + rxTotal todo = bytesRead .owSearch ph := by
  simp [PartOk, phaseOk, rangeOk]

/-- The first step of a part keeps the invariant. -/
theorem inv_of_beginPart {ph : Phase} {todo : List Prim} {s t : State}
    (h : beginPart ph todo s = .next t) (hb : BodyOk s) (hph : searchPhaseOk s ph)
    (hlen : rxTotal todo = bytesRead .owSearch ph) : Inv t := by
  have hp : PartOk s .owSearch ph todo [] := partOk_search.2 ⟨hph, by simpa using hlen⟩
  cases todo with
  | nil =>
    cases h
    exact inv_setSeq hb hp
  | cons p rest => exact inv_of_stepPrim hb hp h

/-- A round begins wherever one may: at the start, or with the reference and the marker of the last.
-/
theorem inv_of_beginRound {s t : State} (h : beginRound s = .next t) (hb : BodyOk s) : Inv t :=
  inv_of_beginPart h { hb with } trivial rfl

theorem bodyOk_initSearch {s : State} (hb : BodyOk s) : BodyOk s.initSearch where
  memOk := by
    obtain ⟨hwf, hcells⟩ := hb.memOk
    refine ⟨Memory.wf_clearRomtab _ hwf, fun c hc => ?_⟩
    obtain ⟨hold, hlow⟩ := Memory.mem_clearRomtab.1 hc
    rcases hcells c hold with hdata | ⟨hhigh, -⟩
    · exact .inl hdata
    · omega
  linkOk := hb.linkOk
  boundsOk := ⟨hb.boundsOk.1, Nat.zero_le _, Nat.zero_le _⟩
  done_eq := hb.done_eq
  err_eq := hb.err_eq
  abortOk := .inl rfl

theorem romBytes_length (rom : Rom) : (romBytes rom).length = 8 := rfl

theorem bodyOk_appendRom {s : State} (hb : BodyOk s) (hroom : s.cnt ≠ s.params.maxDevices)
    (cand : Rom) : BodyOk (s.appendRom cand) where
  memOk := by
    obtain ⟨hwf, hcells⟩ := hb.memOk
    refine ⟨Memory.wf_writeBytes _ _ _ hwf, fun c hc => ?_⟩
    rw [State.appendRom_params, State.appendRom_cnt]
    rcases Memory.mem_writeBytes hc with ⟨hlo, hhi⟩ | hold
    · rw [romBytes_length] at hhi
      simp only [romtabAddr] at hlo hhi
      omega
    · have := hcells c hold
      omega
  linkOk := hb.linkOk
  boundsOk := by
    obtain ⟨hlegal, hld, hcnt⟩ := hb.boundsOk
    exact ⟨hlegal, hld, by rw [State.appendRom_cnt, State.appendRom_params]; omega⟩
  done_eq := hb.done_eq
  err_eq := hb.err_eq
  abortOk := hb.abortOk

theorem inv_of_closeRound {cand : Rom} {marker : Nat} {s t : State}
    (h : closeRound cand marker s = .next t) (hb : BodyOk s) (hm : marker ≤ 64) : Inv t := by
  have hbounds : s.params.legal = true ∧ marker ≤ 64 ∧ s.cnt ≤ s.params.maxDevices :=
    ⟨hb.boundsOk.1, hm, hb.boundsOk.2.2⟩
  unfold closeRound at h
  split at h
  · cases h
    exact inv_finishSearch (s := { s with ref := cand, ld := marker, ldf := true })
      { hb with boundsOk := hbounds }
  · exact inv_of_beginRound h { hb with boundsOk := hbounds }

theorem inv_of_endRound {cand : Rom} {marker : Nat} {s t : State}
    (h : endRound cand marker s = .next t) (hb : BodyOk s) (hm : marker ≤ 64) : Inv t := by
  unfold endRound at h
  split at h
  · split at h
    · cases h; exact inv_abortSearch hb (by simp [AbortOk]) nofun
    · next hroom => exact inv_of_closeRound h (bodyOk_appendRom hb hroom cand) hm
  · exact inv_of_closeRound h hb hm

/-- The decision at a position: no answer is an abort, and a marker recorded here is at this
position. -/
theorem inv_of_decidePosition {p : Nat} {cand : Rom} {marker : Nat} {a c : Bool} {s t : State}
    (h : decidePosition p cand marker a c s = .next t) (hb : BodyOk s)
    (hph : searchPhaseOk s (.pair p cand marker)) : Inv t := by
  obtain ⟨hseen, hp1, hp64, hmarker⟩ := hph
  unfold decidePosition at h
  split at h
  · cases h; exact inv_abortSearch hb (by simp [AbortOk]) fun _ => hseen
  · split at h
    · exact inv_of_beginPart h hb ⟨hseen, hp1, hp64, hmarker.le⟩ (rxTotal_touchPrims _)
    · have hnew : newMarker p (s.branch p) marker ≤ p := by unfold newMarker; split <;> omega
      exact inv_of_beginPart h hb ⟨hseen, hp1, hp64, hnew⟩ (rxTotal_touchPrims _)

/-- What follows a part of OW_SEARCH keeps the invariant. -/
theorem inv_of_endPart {ph : Phase} {got : List Byte} {s t : State}
    (h : endPart ph got s = .next t) (hb : BodyOk s) (hph : searchPhaseOk s ph) : Inv t := by
  cases ph with
  | plain => exact hph.elim
  | reset =>
    simp only [endPart] at h
    split at h
    · refine inv_of_beginPart h { hb with } rfl ?_
      rw [writeBytePrims, rxTotal_touchPrims]; rfl
    · cases h
      exact inv_abortSearch (s := s.endReset got) { hb with } (by simp [AbortOk]) nofun
  | command =>
    simp only [endPart, beginPosition] at h
    exact inv_of_beginPart h hb ⟨hph, by omega, by omega, by omega⟩ (rxTotal_touchPrims _)
  | pair p cand marker => exact inv_of_decidePosition h hb hph
  | direct p d cand marker =>
    obtain ⟨hseen, hp1, hp64, hmarker⟩ := hph
    simp only [endPart] at h
    split at h
    · next hlt =>
      simp only [Config.romBits] at hlt
      exact inv_of_beginPart h hb ⟨hseen, by omega, by omega, by omega⟩ (rxTotal_touchPrims _)
    · exact inv_of_endRound h hb (by omega)

theorem inv_of_execOwSearch {s t : State} {pos : Pos} (hi : Inv s) (hs : s.seq = .run .owSearch pos)
    (h : execOwSearch s = .next t) : Inv t := by
  have hb := bodyOk_of_inv hi (State.busy_of_run s hs)
  simp only [execOwSearch, State.pos_of_run s hs] at h
  match pos with
  | .start => exact inv_of_beginRound h (bodyOk_initSearch hb)
  | .going ph (p :: rest) got => exact inv_of_stepPrim hb (partOk_of_seqOk hi.seqOk hs) h
  | .going ph [] got =>
    exact inv_of_endPart h hb (partOk_search.1 (partOk_of_seqOk hi.seqOk hs)).1
  | .raised e =>
    cases raised_of_seqOk hi.seqOk hs
    cases h
    exact inv_abortSearch hb (by simp [AbortOk]) nofun

/-! #### Every agent's turn keeps the invariant -/

theorem inv_of_exec {i : Instr} {pos : Pos} {s t : State} (hi : Inv s) (hs : s.seq = .run i pos)
    (h : exec i s = .next t) : Inv t := by
  by_cases hne : i = .owSearch
  · subst hne; exact inv_of_execOwSearch hi hs h
  · have hb := bodyOk_of_inv hi (State.busy_of_run s hs)
    rcases exec_outcomes_of_seqOk hne hi.seqOk hs h with
      ⟨e, he, rfl⟩ | ⟨s', ph, got, hs', hp, hf⟩ | ⟨s', ph, p, rest, got, hs', hp, hstep⟩
    · refine inv_complete hb ?_ ?_ <;> rcases he with rfl | rfl | rfl <;> decide
    · exact inv_of_finish (bodyOk_of_entered hb hs') hp hf
    · exact inv_of_stepPrim (bodyOk_of_entered hb hs') hp hstep

theorem inv_of_engineTurn {ans : LineAnswer} {s t : State} (hi : Inv s)
    (h : engineTurn ans s = .next t) : Inv t := by
  unfold engineTurn at h
  split at h
  · cases h; exact hi
  · next hs =>
    cases h
    exact inv_complete (bodyOk_of_inv hi (by simp [State.busy, hs])) nofun nofun
  · next i pos hs => exact inv_of_exec (s := { s with answer := ans }) { hi with } hs h

/-- What a CMD word starts is at its start. -/
theorem seqOk_accept_decoded (s : State) (v : Word) : SeqOk (s.accept (s.decoded v)) := by
  unfold State.decoded
  split <;> exact trivial

theorem inv_cmdWrite {s : State} (hi : Inv s) (v : Word) : Inv (s.cmdWrite v) := by
  unfold State.cmdWrite
  split
  · exact { hi with }
  · obtain ⟨-, -, -, habort⟩ := hi.statusOk
    exact { hi with
      seqOk := seqOk_accept_decoded s v
      statusOk := ⟨fun _ => ⟨rfl, rfl⟩, nofun, nofun, habort⟩ }

theorem inv_hostWrite {s : State} (hi : Inv s) (w : Width) (a : HostAddr) (v : Word) :
    Inv (hostWrite w a v s) := by
  have hw := dataWrite_of_hostWrite w a v s
  cases htarget : accessTarget s.params w a.toNat <;> simp only [hostWrite, htarget] at hw ⊢
  case register off =>
    unfold State.regWrite
    split
    · exact inv_cmdWrite hi v
    · repeat' split
      all_goals exact { hi with }
  case data =>
    split
    · exact hi
    · next hidle =>
      rw [if_neg hidle] at hw
      exact { hi with memOk := memOk_of_dataWrite hi.memOk hw rfl rfl }
  all_goals exact hi

theorem inv_lineAppend {s : State} (hi : Inv s) (v : Byte) : Inv (s.lineAppend v) := by
  unfold State.lineAppend
  split
  · next ho => exact { hi with linkOk := fun hc => nomatch ho.symm.trans hc }
  · exact hi

theorem inv_blockReset {s : State} (hi : Inv s) : Inv s.blockReset where
  seqOk := trivial
  memOk := ⟨rfl, fun _ hc => nomatch hc⟩
  statusOk := ⟨nofun, nofun, nofun, .inl rfl⟩
  linkOk := fun _ => rfl
  boundsOk := ⟨hi.boundsOk.1, Nat.zero_le _, Nat.zero_le _⟩

theorem inv_of_runTurn {tn : Turn} {s t : State} (h : runTurn tn s = .next t) (hi : Inv s) :
    Inv t := by
  cases tn with
  | host acc =>
    cases acc with
    | read w a => rw [hostRead_next h]; exact { hi with }
    | write w a v => cases h; exact inv_hostWrite hi w a v
  | engine ans => exact inv_of_engineTurn hi h
  | line v => cases h; exact inv_lineAppend hi v
  | blockReset => cases h; exact inv_blockReset hi

/-- Settles O57: the turn taken off the agenda is no part of the invariant, and each agent's turn
keeps it (`inv_of_runTurn`). -/
theorem everyStepKeepsTheInvariant : Obligations.EveryStepKeepsTheInvariant := by
  unfold Obligations.EveryStepKeepsTheInvariant
  intro s t hi h
  obtain ⟨dr, hstep⟩ := step_eq_runTurn s
  rw [hstep] at h
  exact inv_of_runTurn h { hi with }

/-! #### Which operations change what -/

/-- The frame of an ENGINE step of operation `i`, not OW_SEARCH: which fields it never changes, and
which operations change PRESENT, RESULT (and with which ERR), the response bit and memory
(10_state.md R25, R30, 41_crc8.md R82, 42_bus_engine.md R83). -/
structure ExecFrame (i : Instr) (s t : State) : Prop where
  rest : t = { s with
    portOpen := t.portOpen, rate := t.rate, rx := t.rx, hist := t.hist, seq := t.seq
    done := t.done, err := t.err, present := t.present, result := t.result
    touchResp := t.touchResp, mem := t.mem }
  present : t.present = s.present ∨ i = .owReset ∨ i = .wireReset
  result : t.result = s.result ∨ (∃ n off, i = .crcValidate n off) ∨
    ((i = .owReset ∨ i = .owReadByte ∨ ∃ n off, i = .crcCompute n off) ∧ t.err = .ok)
  touchResp : t.touchResp = s.touchResp ∨ i = .wireTouch1 ∨ i = .wireTouch0
  mem : t.mem = s.mem ∨ (∃ n off, i = .uartRead n off) ∨ ∃ n off, i = .owTouch n off

theorem execFrame_complete (i : Instr) (s : State) (e : ErrCode) : ExecFrame i s (s.complete e) :=
  ⟨rfl, .inl rfl, .inl rfl, .inl rfl, .inl rfl⟩

theorem execFrame_of_stepPrim {i : Instr} {ph : Phase} {p : Prim} {rest : List Prim}
    {got : List Byte} {s t : State} (h : stepPrim i ph p rest got s = .next t) :
    ExecFrame i s t := by
  rcases stepPrim_cases i ph p rest got s with ⟨o, r, x, es, bs, h', -⟩ | ⟨o, r, x, es, h', -⟩ <;>
    (rw [h'] at h; cases h; exact ⟨rfl, .inl rfl, .inl rfl, .inl rfl, .inl rfl⟩)

/-- Completion without a raise, operation by operation. -/
theorem execFrame_of_finish {i : Instr} {got : List Byte} {s t : State}
    (h : finishOf i got s = .next t) : ExecFrame i s t := by
  cases i <;> simp only [finishOf, finishOk] at h
  case uartRead n off =>
    cases h; exact ⟨rfl, .inl rfl, .inl rfl, .inl rfl, .inr (.inl ⟨n, off, rfl⟩)⟩
  case owReset =>
    cases h; exact ⟨rfl, .inr (.inl rfl), .inr (.inr ⟨.inl rfl, rfl⟩), .inl rfl, .inl rfl⟩
  case owTouch n off =>
    cases h; exact ⟨rfl, .inl rfl, .inl rfl, .inl rfl, .inr (.inr ⟨n, off, rfl⟩)⟩
  case owReadByte =>
    cases h; exact ⟨rfl, .inl rfl, .inr (.inr ⟨.inr (.inl rfl), rfl⟩), .inl rfl, .inl rfl⟩
  case crcCompute n off =>
    split at h <;> cases h
    exact ⟨rfl, .inl rfl, .inr (.inr ⟨.inr (.inr ⟨n, off, rfl⟩), rfl⟩), .inl rfl, .inl rfl⟩
  case crcValidate n off =>
    split at h <;> cases h
    exact ⟨rfl, .inl rfl, .inr (.inl ⟨n, off, rfl⟩), .inl rfl, .inl rfl⟩
  case wireTouch1 => cases h; exact ⟨rfl, .inl rfl, .inl rfl, .inr (.inl rfl), .inl rfl⟩
  case wireTouch0 => cases h; exact ⟨rfl, .inl rfl, .inl rfl, .inr (.inr rfl), .inl rfl⟩
  case wireReset => cases h; exact ⟨rfl, .inr (.inr rfl), .inl rfl, .inl rfl, .inl rfl⟩
  all_goals cases h; exact execFrame_complete _ s .ok

theorem execFrame_of_entered {i : Instr} {s s' t : State} (he : Entered i s s')
    (hf : ExecFrame i s' t) : ExecFrame i s t := by
  rcases he with rfl | ⟨hi, rfl⟩
  · exact hf
  · exact ⟨hf.rest, .inr hi, hf.result, hf.touchResp, hf.mem⟩

theorem execFrame_of_exec {i : Instr} (hi : i ≠ .owSearch) {s t : State} (h : exec i s = .next t) :
    ExecFrame i s t := by
  rcases exec_outcomes hi h with ⟨e, rfl⟩ | ⟨s', got, hs', hf⟩ | ⟨s', ph, p, rest, got, hs', hp⟩
  · exact execFrame_complete i s e
  · exact execFrame_of_entered hs' (execFrame_of_finish hf)
  · exact execFrame_of_entered hs' (execFrame_of_stepPrim hp)

/-- From its start a CRC operation raises or finishes: it has no primitive step (41_crc8.md R81,
R82). -/
theorem exec_crc_start {i : Instr} {n off : Word} {s t : State}
    (hi : i = .crcCompute n off ∨ i = .crcValidate n off) (hs : s.seq = .run i .start)
    (h : exec i s = .next t) : (∃ e, t = s.complete e) ∨ finishOf i [] s = .next t := by
  have hpos := State.pos_of_run s hs
  have hlaunch : launchOf i s = s.fetchOperand n off (fun _ => .go s []) := by
    rcases hi with rfl | rfl <;> rfl
  rw [exec_eq_runPlan i (by rcases hi with rfl | rfl <;> nofun)] at h
  rcases fetchOperand_cases s n off (fun _ => .go s []) with
    ⟨-, hl⟩ | ⟨-, -, hl⟩ | ⟨bs, -, -, hl⟩ <;> rw [hl] at hlaunch
  · rw [runPlan_start_raise hpos hlaunch] at h
    cases h
    exact .inl ⟨_, rfl⟩
  · rw [runPlan_start_fault hpos hlaunch] at h
    cases h
  · rw [runPlan_start_nil hpos hlaunch] at h
    exact .inr h

/-- A CRC operation that finishes writes RESULT and what completion writes. -/
theorem finishOf_crc_frame {i : Instr} {n off : Word} {got : List Byte} {s t : State}
    (hi : i = .crcCompute n off ∨ i = .crcValidate n off) (h : finishOf i got s = .next t) :
    t = { s with seq := t.seq, done := t.done, err := t.err, result := t.result } := by
  rcases hi with rfl | rfl <;> (simp only [finishOf, finishOk] at h; split at h <;> cases h; rfl)

/-- Settles O43: the operations' frames are `ExecFrame` with what the operation at hand never
changes put in; a CRC operation goes from its start to its completion. -/
theorem valueOperationsKeepTheRest : Obligations.ValueOperationsKeepTheRest := by
  unfold Obligations.ValueOperationsKeepTheRest
  intro i s t h
  have frame (hi : i ≠ .owSearch) := execFrame_of_exec hi h
  refine ⟨?_, ?_, ?_, ?_, fun n off hs hi => ?_⟩
  · rintro rfl
    obtain ⟨hrest, -, -, htouch, hmem⟩ := frame nofun
    simp only [reduceCtorEq, exists_false, or_false] at htouch hmem
    rwa [htouch, hmem] at hrest
  · rintro rfl
    obtain ⟨hrest, -, hresult, htouch, hmem⟩ := frame nofun
    simp only [reduceCtorEq, exists_false, or_false, false_and] at hresult htouch hmem
    rwa [hresult, htouch, hmem] at hrest
  · rintro rfl
    obtain ⟨hrest, hpresent, -, htouch, hmem⟩ := frame nofun
    simp only [reduceCtorEq, exists_false, or_false] at hpresent htouch hmem
    rwa [hpresent, htouch, hmem] at hrest
  · intro hi
    obtain ⟨hrest, hpresent, hresult, -, hmem⟩ := frame (by rcases hi with rfl | rfl <;> nofun)
    rcases hi with rfl | rfl <;>
      simp only [reduceCtorEq, exists_false, or_false, false_and] at hpresent hresult hmem <;>
      rwa [hpresent, hresult, hmem] at hrest
  · rcases exec_crc_start hi hs h with ⟨e, rfl⟩ | hf
    · rfl
    · exact finishOf_crc_frame hi hf

/-- Settles O46: RESULT of `ExecFrame`. -/
theorem resultIsWrittenOnlyByNamedOperations :
    Obligations.ResultIsWrittenOnlyByNamedOperations := by
  unfold Obligations.ResultIsWrittenOnlyByNamedOperations
  refine ⟨rfl, fun i s t h hne => ?_⟩
  by_cases hi : i = .owSearch
  · exact .inl hi
  · exact .inr ((execFrame_of_exec hi h).result.resolve_left hne)

/-! #### The ROM table -/

theorem dataWrite_of_engineTurn {ans : LineAnswer} {s t : State} (hq : SeqOk s)
    (h : engineTurn ans s = .next t) : (∃ pos, s.seq = .run .owSearch pos) ∨ DataWrite s t := by
  unfold engineTurn at h
  split at h
  · cases h; exact .inr (dataWrite_of_eq rfl)
  · cases h; exact .inr (dataWrite_of_eq rfl)
  · next i pos hs =>
    by_cases hsearch : i = .owSearch
    · exact .inl ⟨pos, hsearch ▸ hs⟩
    · exact .inr (dataWrite_of_exec (s := { s with answer := ans }) hsearch hq hs h)

/-- Of the turns that are neither a step of OW_SEARCH nor a block reset, only an ENGINE step and a
store reach memory, and they write DATA. -/
theorem dataWrite_of_runTurn {tn : Turn} {s t : State} (hq : SeqOk s)
    (h : runTurn tn s = .next t) :
    (∃ ans pos, tn = .engine ans ∧ s.seq = .run .owSearch pos) ∨ tn = .blockReset ∨
      DataWrite s t := by
  cases tn with
  | host acc =>
    right; right
    cases acc with
    | read w a => rw [hostRead_next h]; exact dataWrite_of_eq rfl
    | write w a v => cases h; exact dataWrite_of_hostWrite w a v s
  | engine ans =>
    rcases dataWrite_of_engineTurn hq h with ⟨pos, hs⟩ | hw
    · exact .inl ⟨ans, pos, rfl, hs⟩
    · exact .inr (.inr hw)
  | line v =>
    cases h
    refine .inr (.inr (dataWrite_of_eq ?_))
    unfold State.lineAppend
    split <;> rfl
  | blockReset => exact .inr (.inl rfl)

/-- Settles O47: what is neither a step of OW_SEARCH nor a block reset writes DATA alone
(`dataWrite_of_runTurn`), which ends below ROMTAB. -/
theorem romTableIsWrittenOnlyBySearch : Obligations.RomTableIsWrittenOnlyBySearch := by
  unfold Obligations.RomTableIsWrittenOnlyBySearch
  intro s t hi h
  obtain ⟨dr, hstep⟩ := step_eq_runTurn s
  rw [hstep] at h
  rcases dataWrite_of_runTurn (by exact hi.seqOk) h with hsearch | hreset | hw
  · exact .inl hsearch
  · exact .inr (.inl hreset)
  · exact .inr (.inr fun a ha => read_romtab_of_dataWrite hi.boundsOk hw ha)

/-! #### Registers as the host sees them -/

@[simp] theorem flag_getElem_zero (b : Bool) : (flag b)[0] = b := by cases b <;> rfl

/-- The flags of STATUS (10_state.md R22). -/
theorem statusWord_flags (s : State) :
    s.statusWord.getLsbD 0 = s.busy ∧ s.statusWord.getLsbD 1 = s.done ∧
    s.statusWord.getLsbD 2 = s.present ∧ s.statusWord.getLsbD 3 = s.portOpen ∧
    s.statusWord.getLsbD 4 = s.rateFlag ∧ s.statusWord.getLsbD 5 = s.ldf ∧
    s.statusWord.getLsbD 6 = s.ovr ∧ s.statusWord.getLsbD 7 = false := by
  simp only [State.statusWord, BitVec.getLsbD_append]
  simp

/-- ERR of STATUS (10_state.md R22). -/
theorem statusWord_err (s : State) : s.statusWord.extractLsb' 8 4 = s.err.code := by
  ext j hj
  simp only [State.statusWord, BitVec.getElem_extractLsb', BitVec.getLsbD_append]
  interval_cases j <;> simp

theorem statusWord_reserved (s : State) : s.statusWord.extractLsb' 12 20 = 0 := by
  ext j hj
  simp only [State.statusWord, BitVec.getElem_extractLsb', BitVec.getLsbD_append]
  simp

/-- LD of SRCH_STAT (10_state.md R27). -/
theorem srchStatWord_ld (s : State) : s.srchStatWord.extractLsb' 0 7 = BitVec.ofNat 7 s.ld := by
  ext j hj
  simp only [State.srchStatWord, BitVec.getElem_extractLsb', BitVec.getLsbD_append]
  simp [hj]

/-- ABORT of SRCH_STAT (10_state.md R27). -/
theorem srchStatWord_abort (s : State) : s.srchStatWord.extractLsb' 8 4 = s.abort.code := by
  ext j hj
  simp only [State.srchStatWord, BitVec.getElem_extractLsb', BitVec.getLsbD_append]
  interval_cases j <;> simp

/-- PSEEN of SRCH_STAT and the reserved bit below ABORT (10_state.md R27). -/
theorem srchStatWord_flags (s : State) :
    s.srchStatWord.getLsbD 12 = s.pseen ∧ s.srchStatWord.getLsbD 7 = false := by
  simp only [State.srchStatWord, BitVec.getLsbD_append]
  simp

theorem srchStatWord_reserved (s : State) : s.srchStatWord.extractLsb' 13 19 = 0 := by
  ext j hj
  simp only [State.srchStatWord, BitVec.getElem_extractLsb', BitVec.getLsbD_append]
  repeat rw [if_neg (by omega)]
  simp

/-- An aligned 32-bit access at 0x028 or below reaches the register there. -/
theorem accessTarget_of_register (p : Params) {a : Nat} (h0 : a % 4 = 0) (h1 : a ≤ 0x28) :
    accessTarget p .w32 a = .register a := by
  simp only [accessTarget, Width.bytes, Config.dataBase]
  rw [if_neg (by omega), if_pos (by omega), if_pos trivial, if_pos h1]

/-- A store at 0x1000 or above is ignored: it reaches neither a register nor DATA (10_state.md R31).
-/
theorem hostWrite_romtab (w : Width) {a : HostAddr} (v : Word) (s : State) (h : 0x1000 ≤ a.toNat) :
    hostWrite w a v s = s := by
  cases htarget : accessTarget s.params w a.toNat <;> simp only [hostWrite, htarget]
  case register off => have := (accessTarget_register htarget).2.2; omega
  case data => have := (accessTarget_data htarget).2.1; omega

/-- A load of a register returns its value, unless it is unspecified while BUSY = 1 (20_memory.md
R54). -/
theorem step_loadRegister {s : State} {a : HostAddr} {rest : List Turn}
    (h : s.agenda = .host (.read .w32 a) :: rest) (h0 : a.toNat % 4 = 0) (h1 : a.toNat ≤ 0x28)
    (hv : s.busy = false ∨ volatileReg a.toNat = false) :
    step s = .next { s with agenda := rest, hostData := s.regValue a.toNat } := by
  have hfixed : (s.busy && volatileReg a.toNat) = false := by
    rcases hv with hv | hv <;> simp [hv]
  rw [step_hostRead h]
  unfold hostRead
  rw [accessTarget_of_register _ h0 h1]
  exact if_neg (Bool.eq_false_iff.1 hfixed)

/-- A store to a register is `State.regWrite`. -/
theorem step_storeRegister {s : State} {a : HostAddr} {v : Word} {rest : List Turn}
    (h : s.agenda = .host (.write .w32 a v) :: rest) (h0 : a.toNat % 4 = 0) (h1 : a.toNat ≤ 0x28) :
    step s = .next (State.regWrite { s with agenda := rest } a.toNat v) := by
  rw [step_hostWrite h]
  unfold hostWrite
  rw [accessTarget_of_register _ h0 h1]

section OperandRegisters

variable {s : State} (hb : s.busy = false) (v : Word)
include hb

theorem regWrite_arg0 : s.regWrite 0x008 v = { s with arg0 := v } := by simp [State.regWrite, hb]
theorem regWrite_arg1 : s.regWrite 0x00C v = { s with arg1 := v } := by simp [State.regWrite, hb]
theorem regWrite_rom0 : s.regWrite 0x014 v = { s with rom0 := v } := by simp [State.regWrite, hb]
theorem regWrite_rom1 : s.regWrite 0x018 v = { s with rom1 := v } := by simp [State.regWrite, hb]

end OperandRegisters

/-- A register that is neither CMD nor an operand register ignores stores (10_state.md R20). -/
theorem regWrite_readOnly (s : State) (v : Word) {off : Nat}
    (h : off ∉ [0x000, 0x008, 0x00C, 0x014, 0x018]) : s.regWrite off v = s := by
  simp only [List.mem_cons, List.not_mem_nil, not_or] at h
  obtain ⟨h0, h8, hC, h14, h18, -⟩ := h
  simp only [State.regWrite, h0, h8, hC, h14, h18, if_false, ite_self]

/-- Settles O48: a load is `step_loadRegister` with the value's fields, a store
`step_storeRegister`, and a store to ROMTAB `hostWrite_romtab`. -/
theorem registersReadTheirStateAndTakeStores :
    Obligations.RegistersReadTheirStateAndTakeStores := by
  unfold Obligations.RegistersReadTheirStateAndTakeStores
  refine ⟨fun s rest h => ?_, fun s rest hb h => ?_, fun s a v rest h hv => ?_,
    fun s v rest hb => ?_, fun s w a v rest h hro => ?_, by decide⟩
  · obtain ⟨hbusy, hdone, hpresent, hopen, hrate, hldf, hovr, hzero⟩ := statusWord_flags s
    refine ⟨s.statusWord, step_loadRegister h (by decide) (by decide) (.inr (by decide)), hbusy,
      hdone, hpresent, hopen, ?_, hldf, hovr, hzero, statusWord_err s, statusWord_reserved s⟩
    rw [hrate, State.rateFlag, Bool.decide_and, Bool.decide_eq_true]
  · obtain ⟨hpseen, hzero⟩ := srchStatWord_flags s
    exact ⟨s.srchStatWord, step_loadRegister h (by decide) (by decide) (.inl hb),
      srchStatWord_ld s, hzero, srchStatWord_abort s, hpseen, srchStatWord_reserved s⟩
  · rcases hv with ⟨rfl, rfl⟩ | ⟨rfl, rfl⟩ | ⟨rfl, rfl⟩ | ⟨rfl, rfl⟩ | ⟨rfl, rfl⟩ | ⟨hb, hv⟩
    iterate 5 exact step_loadRegister h (by decide) (by decide) (.inr (by decide))
    rcases hv with ⟨rfl, rfl⟩ | ⟨rfl, rfl⟩ | ⟨rfl, rfl⟩ | ⟨rfl, rfl⟩
    iterate 4 exact step_loadRegister h (by decide) (by decide) (.inl hb)
  · have hidle : State.busy { s with agenda := rest } = false := hb
    have store {a : HostAddr} {t : State} (h : s.agenda = .host (.write .w32 a v) :: rest)
        (h0 : a.toNat % 4 = 0) (h1 : a.toNat ≤ 0x28)
        (ht : State.regWrite { s with agenda := rest } a.toNat v = t) : step s = .next t :=
      ht ▸ step_storeRegister h h0 h1
    exact ⟨fun h => store h (by decide) (by decide) (regWrite_arg0 hidle v),
      fun h => store h (by decide) (by decide) (regWrite_arg1 hidle v),
      fun h => store h (by decide) (by decide) (regWrite_rom0 hidle v),
      fun h => store h (by decide) (by decide) (regWrite_rom1 hidle v)⟩
  · rcases hro with ⟨rfl, ha⟩ | ha
    · rw [step_storeRegister h (by rcases ha with rfl | rfl | rfl | rfl | rfl | rfl <;> decide)
        (by rcases ha with rfl | rfl | rfl | rfl | rfl | rfl <;> decide),
        regWrite_readOnly _ _ (by rcases ha with rfl | rfl | rfl | rfl | rfl | rfl <;> decide)]
    · rw [step_hostWrite h, hostWrite_romtab w v _ ha]

/-! #### What the invariant says of the registers -/

/-- An error code that STATUS can show is at most 9 and none of the two it never shows
(60_exceptions.md R107). -/
theorem errCode_legal {e : ErrCode} (h1 : e ≠ .noResponse) (h2 : e ≠ .deviceLost) :
    e.code.toNat ≤ 9 ∧ e.code ≠ 5 ∧ e.code ≠ 3 := by
  cases e with
  | noResponse => exact absurd rfl h1
  | deviceLost => exact absurd rfl h2
  | _ => decide

/-- The entries at or above SRCH_CNT read 0: none of their bytes is listed (10_state.md R31). -/
theorem read_above_cnt {s : State} (hm : MemOk s) (hb : BoundsOk s) {a : Nat}
    (ha : 0x1000 + 8 * s.cnt ≤ a) : Memory.read s.mem a = some 0 := by
  obtain ⟨-, hcells⟩ := hm
  obtain ⟨hlegal, -, -⟩ := hb
  simp only [Params.legal, Bool.and_eq_true, decide_eq_true_eq] at hlegal
  have hbase : Config.dataBase = 0x100 ∧ Config.romtabBase = 0x1000 := ⟨rfl, rfl⟩
  rw [Memory.read_eq_unlisted _ _ fun c hc => by have := hcells c hc; omega]
  exact if_neg (by omega)

/-- Settles O58: the fields of the words are those of the state, which the invariant bounds. -/
theorem statusAndTableStayLegal : Obligations.StatusAndTableStayLegal := by
  unfold Obligations.StatusAndTableStayLegal
  intro s hi
  obtain ⟨hbusy, hdone, -⟩ := statusWord_flags s
  obtain ⟨hrunning, hnr, hdl, -⟩ := hi.statusOk
  obtain ⟨-, hld, hcnt⟩ := hi.boundsOk
  obtain ⟨h9, h5, h3⟩ := errCode_legal hnr hdl
  rw [hbusy, hdone, statusWord_err, srchStatWord_ld]
  refine ⟨fun hb => (hrunning hb).1, h9, h5, h3, ?_, hld, hcnt,
    fun a ha => read_above_cnt hi.memOk hi.boundsOk ha⟩
  rw [BitVec.toNat_ofNat, Nat.mod_eq_of_lt (by omega)]

/-! #### Bytes never written -/

/-- A block that reaches a byte without a value has none. -/
theorem readBytes_eq_none {m : List Host.Cell} {a n k : Nat} (hk : k < n)
    (h : Memory.read m (a + k) = none) : Memory.readBytes m a n = none := by
  induction n generalizing a k with
  | zero => omega
  | succ n ih =>
    cases k with
    | zero => rw [Nat.add_zero] at h; simp [Memory.readBytes, h]
    | succ k =>
      have hrest : Memory.readBytes m (a + 1) n = none :=
        ih (k := k) (by omega) (by rwa [Nat.add_assoc, Nat.add_comm 1])
      simp [Memory.readBytes, hrest]

theorem loadBytes_unwritten {s : State} {w : Width} {a k : Nat} (hb : s.busy = false)
    (hk : k < w.bytes) (h : Memory.read s.mem (a + k) = none) :
    s.loadBytes w a = .fault .unwrittenHostRead := by
  simp [State.loadBytes, hb, readBytes_eq_none hk h]

/-- MemRead of an operand in range that reaches an unwritten byte is the fault (10_state.md R36). -/
theorem fetchOperand_unwritten {s : State} {n off : Word} {k : Nat} (go : List Byte → Launch)
    (hr : off.toNat + n.toNat ≤ s.params.bufBytes) (hk : k < n.toNat)
    (h : Memory.read s.mem (0x100 + off.toNat + k) = none) :
    s.fetchOperand n off go = .fault .unwrittenOperand := by
  have hnone : s.memRead off.toNat n.toNat = none := readBytes_eq_none hk h
  rcases fetchOperand_cases s n off go with ⟨hlt, -⟩ | ⟨-, -, hf⟩ | ⟨bs, -, hsome, -⟩
  · omega
  · exact hf
  · rw [hnone] at hsome; cases hsome

/-- Settles O53: a block with an unwritten byte cannot be read (`readBytes_eq_none`), by the host or
as an operand, and reset lists no byte. -/
theorem unwrittenDataFaults : Obligations.UnwrittenDataFaults := by
  unfold Obligations.UnwrittenDataFaults
  refine ⟨fun s w a k rest hb h h0 hlo hhi hfit hk hnone => ?_,
    fun i n off k s hi hs hr hk hnone => ?_, fun a hlo hhi => ?_⟩
  · rw [step_hostRead h]
    simp only [hostRead, accessTarget_of_data h0 hlo hhi hfit]
    exact loadBytes_unwritten hb hk hnone
  · have hlaunch : launchOf i s = .fault .unwrittenOperand := by
      rcases hi with rfl | rfl | rfl | rfl <;> exact fetchOperand_unwritten _ hr hk hnone
    rw [exec_eq_runPlan i (by rcases hi with rfl | rfl | rfl | rfl <;> nofun),
      runPlan_start_fault (State.pos_of_run s hs) hlaunch]
  · exact if_pos ⟨hlo, hhi⟩

/-! #### From accept to `exec` -/

/-- An idle engine accepts a CMD word that decodes (30_encoding.md R57). -/
theorem step_accept {s : State} {w : Word} {rest : List Turn} {i : Instr} (hs : s.seq = .idle)
    (h : s.agenda = .host (.write .w32 0x000 w) :: rest)
    (hd : decodeCommand ⟨w, s.arg0, s.arg1, s.rom0, s.rom1⟩ = .ok i) :
    step s = .next (State.accept { s with agenda := rest } (.run i .start)) := by
  have hdecoded : State.decoded { s with agenda := rest } w = .run i .start := by
    simp [State.decoded, State.image, hd]
  rw [step_cmdWrite h, State.cmdWrite, if_neg (by simp [State.busy, hs]), hdecoded]

/-- Settles O5: accept puts the decoded instruction at its start (`step_accept`), and an ENGINE step
runs the instruction the sequencer holds (`step_engine`). -/
theorem stepRunsTheDecodedInstruction : Obligations.StepRunsTheDecodedInstruction := by
  unfold Obligations.StepRunsTheDecodedInstruction
  refine ⟨fun s w ans rest i hs h hd => ?_, fun s i pos ans rest hs h => step_engine hs h⟩
  rw [runSteps_succ (step_accept hs h hd), runSteps_one]
  exact step_engine rfl rfl

end Sys2Proof.Proofs

/-! ### Proofs: primitive steps and host accesses (20_memory.md)

What each primitive step does, in whichever operation it is taken; how an ENGINE step splits into a
move of the pseudocode and at most one primitive step, which alone looks at LINE's answer; and where
a host access goes. -/

namespace Sys2Proof.Proofs

open Sys2Proof Sys2Proof.Machine Sys2Proof.Safety

/-! #### Each primitive step (20_memory.md R46 to R50) -/

/-- The primitive steps that raise while the port is closed (20_memory.md R46 to R49). -/
def needsPort : Prim → Bool
  | .uartFlush | .uartSetRate _ | .uartTx _ | .uartRx _ => true
  | .uartOpen _ | .uartClose | .delay _ => false

section PrimitiveSteps

variable {s : State}

theorem runPrim_closed {p : Prim} (hp : needsPort p = true) (ho : s.portOpen = false) :
    runPrim p s = .raised s := by
  cases p with
  | uartFlush => simp [runPrim, uartFlush, ho]
  | uartSetRate r => simp [runPrim, uartSetRate, ho]
  | uartTx bs => simp [runPrim, uartTx, ho]
  | uartRx n => simp [runPrim, uartRx, ho]
  | uartOpen r | uartClose | delay t => cases hp

theorem runPrim_open_ok {r : Rate} (ha : s.answer = .ok) :
    runPrim (.uartOpen r) s =
      .ok { s.record (.opened r) with portOpen := true, rate := r, rx := [] } [] := by
  simp [runPrim, uartOpen, ha]

theorem runPrim_open_fail {r : Rate} {k : Nat} (ha : s.answer = .fail k) :
    runPrim (.uartOpen r) s = .raised (s.record (.opened r)) := by
  simp [runPrim, uartOpen, ha]

theorem runPrim_flush (ho : s.portOpen = true) :
    runPrim .uartFlush s = .ok { s.record .flush with rx := [] } [] := by
  simp [runPrim, uartFlush, ho]

theorem runPrim_setRate_ok {r : Rate} (ho : s.portOpen = true) (ha : s.answer = .ok) :
    runPrim (.uartSetRate r) s = .ok { s.record (.setRate r) with rx := [], rate := r } [] := by
  simp [runPrim, uartSetRate, ho, ha]

theorem runPrim_setRate_fail {r : Rate} {k : Nat} (ho : s.portOpen = true)
    (ha : s.answer = .fail k) :
    runPrim (.uartSetRate r) s =
      .raised { s.record (.setRate r) with rx := [], portOpen := false } := by
  simp [runPrim, uartSetRate, ho, ha]

theorem runPrim_tx_nil (ho : s.portOpen = true) : runPrim (.uartTx []) s = .ok s [] := by
  simp [runPrim, uartTx, ho]

theorem runPrim_tx_ok {bs : List Byte} (ho : s.portOpen = true) (hbs : bs ≠ [])
    (ha : s.answer = .ok) : runPrim (.uartTx bs) s = .ok (s.record (.tx s.rate bs)) [] := by
  simp [runPrim, uartTx, ho, hbs, ha]

theorem runPrim_tx_fail {bs : List Byte} {k : Nat} (ho : s.portOpen = true) (hbs : bs ≠ [])
    (ha : s.answer = .fail k) :
    runPrim (.uartTx bs) s = .raised (s.record (.tx s.rate (sentPart bs k))) := by
  simp [runPrim, uartTx, ho, hbs, ha]

theorem runPrim_rx_zero (ho : s.portOpen = true) : runPrim (.uartRx 0) s = .ok s [] := by
  simp [runPrim, uartRx, ho]

theorem runPrim_rx_complete {n : Nat} (ho : s.portOpen = true) (hn : 0 < n)
    (hle : n ≤ s.rx.length) :
    runPrim (.uartRx n) s =
      .ok { s.record (.rx (s.rx.take n)) with rx := s.rx.drop n } (s.rx.take n) := by
  simp [runPrim, uartRx, ho, hle, Nat.ne_of_gt hn]

theorem runPrim_rx_timeout {n : Nat} (ho : s.portOpen = true) (hlt : s.rx.length < n) :
    runPrim (.uartRx n) s = .raised { s.record (.rx s.rx) with rx := [] } := by
  simp [runPrim, uartRx, ho, Nat.not_le.2 hlt, Nat.ne_of_gt (Nat.zero_lt_of_lt hlt)]

end PrimitiveSteps

/-- What goes out of a failed transmit is a proper beginning of the bytes (20_memory.md R48; log 22).
-/
theorem sentPart_proper {bs : List Byte} (hbs : bs ≠ []) (k : Nat) :
    sentPart bs k <+: bs ∧ (sentPart bs k).length < bs.length ∧
      (k < bs.length → (sentPart bs k).length = k) := by
  have hpos := List.length_pos_of_ne_nil hbs
  refine ⟨List.take_prefix _ _, ?_, fun hk => ?_⟩ <;>
    simp only [sentPart, List.length_take] <;> omega

/-! #### A primitive step of a running operation -/

section RunningOperation

variable {i : Instr} {ph : Phase} {p : Prim} {rest : List Prim} {got : List Byte} {s s' : State}

theorem stepPrim_ok {bs : List Byte} (h : runPrim p s = .ok s' bs) :
    stepPrim i ph p rest got s = .next (s'.setSeq (.run i (.going ph rest (got ++ bs)))) := by
  simp only [stepPrim, h]

/-- A primitive step that returns no bytes leaves those read so far. -/
theorem stepPrim_done (h : runPrim p s = .ok s' []) :
    stepPrim i ph p rest got s = .next (s'.setSeq (.run i (.going ph rest got))) := by
  rw [stepPrim_ok h, List.append_nil]

theorem stepPrim_raised (h : runPrim p s = .raised s') :
    stepPrim i ph p rest got s = .next (s'.setSeq (.run i (.raised .transport))) := by
  simp only [stepPrim, h]

variable (hs : s.seq = .run i (.going ph (p :: rest) got))
include hs

theorem exec_going : exec i s = stepPrim i ph p rest got s :=
  exec_prim i (State.pos_of_run s hs)

theorem exec_prim_ok {bs : List Byte} (h : runPrim p s = .ok s' bs) :
    exec i s = .next (s'.setSeq (.run i (.going ph rest (got ++ bs)))) :=
  (exec_going hs).trans (stepPrim_ok h)

theorem exec_prim_done (h : runPrim p s = .ok s' []) :
    exec i s = .next (s'.setSeq (.run i (.going ph rest got))) :=
  (exec_going hs).trans (stepPrim_done h)

theorem exec_prim_raised (h : runPrim p s = .raised s') :
    exec i s = .next (s'.setSeq (.run i (.raised .transport))) :=
  (exec_going hs).trans (stepPrim_raised h)

/-- With the port closed nothing changes but that the operation has raised. -/
theorem exec_prim_closed (hp : needsPort p = true) (ho : s.portOpen = false) :
    exec i s = .next { s with seq := .run i (.raised .transport) } :=
  exec_prim_raised hs (runPrim_closed hp ho)

end RunningOperation

/-- Settles O10: the three outcomes of `uartSetRate`, at any position that comes to it. -/
theorem rateSwitchReopensOrCloses : Obligations.RateSwitchReopensOrCloses := by
  unfold Obligations.RateSwitchReopensOrCloses
  intro i ph r rest got s hs
  exact ⟨fun ho ha => exec_prim_done hs (runPrim_setRate_ok ho ha),
    fun k ho ha => exec_prim_raised hs (runPrim_setRate_fail ho ha),
    fun ho => exec_prim_closed hs rfl ho⟩

/-- Settles O11: the four outcomes of `uartTx`; what a failed one sends is `sentPart_proper`. -/
theorem transmitSendsAllOrAProperBeginning : Obligations.TransmitSendsAllOrAProperBeginning := by
  unfold Obligations.TransmitSendsAllOrAProperBeginning
  intro i ph bs rest got s hs
  refine ⟨fun ho => exec_prim_closed hs rfl ho, ?_,
    fun ho hbs ha => exec_prim_done hs (runPrim_tx_ok ho hbs ha), fun k ho hbs ha => ?_⟩
  · rintro ho rfl
    exact exec_prim_done hs (runPrim_tx_nil ho)
  · obtain ⟨hprefix, hshort, hlength⟩ := sentPart_proper hbs k
    exact ⟨sentPart bs k, hprefix, hshort, hlength, exec_prim_raised hs (runPrim_tx_fail ho hbs ha)⟩

/-! #### The answer of LINE -/

/-- The state with another answer of LINE to the step in progress (log 2). -/
def answering (s : State) (a : LineAnswer) : State := { s with answer := a }

@[simp] theorem answering_portOpen (s : State) (a : LineAnswer) :
    (answering s a).portOpen = s.portOpen := rfl

@[simp] theorem answering_pos (s : State) (a : LineAnswer) : (answering s a).pos = s.pos := rfl

@[simp] theorem answering_inRange (s : State) (a : LineAnswer) (n off : Word) :
    (answering s a).inRange n off = s.inRange n off := rfl

@[simp] theorem answering_memRead (s : State) (a : LineAnswer) (off n : Nat) :
    (answering s a).memRead off n = s.memRead off n := rfl

/-- An ENGINE turn of a running operation is `exec` with LINE's answer. -/
theorem engineTurn_run {ans : LineAnswer} {s : State} {i : Instr} {pos : Pos}
    (hs : s.seq = .run i pos) : engineTurn ans s = exec i (answering s ans) := by
  simp only [engineTurn, hs, answering]

/-! #### A read ends -/

/-- The sequencer has come to a read, or stands before UART_READ's own. -/
def ComesToRead (q : Seq) : Prop :=
  (∃ i ph n rest got, q = .run i (.going ph (.uartRx n :: rest) got)) ∨
  ∃ n off, q = .run (.uartRead n off) .start

theorem comesToRead_of_pendingRead {s : State} {n : Nat} (h : pendingRead s = some n) :
    ComesToRead s.seq := by
  unfold pendingRead at h
  split at h
  · next i ph n rest got hs => exact .inl ⟨i, ph, n, rest, got, hs⟩
  · next n off hs => exact .inr ⟨n, off, hs⟩
  · cases h

/-- A primitive step moves the sequencer on. -/
theorem seq_ne_of_stepPrim {i : Instr} {ph : Phase} {p : Prim} {rest : List Prim}
    {got got' : List Byte} {s t : State} (h : stepPrim i ph p rest got s = .next t) :
    t.seq ≠ .run i (.going ph (p :: rest) got') := by
  rcases stepPrim_seq h with hq | ⟨bs, hq⟩ <;> rw [hq] <;> simp

/-- The first ENGINE step of an operation other than OW_SEARCH leaves its start. -/
theorem seq_ne_start_of_exec {i : Instr} (hi : i ≠ .owSearch) {s t : State}
    (h : exec i s = .next t) : t.seq ≠ .run i .start := by
  rcases exec_outcomes hi h with ⟨e, rfl⟩ | ⟨s', got, -, hf⟩ | ⟨s', ph, p, rest, got, -, hp⟩
  · nofun
  · obtain ⟨p, r, k, m, e, rfl, -⟩ := finishOf_next hf
    nofun
  · rcases stepPrim_seq hp with hq | ⟨bs, hq⟩ <;> rw [hq] <;> nofun

/-- An ENGINE turn ends the read it finds. -/
theorem seq_ne_of_read {ans : LineAnswer} {s t : State} (hr : ComesToRead s.seq)
    (h : engineTurn ans s = .next t) : t.seq ≠ s.seq := by
  rcases hr with ⟨i, ph, n, rest, got, hs⟩ | ⟨n, off, hs⟩
  · rw [engineTurn_run hs, exec_going (s := answering s ans) hs] at h
    rw [hs]
    exact seq_ne_of_stepPrim h
  · rw [engineTurn_run hs] at h
    rw [hs]
    exact seq_ne_start_of_exec (i := .uartRead n off) nofun h

/-- The fairness of 20_memory.md R49: were a read never to end, the sequencer would stand still until
an ENGINE turn, which would end it. -/
theorem readsEnd_of_engineFair {sched : Nat → Turn} {r : Nat → State} (hrun : RunsUnder sched r)
    (hfair : EngineFair sched) : ReadsEnd r := by
  intro k n hpending
  by_contra hstays
  have hsame : ∀ m, k ≤ m → (r m).seq = (r k).seq := by
    intro m hkm
    rcases Nat.eq_or_lt_of_le hkm with rfl | hlt
    · rfl
    · exact not_not.1 fun hne => hstays ⟨m, hlt, hne⟩
  obtain ⟨m, hkm, hengine⟩ := hfair k
  have hread : ComesToRead (r m).seq := hsame m hkm ▸ comesToRead_of_pendingRead hpending
  cases hturn : sched m with
  | engine ans =>
    have hstep : engineTurn ans (r m) = .next (r (m + 1)) := by
      have := hrun m
      rwa [hturn] at this
    exact seq_ne_of_read hread hstep ((hsame _ (by omega)).trans (hsame m hkm).symm)
  | host acc | line v | blockReset => rw [hturn] at hengine; cases hengine

/-- Settles O12: fairness is `readsEnd_of_engineFair`; the endings are the four outcomes of
`uartRx`. -/
theorem readCompletesOrTimesOut : Obligations.ReadCompletesOrTimesOut := by
  unfold Obligations.ReadCompletesOrTimesOut
  refine ⟨fun sched r hrun hfair => readsEnd_of_engineFair hrun hfair,
    fun i ph n rest got s hs => ⟨fun ho => exec_prim_closed hs rfl ho, ?_,
      fun ho hn hle => exec_prim_ok hs (runPrim_rx_complete ho hn hle),
      fun ho hlt => exec_prim_raised hs (runPrim_rx_timeout ho hlt)⟩⟩
  rintro ho rfl
  exact exec_prim_done hs (runPrim_rx_zero ho)

/-! #### What an ENGINE step does beside its primitive step -/

/-- The transport link and the wire history are as they were. -/
structure SameLink (s t : State) : Prop where
  portOpen : t.portOpen = s.portOpen
  rate : t.rate = s.rate
  rx : t.rx = s.rx
  hist : t.hist = s.hist

theorem SameLink.refl (s : State) : SameLink s s := ⟨rfl, rfl, rfl, rfl⟩

theorem SameLink.trans {s t u : State} (h : SameLink s t) (h' : SameLink t u) : SameLink s u :=
  ⟨h'.portOpen.trans h.portOpen, h'.rate.trans h.rate, h'.rx.trans h.rx, h'.hist.trans h.hist⟩

/-- `f`, a part of operation `i`'s pseudocode from `s`, leaves the link alone up to its first
primitive step, if it has one, and the answer of LINE reaches nothing but that step. -/
def PerformsOrKeeps (i : Instr) (s : State)
    (f : State → Host.Outcome State Fault Refusal) : Prop :=
  (∃ s' ph p rest got, SameLink s s' ∧
    ∀ a, f (answering s a) = stepPrim i ph p rest got (answering s' a)) ∨
  ∀ a t, f (answering s a) = .next t → SameLink s t

/-- The pseudocode may write between two primitive steps what is not of the link. -/
theorem PerformsOrKeeps.of_eq {i : Instr} {s s' : State}
    {f g : State → Host.Outcome State Fault Refusal} (h : PerformsOrKeeps i s' g)
    (hl : SameLink s s') (he : ∀ a, f (answering s a) = g (answering s' a)) :
    PerformsOrKeeps i s f := by
  rcases h with ⟨u, ph, p, rest, got, hu, hg⟩ | hg
  · exact .inl ⟨u, ph, p, rest, got, hl.trans hu, fun a => (he a).trans (hg a)⟩
  · exact .inr fun a t ht => hl.trans (hg a t ((he a).symm.trans ht))

/-- A part of the pseudocode that ends the operation. -/
theorem performsOrKeeps_of_next {i : Instr} {s : State}
    {f : State → Host.Outcome State Fault Refusal} {g : LineAnswer → State}
    (he : ∀ a, f (answering s a) = .next (g a)) (hl : ∀ a, SameLink s (g a)) :
    PerformsOrKeeps i s f :=
  .inr fun a t ht => by rw [he a] at ht; cases ht; exact hl a

/-- The answer of LINE carried through a launch. -/
def launchAnswering (a : LineAnswer) : Launch → Launch
  | .fault f => .fault f
  | .raise e => .raise e
  | .go s todo => .go (answering s a) todo

theorem fetchOperand_answering (s : State) (a : LineAnswer) (n off : Word)
    (todo : List Byte → List Prim) :
    (answering s a).fetchOperand n off (fun bs => .go (answering s a) (todo bs)) =
      launchAnswering a (s.fetchOperand n off (fun bs => .go s (todo bs))) := by
  cases hr : s.inRange n off with
  | false => simp [State.fetchOperand, hr, launchAnswering]
  | true =>
    cases hm : s.memRead off.toNat n.toNat <;> simp [State.fetchOperand, hr, hm, launchAnswering]

/-- What comes before the first primitive step does not look at the answer. -/
theorem launchOf_answering (i : Instr) (s : State) (a : LineAnswer) :
    launchOf i (answering s a) = launchAnswering a (launchOf i s) := by
  cases i with
  | openPort r => cases ho : s.portOpen <;> simp [launchOf, ho, launchAnswering]
  | uartRead n off => cases hr : s.inRange n off <;> simp [launchOf, hr, launchAnswering]
  | uartWrite n off => exact fetchOperand_answering s a n off (fun bs => [.uartTx bs])
  | owTouch n off => exact fetchOperand_answering s a n off (fun bs => touchPrims (bs.map resp))
  | crcCompute n off | crcValidate n off => exact fetchOperand_answering s a n off (fun _ => [])
  | _ => rfl

theorem sameLink_answering (s : State) (a : LineAnswer) : SameLink s (answering s a) :=
  ⟨rfl, rfl, rfl, rfl⟩

theorem sameLink_of_launch {i : Instr} {s s' : State} {todo : List Prim}
    (h : launchOf i s = .go s' todo) : SameLink s s' := by
  rcases launchOf_go_state h with rfl | ⟨-, rfl⟩
  · exact .refl _
  · exact ⟨rfl, rfl, rfl, rfl⟩

theorem sameLink_of_finish {i : Instr} {got : List Byte} {s t : State}
    (h : finishOf i got s = .next t) : SameLink s t := by
  obtain ⟨p, r, k, m, e, rfl, -⟩ := finishOf_next h
  exact ⟨rfl, rfl, rfl, rfl⟩

/-- Every instruction but OW_SEARCH, position by position. -/
theorem performsOrKeeps_plan {i : Instr} (hi : i ≠ .owSearch) (s : State) :
    PerformsOrKeeps i s (exec i) := by
  cases hpos : s.pos with
  | start =>
    have hstart (a) : (answering s a).pos = .start := hpos
    have hlaunch (a) := launchOf_answering i s a
    cases hl : launchOf i s with
    | fault f =>
      rw [hl] at hlaunch
      refine .inr fun a t ht => ?_
      rw [exec_eq_runPlan i hi, runPlan_start_fault (hstart a) (hlaunch a)] at ht
      cases ht
    | raise e =>
      rw [hl] at hlaunch
      exact performsOrKeeps_of_next (g := fun a => (answering s a).complete e)
        (fun a => by rw [exec_eq_runPlan i hi, runPlan_start_raise (hstart a) (hlaunch a)])
        fun a => ⟨rfl, rfl, rfl, rfl⟩
    | go s' todo =>
      have hlink := sameLink_of_launch hl
      rw [hl] at hlaunch
      cases todo with
      | nil =>
        refine .inr fun a t ht => hlink.trans ?_
        rw [exec_eq_runPlan i hi, runPlan_start_nil (hstart a) (hlaunch a)] at ht
        exact (sameLink_answering s' a).trans (sameLink_of_finish ht)
      | cons p rest =>
        exact .inl ⟨s', .plain, p, rest, [], hlink,
          fun a => by rw [exec_eq_runPlan i hi, runPlan_start_prim (hstart a) (hlaunch a)]⟩
  | going ph todo got =>
    cases todo with
    | nil =>
      refine .inr fun a t ht => ?_
      rw [exec_end i hi (s := answering s a) hpos] at ht
      exact (sameLink_answering s a).trans (sameLink_of_finish ht)
    | cons p rest => exact .inl ⟨s, ph, p, rest, got, .refl s, fun a => exec_prim i hpos⟩
  | raised e =>
    exact performsOrKeeps_of_next (fun a => exec_raised i hi hpos) fun a => ⟨rfl, rfl, rfl, rfl⟩

/-! #### The parts of OW_SEARCH -/

theorem touchPrims_cons_ne_nil (b : Bool) (bs : List Bool) : touchPrims (b :: bs) ≠ [] := by
  rw [touchPrims_chunk _ (by simp)]; simp

theorem performsOrKeeps_beginPart (s : State) (ph : Phase) {todo : List Prim} (h : todo ≠ []) :
    PerformsOrKeeps .owSearch s (beginPart ph todo) := by
  cases todo with
  | nil => exact absurd rfl h
  | cons p rest => exact .inl ⟨s, ph, p, rest, [], .refl s, fun _ => rfl⟩

theorem performsOrKeeps_beginRound (s : State) : PerformsOrKeeps .owSearch s beginRound :=
  (performsOrKeeps_beginPart s.beginReset .reset (by simp [resetPrims])).of_eq
    ⟨rfl, rfl, rfl, rfl⟩ fun _ => rfl

theorem performsOrKeeps_decidePosition (s : State) (p : Nat) (cand : Rom) (marker : Nat)
    (a c : Bool) : PerformsOrKeeps .owSearch s (decidePosition p cand marker a c) := by
  by_cases hnone : (a && c) = true
  · exact performsOrKeeps_of_next (fun _ => if_pos hnone) fun _ => ⟨rfl, rfl, rfl, rfl⟩
  · by_cases hdiff : (a != c) = true
    · exact (performsOrKeeps_beginPart s _ (touchPrims_cons_ne_nil a [])).of_eq (.refl s)
        fun _ => (if_neg hnone).trans (if_pos hdiff)
    · exact (performsOrKeeps_beginPart s
        (.direct p (s.branch p) cand (newMarker p (s.branch p) marker))
        (touchPrims_cons_ne_nil (s.branch p) [])).of_eq (.refl s)
        fun _ => (if_neg hnone).trans (if_neg hdiff)

theorem performsOrKeeps_closeRound (s : State) (cand : Rom) (marker : Nat) :
    PerformsOrKeeps .owSearch s (closeRound cand marker) := by
  by_cases hm : marker = 0
  · exact performsOrKeeps_of_next (fun _ => if_pos hm) fun _ => ⟨rfl, rfl, rfl, rfl⟩
  · exact (performsOrKeeps_beginRound { s with ref := cand, ld := marker }).of_eq
      ⟨rfl, rfl, rfl, rfl⟩ fun _ => if_neg hm

theorem performsOrKeeps_endRound (s : State) (cand : Rom) (marker : Nat) :
    PerformsOrKeeps .owSearch s (endRound cand marker) := by
  by_cases hv : romValid cand = true
  · by_cases hfull : s.cnt = s.params.maxDevices
    · exact performsOrKeeps_of_next (fun _ => (if_pos hv).trans (if_pos hfull))
        fun _ => ⟨rfl, rfl, rfl, rfl⟩
    · exact (performsOrKeeps_closeRound (s.appendRom cand) cand marker).of_eq ⟨rfl, rfl, rfl, rfl⟩
        fun _ => (if_pos hv).trans (if_neg hfull)
  · exact (performsOrKeeps_closeRound s cand marker).of_eq (.refl s) fun _ => if_neg hv

theorem performsOrKeeps_endPart (s : State) (ph : Phase) (got : List Byte) :
    PerformsOrKeeps .owSearch s (endPart ph got) := by
  cases ph with
  | plain => exact performsOrKeeps_beginRound s
  | reset =>
    by_cases hpresent : presenceOf (resetEcho got) = true
    · exact (performsOrKeeps_beginPart { s.endReset got with pseen := true } .command
        (touchPrims_cons_ne_nil _ _)).of_eq ⟨rfl, rfl, rfl, rfl⟩ fun _ => if_pos hpresent
    · exact performsOrKeeps_of_next (fun _ => if_neg hpresent) fun _ => ⟨rfl, rfl, rfl, rfl⟩
  | command => exact performsOrKeeps_beginPart s _ (touchPrims_cons_ne_nil _ _)
  | pair p cand marker => exact performsOrKeeps_decidePosition s p cand marker _ _
  | direct p d cand marker =>
    by_cases hp : p < Config.romBits
    · exact (performsOrKeeps_beginPart s _ (touchPrims_cons_ne_nil true [true])).of_eq (.refl s)
        fun _ => if_pos hp
    · exact (performsOrKeeps_endRound s (setBit cand p d) marker).of_eq (.refl s)
        fun _ => if_neg hp

theorem performsOrKeeps_search (s : State) : PerformsOrKeeps .owSearch s execOwSearch := by
  cases hpos : s.pos with
  | start =>
    exact (performsOrKeeps_beginRound s.initSearch).of_eq ⟨rfl, rfl, rfl, rfl⟩
      fun a => by simp only [execOwSearch, answering_pos, hpos]; rfl
  | going ph todo got =>
    cases todo with
    | nil =>
      exact (performsOrKeeps_endPart s ph got).of_eq (.refl s)
        fun a => by simp only [execOwSearch, answering_pos, hpos]
    | cons p rest =>
      exact .inl ⟨s, ph, p, rest, got, .refl s,
        fun a => by simp only [execOwSearch, answering_pos, hpos]⟩
  | raised e =>
    exact performsOrKeeps_of_next (g := fun a => (answering s a).abortSearch e)
      (fun a => by simp only [execOwSearch, answering_pos, hpos]) fun _ => ⟨rfl, rfl, rfl, rfl⟩

/-- One ENGINE step, of any operation from any state: it performs one primitive step from a state with
the same link, or leaves the link alone. -/
theorem performsOrKeeps_exec (i : Instr) (s : State) : PerformsOrKeeps i s (exec i) := by
  by_cases hi : i = .owSearch
  · subst hi; exact performsOrKeeps_search s
  · exact performsOrKeeps_plan hi s

/-! #### The port is closed -/

/-- What an operation can record while the port is closed (20_memory.md R46 to R50, 40_transport.md
R71, R72). -/
def OffWire (e : Event) : Prop := (∃ r, e = .opened r) ∨ e = .closed ∨ ∃ p, e = .delay p

/-- A step from `s`, whose port is closed, to `t` receives nothing and puts nothing on the wire. -/
def ClosedStep (s t : State) : Prop :=
  ∃ es, t.hist = s.hist ++ es ∧ (∀ e ∈ es, OffWire e) ∧ (t.rx = s.rx ∨ t.rx = []) ∧
    (t.portOpen = false → t.rate = s.rate)

theorem closedStep_of_sameLink {s t : State} (h : SameLink s t) : ClosedStep s t :=
  ⟨[], by simp [h.hist], by simp, .inl h.rx, fun _ => h.rate⟩

theorem closedStep_of_event {s t : State} {e : Event} (he : OffWire e)
    (hhist : t.hist = s.hist ++ [e]) (hrx : t.rx = s.rx ∨ t.rx = [])
    (hrate : t.portOpen = false → t.rate = s.rate) : ClosedStep s t :=
  ⟨[e], hhist, by simpa using he, hrx, hrate⟩

theorem closedStep_of_stepPrim {i : Instr} {ph : Phase} {p : Prim} {rest : List Prim}
    {got : List Byte} {s t : State} (ho : s.portOpen = false)
    (h : stepPrim i ph p rest got s = .next t) : ClosedStep s t := by
  cases p with
  | uartFlush | uartSetRate r | uartTx bs | uartRx n =>
    rw [stepPrim_raised (runPrim_closed rfl ho)] at h
    cases h
    exact closedStep_of_sameLink ⟨rfl, rfl, rfl, rfl⟩
  | uartOpen r =>
    cases ha : s.answer with
    | ok =>
      rw [stepPrim_done (runPrim_open_ok ha)] at h
      cases h
      exact closedStep_of_event (.inl ⟨r, rfl⟩) rfl (.inr rfl) nofun
    | fail k =>
      rw [stepPrim_raised (runPrim_open_fail ha)] at h
      cases h
      exact closedStep_of_event (.inl ⟨r, rfl⟩) rfl (.inl rfl) fun _ => rfl
  | uartClose =>
    cases h
    exact closedStep_of_event (.inr (.inl rfl)) rfl (.inr rfl) fun _ => rfl
  | delay p =>
    cases h
    exact closedStep_of_event (.inr (.inr ⟨p, rfl⟩)) rfl (.inl rfl) fun _ => rfl

/-- Settles O14: an ENGINE step is at most one primitive step from a state with the same link
(`performsOrKeeps_exec`), and none of them uses a closed port. -/
theorem nothingOnTheWireWhileClosed : Obligations.NothingOnTheWireWhileClosed := by
  unfold Obligations.NothingOnTheWireWhileClosed
  intro i s t ho h
  rcases performsOrKeeps_exec i s with ⟨s', ph, p, rest, got, hlink, hexec⟩ | hkeeps
  · have hstep := (hexec s.answer).symm.trans h
    obtain ⟨es, hhist, hes, hrx, hrate⟩ := closedStep_of_stepPrim (s := answering s' s.answer)
      (hlink.portOpen.trans ho) hstep
    refine ⟨es, ?_, hes, ?_, fun hc => (hrate hc).trans hlink.rate⟩
    · rw [← hlink.hist]; exact hhist
    · rw [← hlink.rx]; exact hrx
  · exact closedStep_of_sameLink (hkeeps s.answer t h)

/-! #### A failed transmit -/

/-- Of the primitive steps only a transmit puts bytes on the wire, and only with the port open. -/
theorem eq_tx_of_recorded {i : Instr} {ph : Phase} {p : Prim} {rest : List Prim} {got : List Byte}
    {s t : State} {r : Rate} {bs : List Byte} (ha : s.answer = .ok)
    (h : stepPrim i ph p rest got s = .next t) (ht : t.hist = s.hist ++ [.tx r bs]) :
    p = .uartTx bs ∧ bs ≠ [] ∧ s.portOpen = true := by
  cases ho : s.portOpen with
  | false =>
    obtain ⟨es, hes, hoff, -⟩ := closedStep_of_stepPrim ho h
    have htx : OffWire (.tx r bs) := hoff _ (by simp [List.append_cancel_left (hes.symm.trans ht)])
    exact absurd htx (by simp [OffWire])
  | true =>
    cases p with
    | uartTx cs =>
      by_cases hcs : cs = []
      · rw [hcs, stepPrim_done (runPrim_tx_nil ho)] at h
        cases h; simp at ht
      · rw [stepPrim_done (runPrim_tx_ok ho hcs ha)] at h
        cases h
        obtain ⟨-, rfl⟩ : s.rate = r ∧ cs = bs := by simpa using ht
        exact ⟨rfl, hcs, rfl⟩
    | uartRx n =>
      rcases Nat.eq_zero_or_pos n with rfl | hn
      · rw [stepPrim_done (runPrim_rx_zero ho)] at h
        cases h; simp at ht
      · by_cases hle : n ≤ s.rx.length
        · rw [stepPrim_ok (runPrim_rx_complete ho hn hle)] at h
          cases h; simp at ht
        · rw [stepPrim_raised (runPrim_rx_timeout ho (by omega))] at h
          cases h; simp at ht
    | uartFlush =>
      rw [stepPrim_done (runPrim_flush ho)] at h
      cases h; simp at ht
    | uartSetRate r' =>
      rw [stepPrim_done (runPrim_setRate_ok ho ha)] at h
      cases h; simp at ht
    | uartOpen r' =>
      rw [stepPrim_done (runPrim_open_ok ha)] at h
      cases h; simp at ht
    | uartClose | delay q => cases h; simp [State.record] at ht

/-- Settles O13: the state the step transmits from is the same for every answer
(`performsOrKeeps_exec`), and of two transmits from it the failed one sends `sentPart`. -/
theorem failedTransmitRaisesAndSendsABeginning :
    Obligations.FailedTransmitRaisesAndSendsABeginning := by
  unfold Obligations.FailedTransmitRaisesAndSendsABeginning
  intro i s t k bs ha hok ht
  rcases performsOrKeeps_exec i s with ⟨s', ph, p, rest, got, hlink, hexec⟩ | hkeeps
  · have hstep := (hexec .ok).symm.trans hok
    have htx : t.hist = (answering s' .ok).hist ++ [.tx s'.rate bs] := by
      rw [ht, ← hlink.hist, ← hlink.rate]; rfl
    obtain ⟨rfl, hbs, ho⟩ := eq_tx_of_recorded rfl hstep htx
    obtain ⟨hprefix, hshort, hlength⟩ := sentPart_proper hbs k
    refine ⟨sentPart bs k, hprefix, hshort, hlength, ?_⟩
    rw [stepPrim_done (runPrim_tx_ok ho hbs rfl)] at hstep
    cases hstep
    have hfail := hexec s.answer
    rw [stepPrim_raised (runPrim_tx_fail (s := answering s' s.answer) ho hbs ha)] at hfail
    rw [← hlink.hist, ← hlink.rate]
    exact hfail
  · have hsame := (hkeeps .ok t hok).hist
    rw [hsame] at ht
    simp at ht

/-! #### The flush and the delay -/

/-- Where an operation's next step is the flush that opens it, or opens a later round of a search:
from a state with the same link. -/
def OpensWithFlush (i : Instr) (s : State) : Prop :=
  ∃ s' ph rest, SameLink s s' ∧ exec i s = stepPrim i ph .uartFlush rest [] s'

theorem opensWithFlush_of_launch {i : Instr} {s s' : State} {rest : List Prim}
    (hs : s.seq = .run i .start) (hl : launchOf i s = .go s' (.uartFlush :: rest))
    (hi : i ≠ .owSearch) : OpensWithFlush i s :=
  ⟨s', .plain, rest, sameLink_of_launch hl, by
    rw [exec_eq_runPlan i hi, runPlan_start_prim (State.pos_of_run s hs) hl]⟩

/-- A round of a search opens with the flush of its bus reset (43_rom_search.md R97). -/
theorem opensWithFlush_of_beginRound {s s' : State} (hl : SameLink s s')
    (he : exec .owSearch s = beginRound s') : OpensWithFlush .owSearch s :=
  ⟨s'.beginReset, .reset, resetPrims.tail, hl.trans ⟨rfl, rfl, rfl, rfl⟩, he⟩

/-- A round that ends with a marker and room in the table is followed by another (43_rom_search.md
R100). -/
theorem endRound_goes_on {cand : Rom} {marker : Nat} {s : State} (hm : marker ≠ 0)
    (hroom : romValid cand = false ∨ s.cnt ≠ s.params.maxDevices) :
    ∃ s', SameLink s s' ∧ endRound cand marker s = beginRound s' := by
  by_cases hv : romValid cand = true
  · have hfree := hroom.resolve_left (by simp [hv])
    exact ⟨{ s.appendRom cand with ref := cand, ld := marker }, ⟨rfl, rfl, rfl, rfl⟩,
      ((if_pos hv).trans (if_neg hfree)).trans (if_neg hm)⟩
  · exact ⟨{ s with ref := cand, ld := marker }, ⟨rfl, rfl, rfl, rfl⟩,
      (if_neg hv).trans (if_neg hm)⟩

theorem opensWithFlush_start {i : Instr} {s : State}
    (hi : i = .flush ∨ i = .owReset ∨ i = .wireReset ∨ i = .owSearch)
    (hs : s.seq = .run i .start) : OpensWithFlush i s := by
  rcases hi with rfl | rfl | rfl | rfl
  · exact opensWithFlush_of_launch hs rfl nofun
  · exact opensWithFlush_of_launch hs rfl nofun
  · exact opensWithFlush_of_launch hs rfl nofun
  · exact opensWithFlush_of_beginRound (s' := s.initSearch) ⟨rfl, rfl, rfl, rfl⟩
      (by simp only [exec, execOwSearch, State.pos_of_run s hs])

theorem opensWithFlush_later {s : State} {d : Bool} {cand : Rom} {marker : Nat} {got : List Byte}
    (hs : s.seq = .run .owSearch (.going (.direct 64 d cand marker) [] got)) (hm : marker ≠ 0)
    (hroom : crc8 (romBytes (setBit cand 64 d)) ≠ 0 ∨ s.cnt ≠ s.params.maxDevices) :
    OpensWithFlush .owSearch s := by
  obtain ⟨s', hl, hround⟩ := endRound_goes_on (cand := setBit cand 64 d) hm
    (hroom.imp_left fun hne => by simpa [romValid, crcValid] using hne)
  refine opensWithFlush_of_beginRound hl ?_
  rw [← hround]
  simp only [exec, execOwSearch, State.pos_of_run s hs]
  rfl

/-- Settles O9: the opening steps are a flush from a state with the same link, and both primitive
steps are the same at any other position. -/
theorem flushAndDelaySteps : Obligations.FlushAndDelaySteps := by
  unfold Obligations.FlushAndDelaySteps
  refine ⟨fun i s hopens => ?_, fun i ph rest got s =>
    ⟨fun hs => ⟨fun ho => exec_prim_done hs (runPrim_flush ho),
      fun ho => exec_prim_closed hs rfl ho⟩,
     fun p hs => exec_prim_done hs rfl⟩⟩
  obtain ⟨s', ph, rest, hlink, hexec⟩ : OpensWithFlush i s := by
    rcases hopens with ⟨hi, hs⟩ | ⟨rfl, d, cand, marker, got, hs, hm, hroom⟩
    · exact opensWithFlush_start hi hs
    · exact opensWithFlush_later hs hm hroom
  rw [hexec, ← hlink.rate, ← hlink.portOpen, ← hlink.rx, ← hlink.hist]
  cases ho : s'.portOpen with
  | true =>
    exact ⟨_, stepPrim_done (runPrim_flush ho), rfl, ho,
      fun _ => ⟨rfl, rfl, ph, rest, rfl⟩, nofun⟩
  | false =>
    exact ⟨_, stepPrim_raised (runPrim_closed rfl ho), rfl, ho, nofun, fun _ => ⟨rfl, rfl, rfl⟩⟩

end Sys2Proof.Proofs

/-! ### Proofs: who starts an operation, and the host's accesses (20_memory.md R38 to R44, R52, R54) -/

namespace Sys2Proof.Proofs

open Sys2Proof Sys2Proof.Machine Sys2Proof.Safety

/-! #### What starts an operation -/

theorem lineAppend_closed {s : State} (v : Byte) (ho : s.portOpen = false) : s.lineAppend v = s := by
  simp [State.lineAppend, ho]

/-- Settles O7: the two branches of LINE's turn. -/
theorem lineAppendsOnlyWhileOpen : Obligations.LineAppendsOnlyWhileOpen := by
  unfold Obligations.LineAppendsOnlyWhileOpen
  intro s v rest h
  refine ⟨fun ho => step_line ho h, fun ho => ?_⟩
  have hclosed := lineAppend_closed (s := { s with agenda := rest }) v ho
  simp only [step, State.takeTurn, h, runTurn, hclosed]

/-- A store to a register other than CMD leaves the sequencer alone. -/
theorem regWrite_seq (s : State) (v : Word) {off : Nat} (h : off ≠ 0) :
    (s.regWrite off v).seq = s.seq := by
  unfold State.regWrite
  rw [if_neg h]
  repeat' split
  all_goals rfl

/-- Only a 32-bit store to CMD reaches the sequencer. -/
theorem hostWrite_seq (w : Width) (a : HostAddr) (v : Word) (s : State) :
    (w = .w32 ∧ a = 0x000) ∨ (hostWrite w a v s).seq = s.seq := by
  cases htarget : accessTarget s.params w a.toNat <;> simp only [hostWrite, htarget]
  case register off =>
    obtain ⟨hw, rfl, -⟩ := accessTarget_register htarget
    by_cases ha : a.toNat = 0
    · exact .inl ⟨hw, BitVec.eq_of_toNat_eq ha⟩
    · exact .inr (regWrite_seq s v ha)
  case data => right; split <;> rfl
  all_goals exact .inr trivial

/-- The turn that makes an idle engine busy is a 32-bit store to CMD. -/
theorem cmdStore_of_runTurn {tn : Turn} {s t : State} (hs : s.seq = .idle)
    (h : runTurn tn s = .next t) (ht : t.seq ≠ .idle) : ∃ v, tn = .host (.write .w32 0x000 v) := by
  cases tn with
  | host acc =>
    cases acc with
    | read w a =>
      rw [hostRead_next h] at ht
      exact absurd hs ht
    | write w a v =>
      cases h
      rcases hostWrite_seq w a v s with ⟨rfl, rfl⟩ | hseq
      · exact ⟨v, rfl⟩
      · exact absurd (hseq.trans hs) ht
  | engine ans =>
    simp only [runTurn, engineTurn, hs] at h
    cases h
    exact absurd hs ht
  | line v =>
    cases h
    refine absurd ?_ ht
    unfold State.lineAppend
    split <;> exact hs
  | blockReset => cases h; exact absurd rfl ht

/-- Settles O6: taking the turn keeps the sequencer, and of all turns from idle only a store to CMD
moves it (`cmdStore_of_runTurn`). -/
theorem onlyACommandStoreStartsAnOperation : Obligations.OnlyACommandStoreStartsAnOperation := by
  unfold Obligations.OnlyACommandStoreStartsAnOperation
  intro s t hidle h hbusy
  obtain ⟨dr, hstep⟩ := step_eq_runTurn s
  rw [hstep] at h
  refine cmdStore_of_runTurn ?_ h fun ht => ?_
  · exact (State.busy_false_iff s).1 hidle
  · rw [(State.busy_false_iff t).2 ht] at hbusy
    cases hbusy

/-! #### Loads, and accesses outside the regions -/

/-- Settles O49: `hostRead_next`, after the load's turn is taken. -/
theorem hostLoadsHaveNoSideEffect : Obligations.HostLoadsHaveNoSideEffect := by
  unfold Obligations.HostLoadsHaveNoSideEffect
  intro s t w a rest hagenda h
  rw [step_hostRead hagenda] at h
  exact (hostRead_next h :)

theorem width_bytes_pos (w : Width) : 0 < w.bytes := by cases w <;> decide

/-- An access that 20_memory.md R39 speaks of: misaligned, narrower than 32 bits at the registers, or
across the end of DATA or ROMTAB. -/
theorem accessTarget_of_irregular {p : Params} {w : Width} {a : Nat}
    (h : a % w.bytes ≠ 0 ∨ (a < 0x100 ∧ w ≠ .w32) ∨
      (0x100 ≤ a ∧ a < 0x100 + p.bufBytes ∧ a < 0x1000 ∧ 0x100 + p.bufBytes < a + w.bytes) ∨
      (0x1000 ≤ a ∧ a < 0x1000 + 8 * p.maxDevices ∧ 0x1000 + 8 * p.maxDevices < a + w.bytes)) :
    accessTarget p w a = .irregular := by
  have hdata : Config.dataBase = 0x100 := rfl
  have hromtab : Config.romtabBase = 0x1000 := rfl
  unfold accessTarget regionTarget
  by_cases h0 : a % w.bytes = 0
  · rw [if_neg (not_not.2 h0)]
    rcases h with h | ⟨hreg, hw⟩ | ⟨hlo, hin, hhi, hend⟩ | ⟨hlo, hin, hend⟩
    · exact absurd h0 h
    · rw [if_pos (by omega), if_neg hw]
    · rw [if_neg (by omega), if_pos (by omega), if_neg (by omega), if_neg (by omega)]
    · rw [if_neg (by omega), if_neg (by omega), if_neg (by omega), if_neg (by omega)]
  · rw [if_pos h0]

/-- An access that 20_memory.md R40 speaks of: aligned, and beyond the registers, DATA or ROMTAB. -/
theorem accessTarget_of_reserved {p : Params} {w : Width} {a : Nat} (h0 : a % w.bytes = 0)
    (h : (0x02C ≤ a ∧ a < 0x100 ∧ w = .w32) ∨ (0x100 + p.bufBytes ≤ a ∧ a < 0x1000) ∨
      0x1000 + 8 * p.maxDevices ≤ a) : accessTarget p w a = .reserved := by
  have hpos := width_bytes_pos w
  have hdata : Config.dataBase = 0x100 := rfl
  have hromtab : Config.romtabBase = 0x1000 := rfl
  unfold accessTarget regionTarget
  rw [if_neg (not_not.2 h0)]
  rcases h with ⟨hlo, hreg, hw⟩ | ⟨hend, hhi⟩ | hend
  · rw [if_pos (by omega), if_pos hw, if_neg (by omega)]
  · rw [if_neg (by omega), if_pos (by omega), if_neg (by omega), if_pos (by omega)]
  · rw [if_neg (by omega), if_neg (by omega), if_neg (by omega), if_pos (by omega)]

section Accesses

variable {s : State} {w : Width} {a : HostAddr} {rest : List Turn}

/-- A store that reaches neither a register nor DATA is ignored. -/
theorem step_storeIgnored {v : Word}
    (ht : accessTarget s.params w a.toNat = .irregular ∨ accessTarget s.params w a.toNat = .reserved)
    (h : s.agenda = .host (.write w a v) :: rest) : step s = .next { s with agenda := rest } := by
  rw [step_hostWrite h]
  rcases ht with ht | ht <;> simp only [hostWrite, ht]

theorem step_loadIrregular (ht : accessTarget s.params w a.toNat = .irregular)
    (h : s.agenda = .host (.read w a) :: rest) :
    step s = .next { s with
      agenda := rest, hostData := cutTo w (Config.freeWord s.draws), draws := s.draws + 1 } := by
  rw [step_hostRead h]
  simp only [hostRead, ht]
  rfl

theorem step_loadReserved (ht : accessTarget s.params w a.toNat = .reserved)
    (h : s.agenda = .host (.read w a) :: rest) :
    step s = .next { s with agenda := rest, hostData := 0 } := by
  rw [step_hostRead h]
  simp only [hostRead, ht]
  rfl

/-- A load of DATA or ROMTAB is `State.loadBytes`. -/
theorem step_loadBytes
    (ht : accessTarget s.params w a.toNat = .data ∨ accessTarget s.params w a.toNat = .romtab)
    (h : s.agenda = .host (.read w a) :: rest) :
    step s = State.loadBytes { s with agenda := rest } w a.toNat := by
  rw [step_hostRead h]
  rcases ht with ht | ht <;> simp only [hostRead, ht]

end Accesses

/-- Settles O50: where the access goes (`accessTarget_of_irregular`, `accessTarget_of_reserved`), and
what a load and a store do there. -/
theorem irregularAndReservedAccesses : Obligations.IrregularAndReservedAccesses := by
  unfold Obligations.IrregularAndReservedAccesses
  refine fun s w a v rest => ⟨fun hirregular => ?_, fun ⟨h0, hreserved⟩ => ?_⟩
  · have ht := accessTarget_of_irregular hirregular
    exact ⟨step_storeIgnored (.inl ht), step_loadIrregular ht⟩
  · have ht := accessTarget_of_reserved h0 hreserved
    exact ⟨step_storeIgnored (.inr ht), step_loadReserved ht⟩

/-! #### DATA and ROMTAB, byte by byte -/

/-- A block is the bytes that its addresses read as. -/
theorem readBytes_eq_some {m : List Host.Cell} {a : Nat} {bs : List Byte}
    (h : ∀ (k : Nat) (hk : k < bs.length), Memory.read m (a + k) = some bs[k]) :
    Memory.readBytes m a bs.length = some bs := by
  induction bs generalizing a with
  | nil => rfl
  | cons b bs ih =>
    have hfirst : Memory.read m a = some b := h 0 (by simp)
    have hrest : Memory.readBytes m (a + 1) bs.length = some bs := ih fun k hk => by
      have := h (k + 1) (by simpa using hk)
      simpa [Nat.add_assoc, Nat.add_comm 1] using this
    simp only [List.length_cons, Memory.readBytes, hfirst, hrest]

theorem width_bytes_le (w : Width) : w.bytes ≤ 4 := by cases w <;> decide

theorem loadBytes_idle {s : State} {w : Width} {a : Nat} {bs : List Byte} (hb : s.busy = false)
    (h : Memory.readBytes s.mem a w.bytes = some bs) :
    s.loadBytes w a = .next (s.deliver (wordOfBytes bs)) := by
  simp [State.loadBytes, hb, h]

/-- A load of DATA or ROMTAB while BUSY = 0 returns the bytes there, if all hold a value. -/
theorem step_loadIdle {s : State} {w : Width} {a : HostAddr} {bs : List Byte} {rest : List Turn}
    (hb : s.busy = false)
    (ht : accessTarget s.params w a.toNat = .data ∨ accessTarget s.params w a.toNat = .romtab)
    (hbytes : Memory.readBytes s.mem a.toNat w.bytes = some bs)
    (h : s.agenda = .host (.read w a) :: rest) :
    step s = .next { s with agenda := rest, hostData := wordOfBytes bs } := by
  rw [step_loadBytes ht h]
  exact loadBytes_idle hb hbytes

/-- A store to DATA while BUSY = 0 writes the bytes of its word. -/
theorem step_storeData {s : State} {w : Width} {a : HostAddr} {v : Word} {rest : List Turn}
    (hb : s.busy = false) (ht : accessTarget s.params w a.toNat = .data)
    (h : s.agenda = .host (.write w a v) :: rest) :
    step s = .next { s with
      agenda := rest, mem := Memory.writeBytes s.mem a.toNat (bytesOfWord v w.bytes) } := by
  rw [step_hostWrite h]
  have hidle : State.busy { s with agenda := rest } = false := hb
  simp only [hostWrite, ht, hidle]
  rfl

/-- Settles O51: a load assembles the bytes there (`wordOfBytes_bits`), a store writes those of its
word (`bytesOfWord_getElem`), and reading them back gives the word cut to the width. -/
theorem dataAndRomtabAreLittleEndian : Obligations.DataAndRomtabAreLittleEndian := by
  unfold Obligations.DataAndRomtabAreLittleEndian
  refine ⟨fun s w a bs rest hb h0 hin hlen hread h => ?_,
    fun s w a v rest hb hwf h0 hlo hhi hfit h => ?_⟩
  · have ht : accessTarget s.params w a.toNat = .data ∨ accessTarget s.params w a.toNat = .romtab :=
      hin.imp (fun ⟨hlo, hhi, hfit⟩ => accessTarget_of_data h0 hlo hhi hfit)
        fun ⟨hlo, hfit⟩ => accessTarget_of_romtab h0 hlo hfit
    have hbytes : Memory.readBytes s.mem a.toNat w.bytes = some bs := hlen ▸ readBytes_eq_some hread
    obtain ⟨hbits, hzero⟩ := wordOfBytes_bits bs (hlen ▸ width_bytes_le w)
    exact ⟨wordOfBytes bs, step_loadIdle hb ht hbytes h, hbits, hlen ▸ hzero⟩
  · have ht := accessTarget_of_data h0 hlo hhi hfit
    have hlen := bytesOfWord_length v w.bytes
    have hstore := step_storeData hb ht h
    refine ⟨_, hstore, fun k hk => ?_, fun c hc => ?_, ?_⟩
    · rw [Memory.read_writeBytes_at _ _ _ _ hwf (by omega), bytesOfWord_getElem]
    · exact Memory.read_writeBytes_of_outside _ _ _ _ (by omega)
    · have hback := Memory.readBytes_writeBytes s.mem a.toNat (bytesOfWord v w.bytes) hwf
      rw [hlen] at hback
      rw [runSteps_succ hstore, runSteps_one, ← wordOfBytes_bytesOfWord]
      exact step_loadIdle (by exact hb) (.inl (by exact ht)) (by exact hback) rfl

/-! #### While BUSY = 1 -/

section WhileBusy

variable {s : State} {w : Width} {a : HostAddr} {v : Word} {rest : List Turn}
  (hb : s.busy = true)
include hb

theorem regWrite_busy {off : Nat} (h : off ≠ 0) : s.regWrite off v = s := by
  simp [State.regWrite, h, hb]

theorem cmdWrite_busy : s.cmdWrite v = { s with ovr := true } := by simp [State.cmdWrite, hb]

/-- A store at 0x100 or above is ignored. -/
theorem hostWrite_busy (ha : 0x100 ≤ a.toNat) : hostWrite w a v s = s := by
  cases htarget : accessTarget s.params w a.toNat <;> simp only [hostWrite, htarget]
  case register off => have := (accessTarget_register htarget).2.2; omega
  case data => exact if_pos hb

theorem loadBytes_busy (n : Nat) : s.loadBytes w n = .next (s.deliverFree w) := if_pos hb

theorem step_loadBusy
    (ht : accessTarget s.params w a.toNat = .data ∨ accessTarget s.params w a.toNat = .romtab)
    (h : s.agenda = .host (.read w a) :: rest) :
    step s = .next { s with
      agenda := rest, hostData := cutTo w (Config.freeWord s.draws), draws := s.draws + 1 } := by
  rw [step_loadBytes ht h]
  exact loadBytes_busy (s := { s with agenda := rest }) hb _

theorem step_loadVolatile (h : s.agenda = .host (.read .w32 a) :: rest) (h0 : a.toNat % 4 = 0)
    (h1 : a.toNat ≤ 0x28) (hv : volatileReg a.toNat = true) :
    step s = .next { s with
      agenda := rest, hostData := cutTo .w32 (Config.freeWord s.draws), draws := s.draws + 1 } := by
  rw [step_hostRead h]
  unfold hostRead
  rw [accessTarget_of_register _ h0 h1]
  have hfree : (State.busy { s with agenda := rest } && volatileReg a.toNat) = true := by
    rw [hv, Bool.and_true]; exact hb
  exact if_pos hfree

end WhileBusy

/-- Settles O52: the register stores, the stores above them, the loads that return a free value,
STATUS and CMD, each by its rule above. -/
theorem hostAccessesWhileBusy : Obligations.HostAccessesWhileBusy := by
  unfold Obligations.HostAccessesWhileBusy
  intro s rest hb
  have hb' : State.busy { s with agenda := rest } = true := hb
  refine ⟨fun a v ha h => ?_, fun w a v hlo _ h => ?_, fun w a hread h => ?_, fun h => ?_,
    fun v h => ?_⟩
  · have ⟨h0, h1, hne⟩ : a.toNat % 4 = 0 ∧ a.toNat ≤ 0x28 ∧ a.toNat ≠ 0 := by
      rcases ha with rfl | rfl | rfl | rfl <;> decide
    rw [step_storeRegister h h0 h1, regWrite_busy hb' hne]
  · rw [step_hostWrite h, hostWrite_busy hb' hlo]
  · rcases hread with ⟨rfl, ha⟩ | ⟨h0, hlo, hhi, hfit⟩ | ⟨h0, hlo, hfit⟩
    · have ⟨h0, h1, hv⟩ : a.toNat % 4 = 0 ∧ a.toNat ≤ 0x28 ∧ volatileReg a.toNat = true := by
        rcases ha with rfl | rfl | rfl | rfl | rfl <;> decide
      exact step_loadVolatile hb h h0 h1 hv
    · exact step_loadBusy hb (.inl (accessTarget_of_data h0 hlo hhi hfit)) h
    · exact step_loadBusy hb (.inr (accessTarget_of_romtab h0 hlo hfit)) h
  · exact step_loadRegister h (by decide) (by decide) (.inr (by decide))
  · rw [step_cmdWrite h, cmdWrite_busy hb']

end Sys2Proof.Proofs

/-! ### Proofs: encoding and command accept (30_encoding.md)

The round trip of each operand, the opcode map read as a table, what a store to CMD does, and how an
operation starts and ends when its first primitive step is known. -/

namespace Sys2Proof.Proofs

open Sys2Proof Sys2Proof.Machine Sys2Proof.Safety

/-! #### Operands (30_encoding.md R58) -/

theorem rateOf_rselOf (r : Rate) : rateOf (rselOf r) = r := by cases r <;> decide

theorem byteOf_setWidth (b : Byte) : byteOf (b.setWidth 32) = b := by
  rw [byteOf, BitVec.extractLsb'_setWidth_of_le (by decide), BitVec.extractLsb'_eq_self]

/-- The two address registers hold the whole address (10_state.md R26). -/
theorem romOf_halves (rom : Rom) : romOf (rom.extractLsb' 0 32) (rom.extractLsb' 32 32) = rom :=
  BitVec.extractLsb'_append_extractLsb'

/-- An instruction's encoding decodes to it: where an operand is cut out of a register, by its own
round trip; the other operands are whole registers. -/
theorem decode_encode (i : Instr) : decode (encode i) = .ok i := by
  cases i with
  | openPort r => exact congrArg (fun r => Except.ok (Instr.openPort r)) (rateOf_rselOf r)
  | switchRate r => exact congrArg (fun r => Except.ok (Instr.switchRate r)) (rateOf_rselOf r)
  | owWriteByte b => exact congrArg (fun b => Except.ok (Instr.owWriteByte b)) (byteOf_setWidth b)
  | owSelect rom => exact congrArg (fun rom => Except.ok (Instr.owSelect rom)) (romOf_halves rom)
  | _ => rfl

/-- Settles O1: `decode_encode`; every instruction is well formed. -/
theorem decodeOfEncodeGivesBack : Obligations.DecodeOfEncodeGivesBack := by
  unfold Obligations.DecodeOfEncodeGivesBack
  exact fun i _ => decode_encode i

/-- Settles O2: ten closed words, each evaluated. -/
theorem tableWordsDecode : Obligations.TableWordsDecode := by
  unfold Obligations.TableWordsDecode
  decide

/-! #### The opcode map (30_encoding.md R59, R60) -/

/-- The opcode map as a table: each listed opcode with the instruction it makes of the operand
registers. -/
def opcodeMap : List (Byte × (CmdImage → Instr)) :=
  [(0x00, fun _ => .nop), (0x01, fun img => .openPort (rateOf img.arg0)), (0x02, fun _ => .close),
   (0x03, fun img => .switchRate (rateOf img.arg0)), (0x04, fun _ => .flush),
   (0x05, fun img => .uartWrite img.arg0 img.arg1), (0x06, fun img => .uartRead img.arg0 img.arg1),
   (0x10, fun _ => .owReset), (0x11, fun img => .owTouch img.arg0 img.arg1),
   (0x12, fun img => .owWriteByte (byteOf img.arg0)), (0x13, fun _ => .owReadByte),
   (0x14, fun img => .owSelect (romOf img.rom0 img.rom1)), (0x20, fun _ => .owSearch),
   (0x30, fun img => .crcCompute img.arg0 img.arg1),
   (0x31, fun img => .crcValidate img.arg0 img.arg1)]

/-- Decoding by a table: its first row with the opcode; an opcode in no row is rejected. -/
def decodeBy (img : CmdImage) : List (Byte × (CmdImage → Instr)) → Except Reject Instr
  | [] => .error (.reservedOpcode img.op)
  | (op, make) :: rows => if img.op = op then .ok (make img) else decodeBy img rows

theorem decodeCommand_eq_decodeBy (img : CmdImage) :
    decodeCommand img = decodeBy img opcodeMap := rfl

theorem decodeBy_error_iff (img : CmdImage) (rows : List (Byte × (CmdImage → Instr))) :
    (∃ r, decodeBy img rows = .error r) ↔ img.op ∉ rows.map Prod.fst := by
  induction rows with
  | nil => simp [decodeBy]
  | cons row rows ih =>
    by_cases hop : img.op = row.1
    · simp [decodeBy, hop]
    · simp [decodeBy, hop, ih]

/-- A command is rejected exactly when the table does not list its opcode. -/
theorem decodeCommand_error_iff (img : CmdImage) :
    (∃ r, decodeCommand img = .error r) ↔ img.op ∉ opcodeMap.map Prod.fst := by
  rw [decodeCommand_eq_decodeBy, decodeBy_error_iff]

/-- The opcodes that are not listed are those of R60's reserved ranges. -/
theorem not_mem_opcodes_iff (op : Byte) :
    op ∉ opcodeMap.map Prod.fst ↔
      (0x07 ≤ op ∧ op ≤ 0x0F) ∨ (0x15 ≤ op ∧ op ≤ 0x1F) ∨ (0x21 ≤ op ∧ op ≤ 0x2F) ∨
        0x32 ≤ op := by
  revert op; decide

/-! #### Command accept (30_encoding.md R57) -/

section CommandStore

variable {s : State} {w : Word} {rest : List Turn}
  (h : s.agenda = .host (.write .w32 0x000 w) :: rest)
include h

theorem step_cmdStore_busy (hb : s.busy = true) :
    step s = .next { s with agenda := rest, ovr := true } := by
  rw [step_cmdWrite h, cmdWrite_busy (s := { s with agenda := rest }) hb]

/-- A store to CMD that does not decode is accepted as RUN(ILLEGAL). -/
theorem step_accept_illegal {r : Reject} (hs : s.seq = .idle)
    (hd : decodeCommand ⟨w, s.arg0, s.arg1, s.rom0, s.rom1⟩ = .error r) :
    step s = .next (State.accept { s with agenda := rest } .illegal) := by
  have hdecoded : State.decoded { s with agenda := rest } w = .illegal := by
    simp [State.decoded, State.image, hd]
  rw [step_cmdWrite h, State.cmdWrite, if_neg (by simp [State.busy, hs]), hdecoded]

end CommandStore

/-- The ENGINE's step of a reserved opcode is its completion (30_encoding.md R60). -/
theorem step_engine_illegal {s : State} {ans : LineAnswer} {rest : List Turn}
    (hs : s.seq = .illegal) (h : s.agenda = .engine ans :: rest) :
    step s = .next (State.complete { s with agenda := rest } .illegalOp) := by
  simp only [step, State.takeTurn, h, runTurn, engineTurn, hs]

/-- Settles O3: an opcode is reserved when the map does not list it, and it is accepted as
RUN(ILLEGAL), which the ENGINE's turn completes. -/
theorem reservedOpcodeCompletesIllegal : Obligations.ReservedOpcodeCompletesIllegal := by
  unfold Obligations.ReservedOpcodeCompletesIllegal
  refine ⟨fun img => (decodeCommand_error_iff img).trans (not_mem_opcodes_iff img.op),
    fun s w ans rest r hs h hd => ?_⟩
  rw [runSteps_succ (step_accept_illegal h hs hd), runSteps_one, step_engine_illegal rfl rfl]
  simp only [State.accept, State.complete, hs]

/-- Settles O4: a store to CMD is dropped (`step_cmdStore_busy`) or accepted, and what it decodes to
is then at its start (`step_accept`, `step_accept_illegal`). -/
theorem commandAcceptLatchesOrDrops : Obligations.CommandAcceptLatchesOrDrops := by
  unfold Obligations.CommandAcceptLatchesOrDrops
  intro s w rest h
  exact ⟨step_cmdStore_busy h,
    fun i hidle hd => step_accept ((State.busy_false_iff s).1 hidle) h hd,
    fun r hidle hd => step_accept_illegal h ((State.busy_false_iff s).1 hidle) hd⟩

/-! #### An operation's first primitive step, and its completion -/

section Starting

variable {i : Instr} {s s' s'' : State} {p : Prim} {rest : List Prim}
  (hs : s.seq = .run i .start) (hi : i ≠ .owSearch) (hl : launchOf i s = .go s' (p :: rest))
include hs hi hl

theorem exec_start_prim : exec i s = stepPrim i .plain p rest [] s' := by
  rw [exec_eq_runPlan i hi, runPlan_start_prim (State.pos_of_run s hs) hl]

theorem exec_start_done (h : runPrim p s' = .ok s'' []) :
    exec i s = .next (s''.setSeq (.run i (.going .plain rest []))) :=
  (exec_start_prim hs hi hl).trans (stepPrim_done h)

theorem exec_start_closed (hp : needsPort p = true) (ho : s'.portOpen = false) :
    exec i s = .next (s'.setSeq (.run i (.raised .transport))) :=
  (exec_start_prim hs hi hl).trans (stepPrim_raised (runPrim_closed hp ho))

end Starting

theorem exec_finish {i : Instr} {s : State} {ph : Phase} {got : List Byte}
    (hs : s.seq = .run i (.going ph [] got)) (hi : i ≠ .owSearch) : exec i s = finishOf i got s :=
  exec_end i hi (State.pos_of_run s hs)

/-! #### The wire codes run on their own (30_encoding.md R61, R62, R65, R66; log 8) -/

/-- A code that starts with a transmit sends it, or raises on a closed port. -/
theorem exec_start_transmit {i : Instr} {s : State} {bs : List Byte} {rest : List Prim}
    (hi : i ≠ .owSearch) (hbs : bs ≠ []) (hl : launchOf i s = .go s (.uartTx bs :: rest)) :
    (s.seq = .run i .start → s.portOpen = true → s.answer = .ok →
      exec i s = .next { s with hist := s.hist ++ [.tx s.rate bs],
                                seq := .run i (.going .plain rest []) }) ∧
    (s.seq = .run i .start → s.portOpen = false →
      exec i s = .next { s with seq := .run i (.raised .transport) }) :=
  ⟨fun hs ho ha => exec_start_done hs hi hl (runPrim_tx_ok ho hbs ha),
   fun hs ho => exec_start_closed hs hi hl rfl ho⟩

/-- The presence rule with RESET_BYTE written out (30_encoding.md R62). -/
theorem presenceOf_eq (e : Byte) : presenceOf e = decide (e ≠ 0xF0 ∧ e ≠ 0x00) := by
  rw [presenceOf, resetByte_eq, Bool.decide_and]

/-- Settles O40: a touch and a command byte each start with their transmit and then complete, and
the reset symbol starts with its flush and completes with the presence of the one byte read. -/
theorem wireCodesRunOnTheirOwn : Obligations.WireCodesRunOnTheirOwn := by
  unfold Obligations.WireCodesRunOnTheirOwn
  refine ⟨fun s i x hix => ?_, fun s => ⟨fun hs ho => ?_, fun hs ho => ?_, fun e hs => ?_⟩,
    fun s i bs hib => ?_⟩
  · have ⟨hi, hlaunch, hfinish⟩ : i ≠ .owSearch ∧
        launchOf i s = .go s [.uartTx [x], .delay .chunkSettle, .uartRx 1] ∧
        ∀ e, finishOf i [e] s = finishOk { s with touchResp := some (e.getLsbD 0) } := by
      rcases hix with ⟨rfl, rfl⟩ | ⟨rfl, rfl⟩ <;> exact ⟨nofun, rfl, fun _ => rfl⟩
    obtain ⟨hsent, hraised⟩ := exec_start_transmit hi (by simp) hlaunch
    exact ⟨hsent, hraised, fun e hs => (exec_finish hs hi).trans (hfinish e)⟩
  · exact exec_start_done hs nofun rfl (runPrim_flush (s := s.beginReset) ho)
  · exact exec_start_closed hs nofun rfl rfl (s' := s.beginReset) ho
  · rw [exec_finish hs nofun, ← presenceOf_eq]
    rfl
  · have ⟨hi, hne, hlaunch, hfinish⟩ : i ≠ .owSearch ∧ bs ≠ [] ∧
        launchOf i s = .go s [.uartTx bs, .delay .chunkSettle, .uartRx 8] ∧
        ∀ got, finishOf i got s = finishOk s := by
      rcases hib with ⟨rfl, rfl⟩ | ⟨rfl, rfl⟩ | ⟨rfl, rfl⟩ | ⟨rfl, rfl⟩ <;>
        exact ⟨nofun, nofun, rfl, fun _ => rfl⟩
    obtain ⟨hsent, hraised⟩ := exec_start_transmit hi hne hlaunch
    exact ⟨hsent, hraised, fun got hs => (exec_finish hs hi).trans (hfinish got)⟩

end Sys2Proof.Proofs

/-! ### Proofs: transport operations (40_transport.md)

How an operation ends at its first ENGINE step or at its completion, the operand of UART_WRITE and the
block UART_READ stores, and the frames of the operations that write the wire alone or DATA. -/

namespace Sys2Proof.Proofs

open Sys2Proof Sys2Proof.Machine Sys2Proof.Safety

/-! #### Decoding a listed opcode (30_encoding.md R59) -/

/-- In a table that lists no opcode twice every row is reached. -/
theorem decodeBy_of_mem {img : CmdImage} {rows : List (Byte × (CmdImage → Instr))} {op : Byte}
    {make : CmdImage → Instr} (hnodup : (rows.map Prod.fst).Nodup) (hrow : (op, make) ∈ rows)
    (hop : img.op = op) : decodeBy img rows = .ok (make img) := by
  induction rows with
  | nil => cases hrow
  | cons row rows ih =>
    obtain ⟨hfresh, hnodup⟩ := List.nodup_cons.1 hnodup
    rcases List.mem_cons.1 hrow with rfl | hrow
    · exact if_pos hop
    · have hne : img.op ≠ row.1 := fun heq =>
        hfresh (heq ▸ hop ▸ List.mem_map_of_mem (f := Prod.fst) hrow)
      exact (if_neg hne).trans (ih hnodup hrow)

/-- A command whose opcode stands in row `k` of the map decodes to that row's instruction. -/
theorem decodeCommand_of_row (k : Nat) {img : CmdImage} {op : Byte} {make : CmdImage → Instr}
    (hrow : opcodeMap[k]? = some (op, make)) (hop : img.op = op) :
    decodeCommand img = .ok (make img) := by
  rw [decodeCommand_eq_decodeBy]
  exact decodeBy_of_mem (by decide) (List.mem_of_getElem? hrow) hop

/-! #### How the first ENGINE step ends, and the report of a raise -/

section FirstStep

variable {i : Instr} {s : State} (hs : s.seq = .run i .start) (hi : i ≠ .owSearch)
include hs hi

/-- A raise before any primitive step completes at once (60_exceptions.md R110). -/
theorem exec_start_error {e : ErrCode} (hl : launchOf i s = .raise e) :
    exec i s = .next (s.complete e) := by
  rw [exec_eq_runPlan i hi, runPlan_start_raise (State.pos_of_run s hs) hl]

theorem exec_start_fault {f : Fault} (hl : launchOf i s = .fault f) : exec i s = .fault f := by
  rw [exec_eq_runPlan i hi, runPlan_start_fault (State.pos_of_run s hs) hl]

/-- An operation without a primitive step finishes at once. -/
theorem exec_start_finish {s' : State} (hl : launchOf i s = .go s' []) :
    exec i s = finishOf i [] s' := by
  rw [exec_eq_runPlan i hi, runPlan_start_nil (State.pos_of_run s hs) hl]

variable {s' s'' : State} {p : Prim} {rest : List Prim} (hl : launchOf i s = .go s' (p :: rest))
include hl

theorem exec_start_ok {bs : List Byte} (h : runPrim p s' = .ok s'' bs) :
    exec i s = .next (s''.setSeq (.run i (.going .plain rest bs))) :=
  (exec_start_prim hs hi hl).trans (stepPrim_ok h)

theorem exec_start_raised (h : runPrim p s' = .raised s'') :
    exec i s = .next (s''.setSeq (.run i (.raised .transport))) :=
  (exec_start_prim hs hi hl).trans (stepPrim_raised h)

end FirstStep

/-- Completion reports the raise that the sequencer holds (60_exceptions.md R108). -/
theorem exec_report {i : Instr} {s : State} {e : ErrCode} (hs : s.seq = .run i (.raised e))
    (hi : i ≠ .owSearch) : exec i s = .next (s.complete e) :=
  exec_raised i hi (State.pos_of_run s hs)

/-! #### NOP, OPEN, CLOSE, SWITCH_RATE and FLUSH -/

/-- Settles O15: NOP launches no primitive step (`exec_start_finish`). -/
theorem nopOnlyCompletes : Obligations.NopOnlyCompletes := by
  unfold Obligations.NopOnlyCompletes
  exact ⟨fun img => decodeCommand_of_row 0 rfl, fun s hs => exec_start_finish hs nofun rfl⟩

/-- OPEN raises on an open port, and otherwise takes the port. -/
theorem launchOf_openPort (r : Rate) (s : State) :
    (s.portOpen = true → launchOf (.openPort r) s = .raise .badState) ∧
    (s.portOpen = false → launchOf (.openPort r) s = .go s [.uartOpen r]) :=
  ⟨fun ho => by simp [launchOf, ho], fun ho => by simp [launchOf, ho]⟩

/-- Settles O16: the launch raises BAD_STATE, or LINE answers `uartOpen`. -/
theorem openAcquiresThePort : Obligations.OpenAcquiresThePort := by
  unfold Obligations.OpenAcquiresThePort
  refine ⟨fun img => decodeCommand_of_row 1 rfl, fun s r => ⟨fun hs => ?_,
    fun hs => exec_finish hs nofun, fun hs => exec_report hs nofun⟩⟩
  obtain ⟨hraise, hgo⟩ := launchOf_openPort r s
  exact ⟨fun ho => exec_start_error hs nofun (hraise ho),
    fun ho ha => exec_start_done hs nofun (hgo ho) (runPrim_open_ok ha),
    fun k ho ha => exec_start_raised hs nofun (hgo ho) (runPrim_open_fail ha)⟩

/-- CLOSE has a primitive step only when there is a port to close. -/
theorem launchOf_close (s : State) :
    (s.portOpen = true → launchOf .close s = .go s [.uartClose]) ∧
    (s.portOpen = false → launchOf .close s = .go s []) :=
  ⟨fun ho => by simp [launchOf, ho], fun ho => by simp [launchOf, ho]⟩

/-- Settles O17: an open port is closed by `uartClose`, which always succeeds; with the port closed
the operation finishes at once. -/
theorem closeReleasesThePort : Obligations.CloseReleasesThePort := by
  unfold Obligations.CloseReleasesThePort
  refine ⟨fun img => decodeCommand_of_row 2 rfl, fun s => ?_⟩
  obtain ⟨hopen, hclosed⟩ := launchOf_close s
  exact ⟨fun hs ho => exec_start_done hs nofun (hopen ho) rfl,
    fun hs ho => exec_start_finish hs nofun (hclosed ho), fun hs => exec_finish hs nofun⟩

/-- Settles O18: the three outcomes of `uartSetRate`, then completion. -/
theorem switchRateActs : Obligations.SwitchRateActs := by
  unfold Obligations.SwitchRateActs
  exact ⟨fun img => decodeCommand_of_row 3 rfl, fun s r => ⟨fun hs =>
    ⟨fun ho ha => exec_start_done hs nofun rfl (runPrim_setRate_ok ho ha),
     fun k ho ha => exec_start_raised hs nofun rfl (runPrim_setRate_fail ho ha),
     fun ho => exec_start_closed hs nofun rfl rfl ho⟩,
    fun hs => exec_finish hs nofun, fun hs => exec_report hs nofun⟩⟩

/-- Settles O19: the two outcomes of `uartFlush`, then completion. -/
theorem flushActs : Obligations.FlushActs := by
  unfold Obligations.FlushActs
  exact ⟨fun img => decodeCommand_of_row 4 rfl, fun s => ⟨fun hs =>
    ⟨fun ho => exec_start_done hs nofun rfl (runPrim_flush ho),
     fun ho => exec_start_closed hs nofun rfl rfl ho⟩,
    fun hs => exec_finish hs nofun, fun hs => exec_report hs nofun⟩⟩

/-! #### UART_WRITE -/

section Operand

variable {s : State} {n off : Word} (go : List Byte → Launch)

theorem fetchOperand_outOfRange (h : s.params.bufBytes < off.toNat + n.toNat) :
    s.fetchOperand n off go = .raise .argRange := by
  simp [State.fetchOperand, State.inRange, Nat.not_le.2 h]

theorem fetchOperand_noValue (h : off.toNat + n.toNat ≤ s.params.bufBytes)
    (hread : s.memRead off.toNat n.toNat = none) :
    s.fetchOperand n off go = .fault .unwrittenOperand := by
  simp [State.fetchOperand, State.inRange, h, hread]

theorem fetchOperand_read {bs : List Byte} (h : off.toNat + n.toNat ≤ s.params.bufBytes)
    (hread : s.memRead off.toNat n.toNat = some bs) : s.fetchOperand n off go = go bs := by
  simp [State.fetchOperand, State.inRange, h, hread]

end Operand

/-- Settles O20: the outcomes of MemRead, and with the bytes read those of `uartTx`; what a failed
transmit sends is `sentPart_proper`. -/
theorem uartWriteSendsDataBytes : Obligations.UartWriteSendsDataBytes := by
  unfold Obligations.UartWriteSendsDataBytes
  refine ⟨fun img => decodeCommand_of_row 5 rfl, fun s n off => ⟨fun hs =>
    ⟨fun hlt => exec_start_error hs nofun (fetchOperand_outOfRange _ hlt),
     fun hle hnone => exec_start_fault hs nofun (fetchOperand_noValue _ hle hnone),
     fun bs hle hread => ?_⟩,
    fun hs => exec_finish hs nofun, fun hs => exec_report hs nofun⟩⟩
  have hl : launchOf (.uartWrite n off) s = .go s [.uartTx bs] := fetchOperand_read _ hle hread
  refine ⟨fun ho => exec_start_closed hs nofun hl rfl ho, ?_,
    fun ho hbs ha => exec_start_done hs nofun hl (runPrim_tx_ok ho hbs ha), fun k ho hbs ha => ?_⟩
  · rintro ho rfl
    exact exec_start_done hs nofun hl (runPrim_tx_nil ho)
  · obtain ⟨hprefix, hshort, -⟩ := sentPart_proper hbs k
    exact ⟨sentPart bs k, hprefix, hshort, exec_start_raised hs nofun hl (runPrim_tx_fail ho hbs ha)⟩

/-! #### UART_READ -/

/-- UART_READ raises on a block that does not fit, and otherwise comes to its read. -/
theorem launchOf_uartRead (n off : Word) (s : State) :
    (s.params.bufBytes < off.toNat + n.toNat →
      launchOf (.uartRead n off) s = .raise .argRange) ∧
    (off.toNat + n.toNat ≤ s.params.bufBytes →
      launchOf (.uartRead n off) s = .go s [.uartRx n.toNat]) :=
  ⟨fun h => by simp [launchOf, State.inRange, Nat.not_le.2 h],
   fun h => by simp [launchOf, State.inRange, h]⟩

/-- Settles O21: the outcomes of the range check and of `uartRx`; completion writes the block read,
and a block written reads back and touches nothing else. -/
theorem uartReadStoresWhatItRead : Obligations.UartReadStoresWhatItRead := by
  unfold Obligations.UartReadStoresWhatItRead
  refine ⟨fun img => decodeCommand_of_row 6 rfl, fun s n off =>
    ⟨fun hs => ?_, fun bs hs hlen hwf => ?_, fun hs => exec_report hs nofun⟩⟩
  · obtain ⟨hraise, hgo⟩ := launchOf_uartRead n off s
    refine ⟨fun hlt => exec_start_error hs nofun (hraise hlt), fun hle =>
      ⟨fun ho => exec_start_closed hs nofun (hgo hle) rfl ho, ?_, fun ho hn hrx => ?_,
       fun ho hrx => exec_start_raised hs nofun (hgo hle) (runPrim_rx_timeout ho hrx)⟩⟩
    · rintro ho rfl
      exact exec_start_done hs nofun (hgo hle) (runPrim_rx_zero ho)
    · have hpos : 0 < n.toNat := Nat.pos_of_ne_zero fun h0 => hn (BitVec.eq_of_toNat_eq h0)
      exact exec_start_ok hs nofun (hgo hle) (runPrim_rx_complete ho hpos hrx)
  · exact ⟨Memory.writeBytes s.mem (0x100 + off.toNat) bs, exec_finish hs nofun,
      fun k hk => Memory.read_writeBytes_at _ _ _ _ hwf hk,
      fun a ha => Memory.read_writeBytes_of_outside _ _ _ _ (hlen ▸ ha)⟩

/-! #### Frames -/

/-- Settles O42: each operation that `ExecFrame` lets write PRESENT, RESULT, the response bit or
memory is none of those at hand. -/
theorem wireOnlyOperationsKeepTheRest : Obligations.WireOnlyOperationsKeepTheRest := by
  unfold Obligations.WireOnlyOperationsKeepTheRest
  intro i s t hi h
  obtain ⟨hrest, hpresent, hresult, htouch, hmem⟩ :=
    execFrame_of_exec (by rintro rfl; simp at hi) h
  replace hpresent := hpresent.resolve_right (by rintro (rfl | rfl) <;> simp at hi)
  replace hresult := hresult.resolve_right (by
    rintro (⟨n, off, rfl⟩ | ⟨rfl | rfl | ⟨n, off, rfl⟩, -⟩) <;> simp at hi)
  replace htouch := htouch.resolve_right (by rintro (rfl | rfl) <;> simp at hi)
  replace hmem := hmem.resolve_right (by rintro (⟨n, off, rfl⟩ | ⟨n, off, rfl⟩) <;> simp at hi)
  rwa [hpresent, hresult, htouch, hmem] at hrest

section Storing

variable {i : Instr} {n off : Word} {s t : State} (hi : i = .uartRead n off ∨ i = .owTouch n off)
include hi

/-- An operation that stores to DATA writes, when it completes, as many bytes from `off` on as it
read. -/
theorem finishOf_storing {got : List Byte} (h : finishOf i got s = .next t) :
    ∃ bs, bs.length = got.length ∧ t = (s.memWrite off.toNat bs).complete .ok := by
  rcases hi with rfl | rfl <;> cases h
  · exact ⟨got, rfl, rfl⟩
  · exact ⟨_, List.length_map _, rfl⟩

/-- From a position the sequencer can be at, a step of an operation that stores to DATA leaves memory
alone, or completes with its `n` bytes written. -/
theorem exec_storing_cases {pos : Pos} (hs : s.seq = .run i pos) (hq : SeqOk s)
    (h : exec i s = .next t) :
    t.mem = s.mem ∨
      ∃ bs, bs.length = n.toNat ∧ t = (s.memWrite off.toNat bs).complete .ok := by
  have hsearch : i ≠ .owSearch := by rcases hi with rfl | rfl <;> nofun
  have same {s' : State} (he : Entered i s s') : s' = s :=
    he.resolve_right fun ⟨hreset, _⟩ => by rcases hi with rfl | rfl <;> simp at hreset
  rcases exec_outcomes_of_seqOk hsearch hq hs h with
    ⟨e, -, rfl⟩ | ⟨s', ph, got, he, hp, hf⟩ | ⟨s', ph, p, rest, got, he, -, hp⟩
  · exact .inl rfl
  · obtain ⟨bs, hbs, ht⟩ := finishOf_storing hi hf
    obtain ⟨-, -, hlen⟩ := hp
    have hread : got.length = n.toNat := by rcases hi with rfl | rfl <;> exact hlen
    exact .inr ⟨bs, hbs.trans hread, same he ▸ ht⟩
  · rw [stepPrim_frame hp, same he]
    exact .inl rfl

end Storing

/-- Settles O44: the fields are those of `ExecFrame`, and memory is written only by the completion of
`exec_storing_cases`. -/
theorem storingOperationsKeepTheRest : Obligations.StoringOperationsKeepTheRest := by
  unfold Obligations.StoringOperationsKeepTheRest
  intro i n off pos s t hi hs hq h
  refine ⟨?_, ?_⟩
  · obtain ⟨hrest, hpresent, hresult, htouch, -⟩ :=
      execFrame_of_exec (by rcases hi with rfl | rfl <;> nofun) h
    rcases hi with rfl | rfl <;>
      simp only [reduceCtorEq, exists_false, or_false, false_and] at hpresent hresult htouch <;>
      rwa [hpresent, hresult, htouch] at hrest
  · rcases exec_storing_cases hi hs hq h with hmem | ⟨bs, hlen, rfl⟩
    · exact ⟨fun _ => hmem, fun a _ => by rw [hmem]⟩
    · refine ⟨fun hbusy => ?_, fun a ha => ?_⟩
      · rcases hbusy with hbusy | herr
        · cases hbusy
        · exact absurd rfl herr
      · exact Memory.read_writeBytes_of_outside _ _ _ _ (hlen ▸ ha)

end Sys2Proof.Proofs

/-! ### Proofs: the CRC-8 Validator (41_crc8.md)

The table's entries, what a block's CRC says of the block, and the one ENGINE step of each CRC
operation. -/

namespace Sys2Proof.Proofs

open Sys2Proof Sys2Proof.Machine

/-! #### The table (41_crc8.md R78) -/

theorem crcTable_length : crcTable.length = 256 := by decide +kernel

/-- `crcEntry` reads within the table: its default value is never used. -/
theorem getElem?_crcTable (x : Byte) : crcTable[x.toNat]? = some (crcEntry x) := by
  have hx : x.toNat < crcTable.length := crcTable_length ▸ x.isLt
  rw [crcEntry, List.getD_eq_getElem _ _ hx, List.getElem?_eq_getElem hx]

/-- Settles O22: `crcEntry_check` with the entry read from the table itself. -/
theorem crcTableIsTheBitSerialForm : Obligations.CrcTableIsTheBitSerialForm := by
  unfold Obligations.CrcTableIsTheBitSerialForm
  exact fun x => ⟨crcTable_length, (getElem?_crcTable x).trans (congrArg some (crcEntry_check x)),
    fun _ => rfl⟩

/-! #### Consequences of the definition (41_crc8.md R80) -/

theorem crc8_singleton (b : Byte) : crc8 [b] = crcEntry b := by
  simp [crc8, crcStep]

/-- The appended CRC takes the accumulator from itself to zero. -/
theorem crc8_append_crc8 (bs : List Byte) : crc8 (bs ++ [crc8 bs]) = 0 :=
  (crc8_append bs [crc8 bs]).trans (crcStep_self _)

theorem crc8_replicate_zero (k : Nat) : crc8 (List.replicate k 0) = 0 := by
  induction k with
  | zero => exact crc8_nil
  | succ k ih => rw [List.replicate_succ', crc8_append, ih]; exact crcStep_self 0

/-- The accumulators part at the altered byte, and no later byte brings them together again. -/
theorem crc8_ne_of_byte_ne (xs ys : List Byte) {b c : Byte} (hbc : b ≠ c) :
    crc8 (xs ++ b :: ys) ≠ crc8 (xs ++ c :: ys) := by
  rw [crc8_append, crc8_append]
  have hpart : crcStep (crc8 xs) b ≠ crcStep (crc8 xs) c := (crcStep_right_injective _).ne hbc
  exact (foldl_crcStep_injective ys).ne hpart

/-- Settles O23: an entry determines its index, so that a step of the accumulator loses neither the
byte nor the accumulator (`crc8_ne_of_byte_ne`). -/
theorem crcConsequences : Obligations.CrcConsequences := by
  unfold Obligations.CrcConsequences
  refine ⟨crc8_nil, (crcValid_iff _).2 crc8_nil, fun b => ?_, fun bs => ?_, crc8_replicate_zero,
    fun xs ys b c hbc => ?_⟩
  · rw [crc8_singleton, getElem?_crcTable]
  · exact ⟨crc8_append_crc8 bs, (crcValid_iff _).2 (crc8_append_crc8 bs)⟩
  · have hne := crc8_ne_of_byte_ne xs ys hbc
    refine ⟨hne, fun hvalid => Bool.eq_false_iff.2 fun hvalid' => hne ?_⟩
    exact ((crcValid_iff _).1 hvalid).trans ((crcValid_iff _).1 hvalid').symm

/-! #### CRC_COMPUTE and CRC_VALIDATE (41_crc8.md R81, R82) -/

section CrcOperation

variable {i : Instr} {n off : Word} {s : State}
  (hi : i = .crcCompute n off ∨ i = .crcValidate n off)
include hi

theorem crcOperation_ne_owSearch : i ≠ .owSearch := by
  rcases hi with rfl | rfl <;> nofun

/-- Before it finishes, a CRC operation only checks its operand. -/
theorem launchOf_crc (s : State) : launchOf i s = s.fetchOperand n off (fun _ => .go s []) := by
  rcases hi with rfl | rfl <;> rfl

variable (hs : s.seq = .run i .start)
include hs

theorem exec_crc_outOfRange (hlt : s.params.bufBytes < off.toNat + n.toNat) :
    exec i s = .next (s.complete .argRange) :=
  exec_start_error hs (crcOperation_ne_owSearch hi)
    ((launchOf_crc hi s).trans (fetchOperand_outOfRange _ hlt))

variable (hle : off.toNat + n.toNat ≤ s.params.bufBytes)
include hle

theorem exec_crc_noValue (hread : s.memRead off.toNat n.toNat = none) :
    exec i s = .fault .unwrittenOperand :=
  exec_start_fault hs (crcOperation_ne_owSearch hi)
    ((launchOf_crc hi s).trans (fetchOperand_noValue _ hle hread))

theorem exec_crc_read {bs : List Byte} (hread : s.memRead off.toNat n.toNat = some bs) :
    exec i s = finishOf i [] s :=
  exec_start_finish hs (crcOperation_ne_owSearch hi)
    ((launchOf_crc hi s).trans (fetchOperand_read _ hle hread))

end CrcOperation

section CrcFinish

variable {n off : Word} {s : State} {bs : List Byte} (got : List Byte)
  (hread : s.memRead off.toNat n.toNat = some bs)
include hread

theorem finishOf_crcCompute : finishOf (.crcCompute n off) got s =
    .next ({ s with result := (crc8 bs).setWidth 32 }.complete .ok) := by
  simp [finishOf, finishOk, hread]

theorem finishOf_crcValidate : finishOf (.crcValidate n off) got s =
    .next ({ s with result := packResult (crc8 bs) (crcValid bs) }.complete
      (if crcValid bs then .ok else .dataIntegrity)) := by
  simp [finishOf, hread]

end CrcFinish

/-- The layout of RESULT by a shift: the byte in bits 15:8, the flag in bit 0. -/
theorem packResult_eq (x : Byte) (b : Bool) :
    packResult x b = x.setWidth 32 <<< 8 ||| (if b then 1 else 0) := by
  revert x b
  decide +kernel

/-- Settles O24: range check and MemRead, and RESULT from the bytes read. -/
theorem crcComputeWritesTheCrc : Obligations.CrcComputeWritesTheCrc := by
  unfold Obligations.CrcComputeWritesTheCrc
  exact ⟨fun img => decodeCommand_of_row 13 rfl, fun s n off hs =>
    ⟨exec_crc_outOfRange (.inl rfl) hs, exec_crc_noValue (.inl rfl) hs, fun bs hle hread =>
      (exec_crc_read (.inl rfl) hs hle hread).trans (finishOf_crcCompute [] hread)⟩⟩

/-- Settles O25: range check and MemRead, and RESULT from the bytes read, with the error that the
validity of the block names. -/
theorem crcValidateReportsIntegrity : Obligations.CrcValidateReportsIntegrity := by
  unfold Obligations.CrcValidateReportsIntegrity
  refine ⟨fun img => decodeCommand_of_row 14 rfl, fun s n off hs =>
    ⟨exec_crc_outOfRange (.inr rfl) hs, exec_crc_noValue (.inr rfl) hs, fun bs hle hread => ?_⟩⟩
  rw [exec_crc_read (.inr rfl) hs hle hread, finishOf_crcValidate [] hread, packResult_eq]
  simp only [crcValid_iff]
  rfl

end Sys2Proof.Proofs

/-! ### Proofs: the bus engine (42_bus_engine.md)

A touch as chunks and as a run, the operations built on touches, and the bus reset. -/

namespace Sys2Proof.Proofs

open Sys2Proof Sys2Proof.Machine Sys2Proof.Safety

/-! #### Touches (42_bus_engine.md R85) -/

theorem txBytes_append (ps qs : List Prim) : txBytes (ps ++ qs) = txBytes ps ++ txBytes qs := by
  induction ps with
  | nil => rfl
  | cons p ps ih => cases p <;> simp [txBytes, ih]

theorem txBytes_touchPrims (bits : List Bool) : txBytes (touchPrims bits) = bits.map sym := by
  induction bits using chunk_induction with
  | nil => rfl
  | chunk bits hne ih =>
    rw [touchPrims_chunk bits hne]
    simp only [txBytes, ih]
    rw [← List.map_append, List.take_append_drop]

/-- Three primitive steps per chunk (70_reset_and_hazards.md R133). -/
theorem length_touchPrims (bits : List Bool) :
    (touchPrims bits).length = 3 * ((bits.length + 15) / 16) := by
  induction bits using chunk_induction with
  | nil => rfl
  | chunk bits hne ih =>
    have hpos := List.length_pos_of_ne_nil hne
    rw [touchPrims_chunk bits hne]
    simp only [List.length_cons]
    rw [ih, List.length_drop, show Config.chunk = 16 from rfl]
    omega

/-- Every transmit of a touch is a chunk: never empty, and of 16 bytes at most. -/
theorem length_of_uartTx_mem_touchPrims (bits : List Bool) {bs : List Byte}
    (h : Prim.uartTx bs ∈ touchPrims bits) : 0 < bs.length ∧ bs.length ≤ 16 := by
  induction bits using chunk_induction with
  | nil => cases h
  | chunk bits hne ih =>
    have hpos := List.length_pos_of_ne_nil hne
    rw [touchPrims_chunk bits hne] at h
    simp only [List.mem_cons, Prim.uartTx.injEq, reduceCtorEq, false_or] at h
    rcases h with rfl | h
    · simp only [List.length_map, List.length_take, Config.chunk]
      omega
    · exact ih h

/-- Settles O28: induction over the chunks for what is sent, read and counted. -/
theorem touchSendsEveryBitInChunks : Obligations.TouchSendsEveryBitInChunks := by
  unfold Obligations.TouchSendsEveryBitInChunks
  refine fun bits => ⟨txBytes_touchPrims bits, rxTotal_touchPrims bits, length_touchPrims bits,
    fun bs => length_of_uartTx_mem_touchPrims bits, fun hne => ?_⟩
  rw [touchPrims_chunk bits hne, List.length_take]
  rfl

/-! #### OW_RESET (42_bus_engine.md R83, R84) -/

/-- What OW_RESET reports from its one echo. -/
theorem finishOf_owReset (e : Byte) (s : State) :
    finishOf .owReset [e] s =
      .next { s with
        present := decide (e ≠ 0xF0 ∧ e ≠ 0x00)
        result := e.setWidth 32 <<< 8 ||| (if e ≠ 0xF0 ∧ e ≠ 0x00 then 1 else 0)
        err := .ok, done := true, seq := .idle } := by
  rw [← presenceOf_eq]
  have hresult : packResult e (presenceOf e) =
      e.setWidth 32 <<< 8 ||| (if e ≠ 0xF0 ∧ e ≠ 0x00 then 1 else 0) := by
    rw [packResult_eq, presenceOf_eq]
    simp only [decide_eq_true_eq]
  rw [← hresult]
  rfl

/-- Settles O26: the flush that opens, what completion reports of the echo, and the raise. -/
theorem owResetBeginsAndReports : Obligations.OwResetBeginsAndReports := by
  unfold Obligations.OwResetBeginsAndReports
  refine ⟨fun img => decodeCommand_of_row 7 rfl, fun s => ⟨fun hs => ⟨fun ho => ?_, fun ho => ?_⟩,
    fun e hs => (exec_finish hs nofun).trans (finishOf_owReset e s),
    fun hs => exec_report hs nofun⟩⟩
  · exact exec_start_done hs nofun rfl (runPrim_flush (s := s.beginReset) ho)
  · exact exec_start_closed hs nofun rfl rfl (s' := s.beginReset) ho

/-! #### Turns of the agenda -/

section Turns

variable {i : Instr} {ph : Phase} {p : Prim} {todo : List Prim} {got bs : List Byte}
  {s s' : State} {ans : LineAnswer} {turns : List Turn}

/-- An ENGINE turn at a primitive step that succeeds. -/
theorem step_going (hs : s.seq = .run i (.going ph (p :: todo) got))
    (hagenda : s.agenda = .engine ans :: turns)
    (h : runPrim p { s with agenda := turns, answer := ans } = .ok s' bs) :
    step s = .next (s'.setSeq (.run i (.going ph todo (got ++ bs)))) :=
  (step_engine hs hagenda).trans
    (exec_prim_ok (s := { s with agenda := turns, answer := ans }) hs h)

/-- Two states whose next step is the same run alike. -/
theorem runSteps_congr {t : State} (h : step s = step t) (k : Nat) :
    runSteps (k + 1) s = runSteps (k + 1) t := by
  have h' : Sys2Proof.core.step s = Sys2Proof.core.step t := h
  unfold runSteps
  simp only [Host.Core.run]
  rw [h']

/-- LINE's turns append their bytes to the receive FIFO, in order. -/
theorem runSteps_line (vs : List Byte) (ho : s.portOpen = true)
    (hagenda : s.agenda = vs.map Turn.line ++ turns) :
    runSteps vs.length s = .next { s with
      agenda := turns, rx := s.rx ++ vs, hist := s.hist ++ vs.map Event.lineRx } := by
  induction vs generalizing s with
  | nil =>
    obtain rfl : s.agenda = turns := hagenda
    simp
  | cons v vs ih =>
    refine (runSteps_succ (step_line ho hagenda)).trans (Eq.trans (ih ho rfl) ?_)
    simp

end Turns

/-! #### A whole touch (42_bus_engine.md R85) -/

theorem sentBytes_append (es fs : List Event) :
    sentBytes (es ++ fs) = sentBytes es ++ sentBytes fs := by
  induction es with
  | nil => rfl
  | cons e es ih => cases e <;> simp [sentBytes, ih]

theorem sentBytes_lineRx (vs : List Byte) : sentBytes (vs.map Event.lineRx) = [] := by
  induction vs with
  | nil => rfl
  | cons v vs ih => exact ih

/-- What one chunk leaves in the history. -/
def chunkEvents (r : Rate) (bs es : List Byte) : List Event :=
  .tx r bs :: (es.map Event.lineRx ++ [.delay .chunkSettle, .rx es])

theorem sentBytes_chunkEvents (r : Rate) (bs es : List Byte) :
    sentBytes (chunkEvents r bs es) = bs := by
  simp [chunkEvents, sentBytes, sentBytes_append, sentBytes_lineRx]

/-- All that a touch changes once its echoes are read back: the turns taken, the history and the
sequencer. -/
def touched (s : State) (turns : List Turn) (ans : LineAnswer) (evs : List Event)
    (q : Seq) : State :=
  { s with agenda := turns, answer := ans, hist := s.hist ++ evs, seq := q }

theorem touched_touched (s : State) (turns turns' : List Turn) (ans ans' : LineAnswer)
    (evs evs' : List Event) (q q' : Seq) :
    touched (touched s turns ans evs q) turns' ans' evs' q' =
      touched s turns' ans' (evs ++ evs') q' := by
  simp [touched]

/-- A transmit that follows another primitive step. -/
theorem step_transmit {i : Instr} {ph : Phase} {bs got : List Byte} {todo : List Prim} {s : State}
    {turns : List Turn} (hs : s.seq = .run i (.going ph (.uartTx bs :: todo) got))
    (ho : s.portOpen = true) (hbs : bs ≠ []) (hagenda : s.agenda = .engine .ok :: turns) :
    step s = .next (touched s turns .ok [.tx s.rate bs] (.run i (.going ph todo got))) := by
  rw [step_going hs hagenda (runPrim_tx_ok ho hbs rfl), List.append_nil]
  rfl

/-- One chunk: the transmit, LINE's echoes, the settle delay and the read. -/
theorem runSteps_chunk {i : Instr} {ph : Phase} {todo : List Prim} {bs es got : List Byte}
    {s : State} {turns : List Turn} (ho : s.portOpen = true) (hrx : s.rx = []) (hbs : bs ≠ [])
    (hes : es ≠ []) (hs : s.seq = .run i (.going ph
      (.uartTx bs :: .delay .chunkSettle :: .uartRx es.length :: todo) got))
    (hagenda : s.agenda =
      .engine .ok :: es.map Turn.line ++ (.engine .ok :: .engine .ok :: turns)) :
    runSteps (es.length + 3) s = .next (touched s turns .ok (chunkEvents s.rate bs es)
      (.run i (.going ph todo (got ++ es)))) := by
  have hpos := List.length_pos_of_ne_nil hes
  refine (runSteps_succ (step_transmit hs ho hbs hagenda)).trans ?_
  refine Eq.trans (runSteps_add (k := 2) (runSteps_line es ho rfl)) ?_
  refine Eq.trans (runSteps_succ (k := 1) (step_going rfl rfl rfl)) ?_
  refine Eq.trans (runSteps_one _) ?_
  refine Eq.trans (step_going rfl rfl (runPrim_rx_complete ho hpos ?_)) ?_
  · simp
  · simp [State.setSeq, State.record, touched, chunkEvents, hrx]

@[simp] theorem chunkTurns_nil (fuel : Nat) : chunkTurns fuel [] = [] := by cases fuel <;> rfl

/-- The turns of one chunk, then those of the rest. -/
theorem chunkTurns_chunk {fuel : Nat} {es : List Byte} (hne : es ≠ []) (hfuel : es.length ≤ fuel) :
    ∃ fuel', (es.drop Config.chunk).length ≤ fuel' ∧
      chunkTurns fuel es = .engine .ok :: (es.take Config.chunk).map Turn.line ++
        (.engine .ok :: .engine .ok :: chunkTurns fuel' (es.drop Config.chunk)) := by
  have hpos := List.length_pos_of_ne_nil hne
  cases fuel with
  | zero => omega
  | succ fuel =>
    cases es with
    | nil => exact absurd rfl hne
    | cons e es =>
      refine ⟨fuel, ?_, rfl⟩
      rw [List.length_drop, show Config.chunk = 16 from rfl]
      omega

/-- A whole touch, chunk by chunk: every bit is sent, and what it reads is what LINE echoes. -/
theorem runSteps_touch {i : Instr} {ph : Phase} {turns : List Turn} (bits : List Bool) :
    ∀ {fuel : Nat} {s : State} {got es : List Byte}, es.length ≤ fuel → es.length = bits.length →
      s.portOpen = true → s.rx = [] → s.seq = .run i (.going ph (touchPrims bits) got) →
      s.agenda = chunkTurns fuel es ++ turns →
      ∃ ans evs, runSteps (chunkTurns fuel es).length s =
          .next (touched s turns ans evs (.run i (.going ph [] (got ++ es)))) ∧
        sentBytes evs = bits.map sym := by
  induction bits using chunk_induction with
  | nil =>
    intro fuel s got es _ hlen _ _ hs hagenda
    obtain rfl := List.length_eq_zero_iff.1 hlen
    rw [chunkTurns_nil, List.nil_append] at hagenda
    refine ⟨s.answer, [], ?_, rfl⟩
    rw [chunkTurns_nil, touched, List.append_nil, List.append_nil, ← hagenda, ← touchPrims_nil,
      ← hs]
    rfl
  | chunk bits hne ih =>
    intro fuel s got es hfuel hlen ho hrx hs hagenda
    have hes : es ≠ [] := List.ne_nil_of_length_pos (hlen ▸ List.length_pos_of_ne_nil hne)
    obtain ⟨fuel', hfuel', hturns⟩ := chunkTurns_chunk hes hfuel
    have htake : (es.take Config.chunk).length = (bits.take Config.chunk).length := by
      rw [List.length_take, List.length_take, hlen]
    have hdrop : (es.drop Config.chunk).length = (bits.drop Config.chunk).length := by
      rw [List.length_drop, List.length_drop, hlen]
    rw [touchPrims_chunk bits hne, ← htake] at hs
    rw [hturns] at hagenda
    have hchunk := runSteps_chunk (turns := chunkTurns fuel' (es.drop Config.chunk) ++ turns) ho hrx
      (by simp [hne, Config.chunk]) (by simp [hes, Config.chunk]) hs (hagenda.trans (by simp))
    obtain ⟨ans, evs, hrest, hsent⟩ := ih
      (s := touched s (chunkTurns fuel' (es.drop Config.chunk) ++ turns) .ok _
        (.run i (.going ph _ _))) hfuel' hdrop ho hrx rfl rfl
    refine ⟨ans, chunkEvents s.rate ((bits.take Config.chunk).map sym) (es.take Config.chunk) ++
      evs, ?_, ?_⟩
    · have hcount : (chunkTurns fuel es).length =
          (es.take Config.chunk).length + 3 + (chunkTurns fuel' (es.drop Config.chunk)).length := by
        simp only [hturns, List.length_cons, List.length_append, List.length_map]
        omega
      rw [hcount, runSteps_add hchunk, hrest, touched_touched, List.append_assoc,
        List.take_append_drop]
    · rw [sentBytes_append, sentBytes_chunkEvents, hsent, ← List.map_append, List.take_append_drop]

/-! #### OW_TOUCH (42_bus_engine.md R86) -/

section OwTouch

variable {s : State} {n off : Word} {bs : List Byte}

/-- With its operand read, OW_TOUCH touches bit 0 of each byte. -/
theorem launchOf_owTouch (hle : off.toNat + n.toNat ≤ s.params.bufBytes)
    (hread : Memory.readBytes s.mem (0x100 + off.toNat) n.toNat = some bs) :
    launchOf (.owTouch n off) s = .go s (touchPrims (bs.map resp)) :=
  fetchOperand_read (s := s) _ hle hread

theorem map_resp_ne_nil {m : List Host.Cell} {a : Nat} (hn : n ≠ 0)
    (hread : Memory.readBytes m a n.toNat = some bs) : bs.map resp ≠ [] := fun hnil =>
  hn (BitVec.eq_of_toNat_eq ((Memory.readBytes_length hread).symm.trans (by simpa using hnil)))

/-- The block written back reads as the response bits, and nothing else changes. -/
theorem read_writeBytes_responses {m : List Host.Cell} (hwf : Memory.wf m = true) (a : Nat)
    (es : List Byte) :
    (∀ (k : Nat) (hk : k < es.length),
      Memory.read (Memory.writeBytes m a (es.map fun e => bitByte (resp e))) (a + k) =
        some (if es[k].getLsbD 0 then 0x01 else 0x00)) ∧
    ∀ c, c < a ∨ a + es.length ≤ c →
      Memory.read (Memory.writeBytes m a (es.map fun e => bitByte (resp e))) c =
        Memory.read m c := by
  refine ⟨fun k hk => ?_, fun c hc => ?_⟩
  · rw [Memory.read_writeBytes_at _ _ _ _ hwf (by simpa using hk), List.getElem_map]
    rfl
  · exact Memory.read_writeBytes_of_outside _ _ _ _ (by simpa using hc)

end OwTouch

/-- Settles O29: the outcomes of MemRead, the transmit of the first chunk, and the block that
completion writes back. -/
theorem owTouchBeginsAndWritesBack : Obligations.OwTouchBeginsAndWritesBack := by
  unfold Obligations.OwTouchBeginsAndWritesBack
  refine ⟨fun img => decodeCommand_of_row 8 rfl, fun s n off => ⟨fun hs =>
    ⟨fun hlt => exec_start_error hs nofun (fetchOperand_outOfRange (s := s) _ hlt),
     fun hle hnone => exec_start_fault hs nofun (fetchOperand_noValue (s := s) _ hle hnone),
     ?_, fun bs hle hn hread => ?_⟩, fun es hs hlen hwf => ?_⟩⟩
  · rintro rfl hle
    exact exec_start_finish hs nofun (launchOf_owTouch (n := 0) hle rfl)
  · have hbits := map_resp_ne_nil hn hread
    have hl := launchOf_owTouch hle hread
    rw [touchPrims_chunk _ hbits] at hl
    obtain ⟨hsent, hraised⟩ := exec_start_transmit (i := .owTouch n off) nofun
      (by simpa [Config.chunk] using hbits) hl
    refine ⟨hraised hs, fun ho ha => (hsent hs ho ha).trans ?_⟩
    simp only [← List.map_take, ← List.map_drop, List.map_map, List.length_map, List.length_take]
    rfl
  · obtain ⟨hin, hout⟩ := read_writeBytes_responses hwf (0x100 + off.toNat) es
    exact ⟨_, exec_finish hs nofun, hin, fun a ha => hout a (hlen ▸ ha)⟩

/-- An operation that opens with a transmit steps as if that transmit came after another step. -/
theorem step_start_eq_going {i : Instr} {s : State} {bs : List Byte} {todo : List Prim}
    {turns : List Turn} (hi : i ≠ .owSearch) (hbs : bs ≠ [])
    (hs : s.seq = .run i .start) (ho : s.portOpen = true)
    (hagenda : s.agenda = .engine .ok :: turns)
    (hl : launchOf i { s with agenda := turns, answer := .ok } =
      .go { s with agenda := turns, answer := .ok } (.uartTx bs :: todo)) :
    step s = step (s.setSeq (.run i (.going .plain (.uartTx bs :: todo) []))) := by
  have hstart : step s =
      .next (touched s turns .ok [.tx s.rate bs] (.run i (.going .plain todo []))) :=
    (step_engine hs hagenda).trans ((exec_start_transmit hi hbs hl).1 hs ho rfl)
  have hgoing := step_transmit (s := s.setSeq (.run i (.going .plain (.uartTx bs :: todo) [])))
    rfl ho hbs hagenda
  exact hstart.trans hgoing.symm

/-- A whole touch from the start of an operation that opens with it. -/
theorem runSteps_start_touch {i : Instr} {s : State} {bits : List Bool} {es : List Byte}
    {turns : List Turn} (hi : i ≠ .owSearch) (hbits : bits ≠ []) (hlen : es.length = bits.length)
    (hs : s.seq = .run i .start) (ho : s.portOpen = true) (hrx : s.rx = [])
    (hagenda : s.agenda = chunkTurns es.length es ++ turns)
    (hl : ∀ later, launchOf i { s with agenda := later, answer := .ok } =
      .go { s with agenda := later, answer := .ok } (touchPrims bits)) :
    ∃ ans evs, runSteps (chunkTurns es.length es).length s =
        .next (touched s turns ans evs (.run i (.going .plain [] es))) ∧
      sentBytes evs = bits.map sym := by
  have hes : es ≠ [] := List.ne_nil_of_length_pos (hlen ▸ List.length_pos_of_ne_nil hbits)
  obtain ⟨fuel, -, hturns⟩ := chunkTurns_chunk hes le_rfl
  have hstart : step s = step (s.setSeq (.run i (.going .plain (touchPrims bits) []))) := by
    simp only [touchPrims_chunk _ hbits] at hl ⊢
    exact step_start_eq_going hi (by simpa [Config.chunk] using hbits) hs ho
      (hagenda.trans (congrArg (· ++ turns) hturns)) (hl _)
  obtain ⟨ans, evs, hrun, hsent⟩ := runSteps_touch bits
    (s := s.setSeq (.run i (.going .plain (touchPrims bits) []))) le_rfl hlen ho hrx rfl hagenda
  refine ⟨ans, evs, Eq.trans ?_ hrun, hsent⟩
  rw [hturns]
  exact runSteps_congr hstart _

/-- Settles O30: the touch is `runSteps_touch`, and completion writes its echoes' bits back. -/
theorem owTouchRunKeepsTheBitOrder : Obligations.OwTouchRunKeepsTheBitOrder := by
  unfold Obligations.OwTouchRunKeepsTheBitOrder
  intro s n off bs es rest hs ho hrx hwf hn hle hread hlen hagenda
  have hlen' : es.length = (bs.map resp).length := by
    rw [List.length_map, Memory.readBytes_length hread, hlen]
  obtain ⟨ans, evs, hrun, hsent⟩ := runSteps_start_touch (i := .owTouch n off) nofun
    (map_resp_ne_nil hn hread) hlen' hs ho hrx (hagenda.trans (List.append_assoc _ _ _))
    fun later => launchOf_owTouch (s := { s with agenda := later, answer := .ok }) hle hread
  have hdone : runSteps (touchTurns es).length s =
      .next (((touched s rest .ok evs .idle).memWrite off.toNat
        (es.map fun e => bitByte (resp e))).complete .ok) := by
    rw [touchTurns, List.length_append, List.length_singleton, runSteps_add hrun, runSteps_one,
      step_engine rfl rfl]
    exact exec_finish rfl nofun
  obtain ⟨hin, hout⟩ := read_writeBytes_responses hwf (0x100 + off.toNat) es
  refine ⟨_, hdone, rfl, rfl, rfl, rfl, ho, rfl, hrx, ?_, hin, fun a ha => hout a (hlen ▸ ha)⟩
  refine (sentBytes_append s.hist evs).trans ?_
  rw [hsent, List.map_map]
  rfl

/-! #### A whole OW_RESET -/

/-- The flush that opens OW_RESET, as a step of the machine. -/
theorem step_owReset_start {s : State} {turns : List Turn} (hs : s.seq = .run .owReset .start)
    (ho : s.portOpen = true) (hagenda : s.agenda = .engine .ok :: turns) :
    step s = .next { s with
      agenda := turns, answer := .ok, present := false, rx := [], hist := s.hist ++ [.flush]
      seq := .run .owReset (.going .plain (resetPrims.drop 1) []) } := by
  refine (step_engine hs hagenda).trans ?_
  exact Eq.trans (exec_start_done hs nofun rfl (runPrim_flush ho)) rfl

/-- Settles O27: the eight turns one by one; completion reports the echo read. -/
theorem owResetRunsToPresence : Obligations.OwResetRunsToPresence := by
  unfold Obligations.OwResetRunsToPresence
  intro s e rest hs ho hagenda
  refine Eq.trans (runSteps_succ (k := 7) (step_owReset_start hs ho hagenda)) ?_
  refine Eq.trans (runSteps_succ (k := 6) (step_going rfl rfl (runPrim_setRate_ok ho rfl))) ?_
  refine Eq.trans (runSteps_succ (k := 5) (step_transmit rfl ho (by simp) rfl)) ?_
  refine Eq.trans (runSteps_succ (k := 4) (step_line ho rfl)) ?_
  refine Eq.trans (runSteps_succ (k := 3) (step_going rfl rfl rfl)) ?_
  refine Eq.trans (runSteps_succ (k := 2) (step_going rfl rfl
    (runPrim_rx_complete ho Nat.one_pos le_rfl))) ?_
  refine Eq.trans (runSteps_succ (k := 1) (step_going rfl rfl (runPrim_setRate_ok ho rfl))) ?_
  refine Eq.trans (runSteps_one _) (Eq.trans (step_engine rfl rfl) ?_)
  refine Eq.trans (exec_finish rfl nofun) (Eq.trans (finishOf_owReset e _) ?_)
  simp [State.setSeq, State.record, touched, resetByte_eq]

/-! #### OW_WRITE_BYTE, OW_READ_BYTE and OW_SELECT (42_bus_engine.md R87 to R92) -/

/-- The three steps of a byte write, its eight symbols written out. -/
theorem writeBytePrims_symbols (b : Byte) :
    writeBytePrims b =
      [.uartTx ([0, 1, 2, 3, 4, 5, 6, 7].map (fun k => if b.getLsbD k then 0xFF else 0x00)),
       .delay .chunkSettle, .uartRx 8] :=
  writeBytePrims_eq b

/-- Settles O31: the launch is one chunk, and completion discards the responses. -/
theorem owWriteByteSendsLsbFirst : Obligations.OwWriteByteSendsLsbFirst := by
  unfold Obligations.OwWriteByteSendsLsbFirst
  refine ⟨fun img => decodeCommand_of_row 9 rfl, fun s b => ?_⟩
  have hl : launchOf (.owWriteByte b) s = .go s (writeBytePrims b) := rfl
  rw [writeBytePrims_symbols] at hl
  obtain ⟨hsent, hraised⟩ := exec_start_transmit (i := .owWriteByte b) nofun (by simp) hl
  exact ⟨fun hs => ⟨hraised hs, hsent hs⟩, fun got hs => exec_finish hs nofun,
    fun hs => exec_report hs nofun⟩

/-- Bit k of the byte of a list of at most eight bits is the list's bit k (30_encoding.md R63). -/
theorem getLsbD_byteOfBits (bits : List Bool) {k : Nat} (hk : k < 8) :
    (byteOfBits bits).getLsbD k = bits.getD k false := by
  induction bits generalizing k with
  | nil => simp [byteOfBits]
  | cons b bits ih =>
    cases k with
    | zero => cases b <;> simp [byteOfBits]
    | succ k =>
      have htail : (byteOfBits (b :: bits)).getLsbD (k + 1) = (byteOfBits bits).getLsbD k := by
        cases b <;> simp [byteOfBits, hk, BitVec.getLsbD_eq_getElem (Nat.lt_of_succ_lt hk)]
      rw [htail, ih (Nat.lt_of_succ_lt hk), List.getD_cons_succ]

/-- Settles O32: eight read slots, and the byte that `byteOfBits` assembles, zero-extended. -/
theorem owReadByteAssemblesLsbFirst : Obligations.OwReadByteAssemblesLsbFirst := by
  unfold Obligations.OwReadByteAssemblesLsbFirst
  refine ⟨fun img => decodeCommand_of_row 10 rfl, fun s => ?_⟩
  have hl : launchOf .owReadByte s = .go s readBytePrims := rfl
  rw [readBytePrims_eq] at hl
  obtain ⟨hsent, hraised⟩ := exec_start_transmit (i := .owReadByte) nofun (by simp) hl
  refine ⟨fun hs => ⟨hraised hs, hsent hs⟩, fun es hs hlen =>
    ⟨(byteOfBits (es.map resp)).setWidth 32, exec_finish hs nofun, ?_, fun k hk => ?_⟩,
    fun hs => exec_report hs nofun⟩
  · have hbyte := (byteOfBits (es.map resp)).isLt
    rw [BitVec.lt_def, BitVec.toNat_setWidth]
    exact lt_of_le_of_lt (Nat.mod_le _ _) hbyte
  · have hk8 : k < 8 := hlen ▸ hk
    rw [BitVec.getLsbD_setWidth, decide_eq_true (hk8.trans (by decide)), Bool.true_and,
      getLsbD_byteOfBits _ hk8, List.getD_eq_getElem _ _ (by simpa using hk), List.getElem_map]
    rfl

/-- Nine byte writes: MATCH_ROM and the address bytes. -/
theorem selectPrims_eq (rom : Rom) :
    selectPrims rom =
      ((0x55 : Byte) :: (List.range 8).map (fun k => rom.extractLsb' (8 * k) 8)).flatMap
        (fun b =>
          [.uartTx ([0, 1, 2, 3, 4, 5, 6, 7].map (fun k => if b.getLsbD k then 0xFF else 0x00)),
           .delay .chunkSettle, .uartRx 8]) := by
  rw [selectPrims, show writeBytePrims = _ from funext writeBytePrims_symbols]
  rfl

theorem txBytes_flatMap {α : Type} (xs : List α) (f : α → List Prim) :
    txBytes (xs.flatMap f) = xs.flatMap (fun x => txBytes (f x)) := by
  induction xs with
  | nil => rfl
  | cons x xs ih => simp [txBytes_append, ih]

/-- Settles O33: OW_SELECT is the byte writes of `selectPrims_eq`, the first of MATCH_ROM. -/
theorem owSelectSendsMatchRomAndAddress : Obligations.OwSelectSendsMatchRomAndAddress := by
  unfold Obligations.OwSelectSendsMatchRomAndAddress
  refine ⟨fun img => decodeCommand_of_row 11 rfl, fun rom => ⟨?_, selectPrims_eq rom, ?_⟩,
    fun s rom => ?_⟩
  · rw [selectPrims_eq]
    rfl
  · rw [selectPrims_eq, txBytes_flatMap]
    rfl
  · have hfirst : selectPrims rom =
        .uartTx [0xFF, 0x00, 0xFF, 0x00, 0xFF, 0x00, 0xFF, 0x00] :: (selectPrims rom).drop 1 := by
      rw [selectPrims_eq]
      rfl
    have hl : launchOf (.owSelect rom) s = .go s (selectPrims rom) := rfl
    rw [hfirst] at hl
    obtain ⟨hsent, hraised⟩ := exec_start_transmit (i := .owSelect rom) nofun (by simp) hl
    exact ⟨fun hs => ⟨hraised hs, hsent hs⟩, fun got hs => exec_finish hs nofun,
      fun hs => exec_report hs nofun⟩

/-! #### OW_SELECT on the SimBus fixture (43_rom_search.md R104) -/

section Fixture

open SimBus

theorem sym_eq_ff_iff (b : Bool) : sym b = 0xFF ↔ b = true := by cases b <;> decide

/-- With no device driving the line, each device samples the master's bit. -/
theorem dataByte_undriven {devs : List Device} (b : Bool) (h : ∀ d ∈ devs, d.drive = true) :
    (dataByte devs (sym b)).1 = devs.map (fun d => d.sample b) := by
  have hslot : sym b = 0xFF ∨ sym b = 0x00 := by cases b <;> decide
  have hlevel : lineLevel devs (sym b) = b := by
    rw [lineLevel, List.all_eq_true.2 h, Bool.and_true, Bool.eq_iff_iff, decide_eq_true_iff,
      sym_eq_ff_iff]
  rw [dataByte, if_pos hslot, hlevel]

theorem dataBytes_append (devs : List Device) (xs ys : List Byte) :
    (dataBytes devs (xs ++ ys)).1 = (dataBytes (dataBytes devs xs).1 ys).1 := by
  induction xs generalizing devs with
  | nil => rfl
  | cons x xs ih => exact ih _

/-- Bits in whose course no device drives the line reach every device as they are. -/
theorem dataBytes_undriven (bits : List Bool) {devs : List Device}
    (h : ∀ d ∈ devs, ∀ k < bits.length, ((bits.take k).foldl Device.sample d).drive = true) :
    (dataBytes devs (bits.map sym)).1 = devs.map (fun d => bits.foldl Device.sample d) := by
  induction bits generalizing devs with
  | nil => simp [dataBytes]
  | cons b bits ih =>
    have hfirst := dataByte_undriven b fun d hd => h d hd 0 (Nat.succ_pos _)
    have hrest : ∀ d ∈ devs.map (fun d => d.sample b), ∀ k < bits.length,
        ((bits.take k).foldl Device.sample d).drive = true := by
      intro d' hd' k hk
      obtain ⟨d, hd, rfl⟩ := List.mem_map.1 hd'
      exact h d hd (k + 1) (Nat.succ_lt_succ hk)
    show (dataBytes (dataByte devs (sym b)).1 (bits.map sym)).1 = _
    rw [hfirst, ih hrest, List.map_map]
    rfl

/-- `dataBytes_undriven` where the bits take each device from what `f` makes it to what `g` does. -/
theorem dataBytes_map_undriven (bits : List Bool) (devs : List Device) {f g : Device → Device}
    (hto : ∀ d, bits.foldl Device.sample (f d) = g d)
    (hdrive : ∀ d, ∀ k < bits.length, ((bits.take k).foldl Device.sample (f d)).drive = true) :
    (dataBytes (devs.map f) (bits.map sym)).1 = devs.map g := by
  rw [dataBytes_undriven bits (List.forall_mem_map.2 fun d _ => hdrive d), List.map_map]
  exact List.map_congr_left fun d _ => hto d

/-- The MATCH_ROM byte takes a device that awaits a ROM command to the match, and on the way the
device never drives the line. -/
theorem foldl_sample_romMatch (d : Device) :
    (bitsOfByte 0x55).foldl Device.sample { d with st := .romCmd 0 0 } =
        { d with st := .matchRom 0 true } ∧
      ∀ k < (bitsOfByte 0x55).length,
        (((bitsOfByte 0x55).take k).foldl Device.sample
          { d with st := .romCmd 0 0 }).drive = true := by
  refine ⟨rfl, fun k hk => ?_⟩
  have hk8 : k < 8 := hk
  interval_cases k <;> rfl

/-- The first `k` bits of an address in the order they are sent (30_encoding.md R63, R64). -/
def addressBits (rom : Rom) (k : Nat) : List Bool := (List.range k).map fun j => rom.getLsbD j

theorem flatMap_bitsOfByte_romBytes (rom : Rom) :
    (romBytes rom).flatMap bitsOfByte = addressBits rom 64 := by
  simp [romBytes, romByte, bitsOfByte, addressBits, List.range_succ]

theorem addressBits_succ (rom : Rom) (k : Nat) :
    addressBits rom (k + 1) = addressBits rom k ++ [rom.getLsbD k] := by
  rw [addressBits, List.range_succ, List.map_append]
  rfl

theorem take_addressBits (rom : Rom) {j k : Nat} (hjk : j ≤ k) :
    (addressBits rom k).take j = addressBits rom j := by
  rw [addressBits, ← List.map_take, List.take_range, Nat.min_eq_left hjk]
  rfl

/-- The bits of two addresses agree below `k` (43_rom_search.md R104). -/
def agreeBelow (a b : Rom) (k : Nat) : Bool := decide (∀ j < k, a.getLsbD j = b.getLsbD j)

theorem agreeBelow_succ (a b : Rom) (k : Nat) :
    agreeBelow a b (k + 1) = (agreeBelow a b k && (a.getLsbD k == b.getLsbD k)) := by
  rw [Bool.eq_iff_iff]
  simp only [agreeBelow, Nat.forall_lt_succ_right, Bool.and_eq_true, decide_eq_true_eq, beq_iff_eq]

theorem agreeBelow_all (a b : Rom) : agreeBelow a b 64 = true ↔ b = a := by
  rw [agreeBelow, decide_eq_true_eq]
  exact ⟨fun h => BitVec.eq_of_getLsbD_eq fun j hj => (h j hj).symm, fun h j _ => by rw [h]⟩

/-- A device compares the bits of the match with its own, up to the last. -/
theorem sample_matchRom (d : Device) {k : Nat} (hk : k < 63) (ok line : Bool) :
    Device.sample { d with st := .matchRom k ok } line =
      { d with st := .matchRom (k + 1) (ok && (line == d.addr.getLsbD k)) } :=
  if_pos hk

/-- The last bit decides between selection and IDLE. -/
theorem sample_matchRom_last (d : Device) (ok line : Bool) :
    Device.sample { d with st := .matchRom 63 ok } line =
      { d with st := if (ok && (line == d.addr.getLsbD 63)) = true then .func 0 0 else .idle } := by
  simp only [Device.sample, bitAt, Nat.lt_irrefl, if_false]
  exact (apply_ite (fun q => ({ d with st := q } : Device)) _ _ _).symm

/-- After `k` address bits a device still matches if its own first `k` bits are those sent. -/
theorem foldl_sample_matchRom (rom : Rom) (d : Device) {k : Nat} (hk : k < 64) :
    (addressBits rom k).foldl Device.sample { d with st := .matchRom 0 true } =
      { d with st := .matchRom k (agreeBelow rom d.addr k) } := by
  induction k with
  | zero => rfl
  | succ k ih =>
    rw [addressBits_succ, List.foldl_append, ih (Nat.lt_of_succ_lt hk),
      agreeBelow_succ]
    exact sample_matchRom d (Nat.lt_of_succ_lt_succ hk) _ _

/-- All 64 address bits select exactly the device that has them. -/
theorem foldl_sample_address (rom : Rom) (d : Device) :
    (addressBits rom 64).foldl Device.sample { d with st := .matchRom 0 true } =
      { d with st := if d.addr = rom then .func 0 0 else .idle } := by
  rw [addressBits_succ, List.foldl_append, foldl_sample_matchRom rom d (by decide)]
  simp only [← agreeBelow_all, agreeBelow_succ rom d.addr 63]
  exact sample_matchRom_last d _ _

/-- During the match a device never drives the line. -/
theorem drive_address (rom : Rom) (d : Device) (k : Nat) (hk : k < (addressBits rom 64).length) :
    (((addressBits rom 64).take k).foldl Device.sample
      { d with st := .matchRom 0 true }).drive = true := by
  have hk64 : k < 64 := by simpa [addressBits] using hk
  rw [take_addressBits rom hk64.le, foldl_sample_matchRom rom d hk64]
  rfl

/-- The 72 wire bytes of OW_SELECT, as the bits of MATCH_ROM and of the address. -/
theorem txBytes_selectPrims (rom : Rom) :
    txBytes (selectPrims rom) =
      (bitsOfByte 0x55).map sym ++ (addressBits rom 64).map sym := by
  have hbyte (b : Byte) : txBytes (writeBytePrims b) = (bitsOfByte b).map sym :=
    txBytes_touchPrims _
  rw [← flatMap_bitsOfByte_romBytes, selectPrims, txBytes_flatMap]
  simp only [hbyte, List.flatMap_cons, List.map_flatMap]
  rfl

/-- Settles O60: the reset leaves every device awaiting a ROM command; no device drives the line
during the 72 bits, so each samples them all. -/
theorem selectReachesExactlyTheAddressed : Obligations.SelectReachesExactlyTheAddressed := by
  unfold Obligations.SelectReachesExactlyTheAddressed
  intro devs rom
  have hcommand := dataBytes_map_undriven (bitsOfByte 0x55) devs
    (fun d => (foldl_sample_romMatch d).1) fun d => (foldl_sample_romMatch d).2
  have haddress := dataBytes_map_undriven (addressBits rom 64) devs
    (foldl_sample_address rom) (drive_address rom)
  rw [txBytes_selectPrims]
  refine (dataBytes_append _ _ _).trans (Eq.trans ?_ haddress)
  exact congrArg (fun ds => (dataBytes ds _).1) hcommand

end Fixture

end Sys2Proof.Proofs

/-! ### Proofs: ROM discovery (43_rom_search.md)

The bits of an address, then one ENGINE step of OW_SEARCH at each of its positions: the parts it
begins, the decision at a position, and how a round closes. -/

namespace Sys2Proof.Proofs

open Sys2Proof Sys2Proof.Machine

/-! #### The bits of an address (43_rom_search.md R95) -/

/-- Position p lies in byte (p-1) div 8, at bit (p-1) mod 8. -/
theorem bitAt_eq_byte (rom : Rom) (p : Nat) :
    bitAt rom p = (rom.extractLsb' (8 * ((p - 1) / 8)) 8).getLsbD ((p - 1) % 8) := by
  rw [BitVec.getLsbD_extractLsb', Nat.div_add_mod, decide_eq_true (Nat.mod_lt _ (by decide)),
    Bool.true_and]
  rfl

/-- The mask of `setBit` has one bit. -/
theorem getLsbD_one_shiftLeft {j k : Nat} (hk : k < 64) :
    ((1 : Rom) <<< k).getLsbD j = decide (j = k) := by
  have hmask : (1 : Rom) <<< k = BitVec.twoPow 64 k := (BitVec.twoPow_eq 64 k).symm
  rw [hmask, BitVec.getLsbD_twoPow, decide_eq_true hk, Bool.true_and]
  exact decide_eq_decide.2 eq_comm

theorem bitAt_setBit (rom : Rom) (d : Bool) {p q : Nat} (hp : 1 ≤ p) (hp64 : p ≤ 64) (hq : 1 ≤ q)
    (hq64 : q ≤ 64) : bitAt (setBit rom p d) q = if q = p then d else bitAt rom q := by
  have hmask : ((1 : Rom) <<< (p - 1)).getLsbD (q - 1) = decide (q = p) := by
    rw [getLsbD_one_shiftLeft (by omega)]
    exact decide_eq_decide.2 (by omega)
  have hbound : q - 1 < 64 := by omega
  cases d with
  | true =>
    rw [bitAt, setBit, if_pos rfl, BitVec.getLsbD_or, hmask]
    by_cases hqp : q = p <;> simp [hqp, bitAt]
  | false =>
    rw [bitAt, setBit, if_neg nofun, BitVec.getLsbD_and, BitVec.getLsbD_not, hmask]
    by_cases hqp : q = p <;> simp [hqp, bitAt, hbound]

/-- Settles O34: the byte and bit of a position, and the one bit that `setBit` changes. -/
theorem bitPositionsOfAnAddress : Obligations.BitPositionsOfAnAddress := by
  unfold Obligations.BitPositionsOfAnAddress
  exact fun rom p hp hp64 => ⟨bitAt_eq_byte rom p, fun d q => bitAt_setBit rom d hp hp64⟩

/-! #### The positions of OW_SEARCH (43_rom_search.md R103) -/

section Positions

variable {s : State}

theorem exec_search_start (hs : s.seq = .run .owSearch .start) :
    exec .owSearch s = beginRound s.initSearch := by
  simp only [exec, execOwSearch, State.pos_of_run s hs]

theorem exec_search_endPart {ph : Phase} {got : List Byte}
    (hs : s.seq = .run .owSearch (.going ph [] got)) : exec .owSearch s = endPart ph got s := by
  simp only [exec, execOwSearch, State.pos_of_run s hs]

theorem exec_search_raised {e : ErrCode} (hs : s.seq = .run .owSearch (.raised e)) :
    exec .owSearch s = .next (s.abortSearch e) := by
  simp only [exec, execOwSearch, State.pos_of_run s hs]

end Positions

/-- An abort other than an overflow reports OK once presence was seen (43_rom_search.md R102). -/
theorem abortSearch_eq (s : State) (c : ErrCode) (hc : c ≠ .resultOverflow) :
    s.abortSearch c =
      { s with
        abort := c, result := BitVec.ofNat 32 s.cnt, err := if s.pseen then .ok else c
        done := true, seq := .idle } := by
  rw [State.abortSearch, if_neg hc]
  rfl

/-! #### The parts a search begins (43_rom_search.md R97, R98) -/

section Parts

variable {s : State}

/-- A round opens with the flush of its bus reset. -/
theorem beginRound_open (ho : s.portOpen = true) :
    beginRound s =
      .next { s with
        present := false, rx := [], hist := s.hist ++ [.flush]
        seq := .run .owSearch (.going .reset
          [.uartSetRate .reset, .uartTx [0xF0], .delay .resetSettle, .uartRx 1,
           .uartSetRate .data] []) } :=
  stepPrim_done (runPrim_flush (s := s.beginReset) ho)

theorem beginRound_closed (ho : s.portOpen = false) :
    beginRound s =
      .next { s with present := false, seq := .run .owSearch (.raised .transport) } :=
  stepPrim_raised (runPrim_closed (s := s.beginReset) rfl ho)

/-- A part other than the bus reset opens with a transmit. -/
theorem beginPart_transmit {ph : Phase} {b : Byte} {bs : List Byte} {rest : List Prim}
    (ho : s.portOpen = true) (ha : s.answer = .ok) :
    beginPart ph (.uartTx (b :: bs) :: rest) s =
      .next { s with
        hist := s.hist ++ [.tx s.rate (b :: bs)]
        seq := .run .owSearch (.going ph rest []) } :=
  stepPrim_done (runPrim_tx_ok ho (List.cons_ne_nil b bs) ha)

/-- A position opens with two read slots. -/
theorem beginPosition_sends (p : Nat) (cand : Rom) (marker : Nat) (ho : s.portOpen = true)
    (ha : s.answer = .ok) :
    beginPosition p cand marker s =
      .next { s with
        hist := s.hist ++ [.tx s.rate [0xFF, 0xFF]]
        seq := .run .owSearch
          (.going (.pair p cand marker) [.delay .chunkSettle, .uartRx 2] []) } :=
  beginPart_transmit ho ha

/-- The SEARCH_ROM byte is sent least significant bit first. -/
theorem beginCommand_sends (ho : s.portOpen = true) (ha : s.answer = .ok) :
    beginPart .command (writeBytePrims (opByte .romSearch)) s =
      .next { s with
        hist := s.hist ++ [.tx s.rate [0x00, 0x00, 0x00, 0x00, 0xFF, 0xFF, 0xFF, 0xFF]]
        seq := .run .owSearch (.going .command [.delay .chunkSettle, .uartRx 8] []) } :=
  beginPart_transmit ho ha

/-- A direction is written back as one touch. -/
theorem beginDirection_sends (p : Nat) (d : Bool) (cand : Rom) (marker : Nat)
    (ho : s.portOpen = true) (ha : s.answer = .ok) :
    beginPart (.direct p d cand marker) (touchPrims [d]) s =
      .next { s with
        hist := s.hist ++ [.tx s.rate [if d then 0xFF else 0x00]]
        seq := .run .owSearch
          (.going (.direct p d cand marker) [.delay .chunkSettle, .uartRx 1] []) } := by
  rw [touchPrims_one, beginPart_transmit ho ha]
  rfl

end Parts

/-- Settles O35: the search state is cleared by `initSearch`, and the first round begins. -/
theorem searchBeginsCleared : Obligations.SearchBeginsCleared := by
  unfold Obligations.SearchBeginsCleared
  refine ⟨fun img => decodeCommand_of_row 12 rfl, fun s hs => ⟨Memory.clearRomtab s.mem,
    Memory.read_clearRomtab_above s.mem, Memory.read_clearRomtab_below s.mem, fun ho => ?_,
    fun ho => ?_⟩⟩
  · exact (exec_search_start hs).trans (beginRound_open (s := s.initSearch) ho)
  · exact (exec_search_start hs).trans (beginRound_closed (s := s.initSearch) ho)

/-- Settles O36: the presence rule decides between the command byte and the abort, and a raise is an
abort. -/
theorem searchNeedsPresenceOrAborts : Obligations.SearchNeedsPresenceOrAborts := by
  unfold Obligations.SearchNeedsPresenceOrAborts
  refine ⟨fun s e hs => ⟨fun he => ?_, fun hF0 h00 ho ha => ?_⟩, fun s hs => ?_⟩
  · have habsent : presenceOf (resetEcho [e]) = false := by
      rw [presenceOf_eq]
      rcases he with rfl | rfl <;> rfl
    rw [exec_search_endPart hs, endPart, habsent, if_neg nofun, abortSearch_eq _ .noPresence nofun,
      State.endReset, habsent]
  · have hpresent : presenceOf (resetEcho [e]) = true := by
      rw [presenceOf_eq]
      exact decide_eq_true ⟨hF0, h00⟩
    rw [exec_search_endPart hs, endPart, if_pos hpresent, State.endReset, hpresent]
    exact beginCommand_sends (s := { s with present := true, pseen := true }) ho ha
  · rw [exec_search_raised hs, abortSearch_eq s .transport nofun]

/-- Settles O38: the command byte and a direction below position 64 are each followed by the two read
slots of a position. -/
theorem searchVisitsPositionsInOrder : Obligations.SearchVisitsPositionsInOrder := by
  unfold Obligations.SearchVisitsPositionsInOrder
  refine fun s got ho ha => ⟨fun hs => ?_, fun p d cand marker hs hp => ?_⟩
  · exact (exec_search_endPart hs).trans (beginPosition_sends 1 0 0 ho ha)
  · rw [exec_search_endPart hs, endPart, if_pos (show p < Config.romBits from hp)]
    exact beginPosition_sends (p + 1) (setBit cand p d) marker ho ha

/-! #### The decision at a position (43_rom_search.md R98; 90_conflicts.md C1) -/

section Decision

variable {s : State} {p marker : Nat} {cand : Rom}

/-- Two responses of 1: no device takes part any more. -/
theorem decidePosition_noAnswer :
    decidePosition p cand marker true true s = .next (s.abortSearch .noResponse) := rfl

/-- A device answered, and all that did agree: their bit is the direction. -/
theorem decidePosition_agree {a c : Bool} (hac : a ≠ c) :
    decidePosition p cand marker a c s =
      beginPart (.direct p a cand marker) (touchPrims [a]) s := by
  have hboth : ¬ (a && c) = true := by
    rw [Bool.and_eq_true]
    rintro ⟨rfl, rfl⟩
    exact hac rfl
  rw [decidePosition, if_neg hboth, if_pos (bne_iff_ne.2 hac)]

/-- At a discrepancy the direction is `branch`'s. -/
theorem decidePosition_discrepancy {d : Bool} (hd : s.branch p = d) :
    decidePosition p cand marker false false s =
      beginPart (.direct p d cand (newMarker p d marker)) (touchPrims [d]) s := by
  subst hd
  rfl

/-- Below the last discrepancy the direction is the reference's. -/
theorem branch_below (h : p < s.ld) : s.branch p = bitAt s.ref p := if_pos h

theorem branch_at (h : p = s.ld) : s.branch p = true := by
  rw [State.branch, if_neg (by omega), decide_eq_true h]

theorem branch_above (h : s.ld < p) : s.branch p = false := by
  rw [State.branch, if_neg (by omega), decide_eq_false (by omega)]

end Decision

/-- Settles O37: no answer aborts, agreement gives the direction, and at a discrepancy `branch` does,
with the marker moved where direction 0 is taken. -/
theorem searchPositionStep : Obligations.SearchPositionStep := by
  unfold Obligations.SearchPositionStep
  intro s p marker cand ea ec hs ho ha a c goes
  have hexec : exec .owSearch s = decidePosition p cand marker a c s := exec_search_endPart hs
  have hgoes (d : Bool) (marker' : Nat) (h : exec .owSearch s =
      beginPart (.direct p d cand marker') (touchPrims [d]) s) : goes d marker' :=
    h.trans (beginDirection_sends p d cand marker' ho ha)
  have hdiscrepancy (d : Bool) (ha0 : a = false) (hc0 : c = false) (hd : s.branch p = d) :
      goes d (newMarker p d marker) := by
    rw [ha0, hc0] at hexec
    exact hgoes _ _ (hexec.trans (decidePosition_discrepancy hd))
  refine ⟨fun ha1 hc1 => ?_, fun hac => hgoes _ _ (hexec.trans (decidePosition_agree hac)),
    fun ha0 hc0 hp href => hdiscrepancy true ha0 hc0 ((branch_below hp).trans href),
    fun ha0 hc0 hp href => hdiscrepancy false ha0 hc0 ((branch_below hp).trans href),
    fun ha0 hc0 hp => hdiscrepancy true ha0 hc0 (branch_at hp),
    fun ha0 hc0 hp => hdiscrepancy false ha0 hc0 (branch_above hp)⟩
  rw [hexec, ha1, hc1, decidePosition_noAnswer, abortSearch_eq s .noResponse nofun]

/-! #### The end of a round (43_rom_search.md R100, R101; 90_conflicts.md C2) -/

/-- The three ways a round closes: the search ends, or the next round begins or raises. -/
theorem closeRound_outcomes (s : State) (cand : Rom) (marker : Nat) :
    (marker = 0 →
      closeRound cand marker s =
        .next { s with
          ref := cand, ld := 0, ldf := true, abort := .ok, result := BitVec.ofNat 32 s.cnt
          err := .ok, done := true, seq := .idle }) ∧
    (marker ≠ 0 → s.portOpen = true →
      closeRound cand marker s =
        .next { s with
          ref := cand, ld := marker, present := false, rx := [], hist := s.hist ++ [.flush]
          seq := .run .owSearch (.going .reset
            [.uartSetRate .reset, .uartTx [0xF0], .delay .resetSettle, .uartRx 1,
             .uartSetRate .data] []) }) ∧
    (marker ≠ 0 → s.portOpen = false →
      closeRound cand marker s =
        .next { s with
          ref := cand, ld := marker, present := false
          seq := .run .owSearch (.raised .transport) }) := by
  refine ⟨?_, fun hm ho => ?_, fun hm ho => ?_⟩
  · rintro rfl
    rfl
  · rw [closeRound, if_neg hm]
    exact beginRound_open (s := { s with ref := cand, ld := marker }) ho
  · rw [closeRound, if_neg hm]
    exact beginRound_closed (s := { s with ref := cand, ld := marker }) ho

theorem romValid_iff (rom : Rom) : romValid rom = true ↔ crc8 (romBytes rom) = 0 :=
  crcValid_iff (romBytes rom)

section RoundEnd

variable {s : State} {cand : Rom} {marker : Nat}

theorem endRound_invalid (hcrc : crc8 (romBytes cand) ≠ 0) :
    endRound cand marker s = closeRound cand marker s :=
  if_neg (mt (romValid_iff cand).1 hcrc)

theorem endRound_appends (hcrc : crc8 (romBytes cand) = 0) (hroom : s.cnt ≠ s.params.maxDevices) :
    endRound cand marker s = closeRound cand marker (s.appendRom cand) :=
  (if_pos ((romValid_iff cand).2 hcrc)).trans (if_neg hroom)

theorem endRound_overflow (hcrc : crc8 (romBytes cand) = 0) (hfull : s.cnt = s.params.maxDevices) :
    endRound cand marker s = .next (s.abortSearch .resultOverflow) :=
  (if_pos ((romValid_iff cand).2 hcrc)).trans (if_pos hfull)

/-- Byte k of an address among its eight bytes (30_encoding.md R64). -/
theorem romBytes_getElem (rom : Rom) {k : Nat} (hk : k < (romBytes rom).length) :
    (romBytes rom)[k] = rom.extractLsb' (8 * k) 8 := by
  have hk8 : k < 8 := hk
  interval_cases k <;> rfl

/-- An appended address fills the entry at the count and no other byte of memory. -/
theorem read_appendRom (cand : Rom) (hwf : Memory.wf s.mem = true) :
    (∀ k, k < 8 →
      Memory.read (s.appendRom cand).mem (0x1000 + 8 * s.cnt + k) =
        some (cand.extractLsb' (8 * k) 8)) ∧
    ∀ a, a < 0x1000 + 8 * s.cnt ∨ 0x1000 + 8 * s.cnt + 8 ≤ a →
      Memory.read (s.appendRom cand).mem a = Memory.read s.mem a := by
  refine ⟨fun k hk => ?_, fun a ha => Memory.read_writeBytes_of_outside _ _ _ _ ha⟩
  rw [← romBytes_getElem cand hk]
  exact Memory.read_writeBytes_at _ _ _ _ hwf hk

end RoundEnd

/-- Settles O39: the candidate's CRC and the room in the table decide what the round does before it
closes. -/
theorem searchRoundEnds : Obligations.SearchRoundEnds := by
  unfold Obligations.SearchRoundEnds
  intro s d cand0 marker got hs hwf cand closes
  have hexec : exec .owSearch s = endRound cand marker s := exec_search_endPart hs
  refine ⟨fun hcrc => ?_, fun hcrc hroom => ⟨(s.appendRom cand).mem, ?_, read_appendRom cand hwf⟩,
    fun hcrc hfull => hexec.trans (endRound_overflow hcrc hfull)⟩
  · simp only [closes, hexec.trans (endRound_invalid hcrc)]
    exact closeRound_outcomes s cand marker
  · simp only [closes, hexec.trans (endRound_appends hcrc hroom)]
    exact closeRound_outcomes (s.appendRom cand) cand marker

/-! #### The frame of OW_SEARCH (43_rom_search.md R103) -/

/-- All that a step of OW_SEARCH can change: the link, the history, the sequencer and STATUS, the search
state, RESULT, and memory from ROMTAB on. -/
theorem search_frame {s t : State} (h : execOwSearch s = .next t) :
    t = { s with
      portOpen := t.portOpen, rate := t.rate, rx := t.rx, hist := t.hist, seq := t.seq
      ld := t.ld, ldf := t.ldf, ref := t.ref, pseen := t.pseen, cnt := t.cnt, abort := t.abort
      present := t.present, mem := t.mem, result := t.result, done := t.done, err := t.err } ∧
    ∀ a, a < 0x1000 → Memory.read t.mem a = Memory.read s.mem a := by
  obtain ⟨ld, ldf, ref, pseen, cnt, abort, present, mem, hmem, hc⟩ := search_cases h
  rcases hc with ⟨c, rfl⟩ | rfl | ⟨ph, p, rest, got, hp⟩
  · exact ⟨rfl, hmem⟩
  · exact ⟨rfl, hmem⟩
  · rw [stepPrim_frame hp]
    exact ⟨rfl, hmem⟩

/-- Settles O45: none of the fields of `search_frame` is an operand, OVR or the model's own. -/
theorem searchKeepsOperandsAndData : Obligations.SearchKeepsOperandsAndData := by
  unfold Obligations.SearchKeepsOperandsAndData
  intro s t h
  obtain ⟨hframe, hdata⟩ := search_frame h
  rw [hframe]
  exact ⟨rfl, rfl, rfl, rfl, rfl, rfl, rfl, rfl, rfl, rfl, hdata⟩

end Sys2Proof.Proofs

/-! ### Proofs: exceptions (60_exceptions.md)

How an ENGINE step ends an operation: completion is a step of its own, apart from every primitive
step. -/

namespace Sys2Proof.Proofs

open Sys2Proof Sys2Proof.Machine Sys2Proof.Safety

/-- `t` follows `s` by a completion: DONE is set, and the link and the history stay. -/
def Completes (s t : State) : Prop := t.done = true ∧ SameLink s t

theorem completes_complete (s : State) (e : ErrCode) : Completes s (s.complete e) :=
  ⟨rfl, rfl, rfl, rfl, rfl⟩

theorem sameLink_of_entered {i : Instr} {s s' : State} (h : Entered i s s') : SameLink s s' := by
  rcases h with rfl | ⟨-, rfl⟩
  · exact .refl _
  · exact ⟨rfl, rfl, rfl, rfl⟩

theorem completes_of_finish {i : Instr} {got : List Byte} {s t : State}
    (h : finishOf i got s = .next t) : Completes s t := by
  refine ⟨?_, sameLink_of_finish h⟩
  obtain ⟨p, r, k, m, e, rfl, -⟩ := finishOf_next h
  rfl

/-- A step of OW_SEARCH that ends it is an abort or the normal termination (43_rom_search.md R101,
R102); any other performs a primitive step. -/
theorem completes_or_busy_of_search {s t : State} (h : execOwSearch s = .next t) :
    Completes s t ∨ t.busy = true := by
  obtain ⟨ld, ldf, ref, pseen, cnt, abort, present, mem, -, hc⟩ := search_cases h
  rcases hc with ⟨c, rfl⟩ | rfl | ⟨ph, p, rest, got, hp⟩
  · exact .inl ⟨rfl, rfl, rfl, rfl, rfl⟩
  · exact .inl ⟨rfl, rfl, rfl, rfl, rfl⟩
  · exact .inr (stepPrim_busy hp)

/-- An ENGINE step completes the operation, or performs a primitive step and leaves it running. -/
theorem completes_or_busy_of_exec {i : Instr} {s t : State} (h : exec i s = .next t) :
    Completes s t ∨ t.busy = true := by
  by_cases hi : i = .owSearch
  · subst hi
    exact completes_or_busy_of_search h
  · rcases exec_outcomes hi h with ⟨e, rfl⟩ | ⟨s', got, hs', hf⟩ | ⟨s', ph, p, rest, got, -, hp⟩
    · exact .inl (completes_complete s e)
    · obtain ⟨hdone, hlink⟩ := completes_of_finish hf
      exact .inl ⟨hdone, (sameLink_of_entered hs').trans hlink⟩
    · exact .inr (stepPrim_busy hp)

/-- Settles O8: a raise is reported by `exec_report`, and a step after which the engine is not busy
is a completion (`completes_or_busy_of_exec`). -/
theorem completionReportsAndRollsNothingBack :
    Obligations.CompletionReportsAndRollsNothingBack := by
  unfold Obligations.CompletionReportsAndRollsNothingBack
  refine ⟨fun i s e hi hs => exec_report hs hi, fun i pos s t _ h hidle => ?_⟩
  rcases completes_or_busy_of_exec h with ⟨hdone, hlink⟩ | hbusy
  · exact ⟨hdone, hlink.portOpen, hlink.rate, hlink.rx, hlink.hist⟩
  · rw [hidle] at hbusy
    cases hbusy

end Sys2Proof.Proofs

/-! ### Proofs: reset and progress (70_reset_and_hazards.md)

What block reset leaves; and how many primitive steps an operation takes: a primitive step leaves one
fewer, so that an operation other than OW_SEARCH ends within its count, whatever is interleaved. -/

namespace Sys2Proof.Proofs

open Sys2Proof Sys2Proof.Machine Sys2Proof.Safety

/-! #### Block reset and the reset values (R119, R120) -/

theorem regValue_reset (off : Nat) : State.reset.regValue off = 0 := by
  unfold State.regValue
  repeat' split
  all_goals rfl

theorem read_reset_romtab {a : Nat} (ha : 0x1000 ≤ a) : Memory.read State.reset.mem a = some 0 :=
  if_neg fun ⟨_, hlow⟩ => Nat.not_lt.2 ha hlow

/-- Settles O54: the fields are those of `State.reset`; its memory lists no byte, its registers read 0
(`regValue_reset`), and block reset is a turn, which keeps the history (`grows_of_runTurn`). -/
theorem resetLeavesTheStatedValues : Obligations.ResetLeavesTheStatedValues := by
  unfold Obligations.ResetLeavesTheStatedValues
  exact ⟨rfl, rfl, rfl, rfl, rfl, rfl, rfl, rfl, rfl, rfl, rfl, rfl, rfl, rfl, rfl, rfl, rfl, rfl, rfl,
    rfl, rfl, rfl, rfl, fun _ hlo hhi => if_pos ⟨hlo, hhi⟩, fun _ => read_reset_romtab,
    fun off _ _ => regValue_reset off,
    fun s => (grows_of_runTurn (tn := .blockReset) (s := s) rfl).1⟩

theorem step_blockReset {s : State} {rest : List Turn} (h : s.agenda = .blockReset :: rest) :
    step s = .next (State.blockReset { s with agenda := rest }) := by
  simp only [step, State.takeTurn, h, runTurn]

/-- Settles O55: the turn is `State.blockReset`, which appends `Close` where the port is open. -/
theorem blockResetStopsEverything : Obligations.BlockResetStopsEverything := by
  unfold Obligations.BlockResetStopsEverything
  intro s rest h
  rw [step_blockReset h]
  cases ho : s.portOpen with
  | true => simp [State.blockReset]
  | false => simp [State.blockReset]

/-- Settles O56: the engine is idle, its memory lists no byte, and the default parameters are legal. -/
theorem resetMeetsTheInvariant : Obligations.ResetMeetsTheInvariant where
  seqOk := trivial
  memOk := ⟨rfl, fun _ hc => nomatch hc⟩
  statusOk := ⟨nofun, nofun, nofun, .inl rfl⟩
  linkOk := fun _ => rfl
  boundsOk := ⟨rfl, Nat.zero_le _, Nat.zero_le _⟩

/-! #### The primitive steps left (R133) -/

section StepsLeft

variable {i : Instr} {s : State}

theorem stepsLeft_start (hs : s.seq = .run i .start) : stepsLeft s = primCount s i := by
  simp only [stepsLeft, hs]

theorem stepsLeft_raised {e : ErrCode} (hs : s.seq = .run i (.raised e)) : stepsLeft s = 0 := by
  simp only [stepsLeft, hs]

theorem stepsLeft_going {ph : Phase} {todo : List Prim} {got : List Byte}
    (hs : s.seq = .run i (.going ph todo got)) :
    stepsLeft s = todo.length + if i = .owSearch then afterPart ph else 0 := by
  simp only [stepsLeft, hs]

end StepsLeft

/-- In `t` operation `i` has taken the first of `n` primitive steps: it has raised, or has one fewer
left. -/
def TookOneOf (n : Nat) (i : Instr) (t : State) : Prop :=
  t.seq = .run i (.raised .transport) ∨
  ∃ ph todo got, t.seq = .run i (.going ph todo got) ∧ stepsLeft t + 1 = n

theorem tookOneOf_of_stepPrim {i : Instr} {ph : Phase} {p : Prim} {rest : List Prim}
    {got : List Byte} {s t : State} {n : Nat}
    (hn : n = (p :: rest).length + if i = .owSearch then afterPart ph else 0)
    (h : stepPrim i ph p rest got s = .next t) : TookOneOf n i t := by
  rcases stepPrim_seq h with hraised | ⟨bs, hgoing⟩
  · exact .inl hraised
  · refine .inr ⟨ph, rest, got ++ bs, hgoing, ?_⟩
    rw [stepsLeft_going hgoing, hn, List.length_cons]
    omega

/-! #### Operations other than OW_SEARCH -/

theorem length_selectPrims (rom : Rom) : (selectPrims rom).length = 27 := by
  simp [selectPrims, romBytes, writeBytePrims_eq]

/-- An operation launches as many primitive steps as the spec counts. -/
theorem length_of_launch {i : Instr} (hi : i ≠ .owSearch) {s s' : State} {todo : List Prim}
    (h : launchOf i s = .go s' todo) : todo.length = primCount s i := by
  cases i <;> simp only [launchOf] at h
  case openPort r => split at h <;> cases h; rfl
  case close => cases h; simp only [primCount]; split <;> rfl
  case uartRead n off => split at h <;> cases h; rfl
  case uartWrite n off | crcCompute n off | crcValidate n off =>
    rcases fetchOperand_cases s n off _ with ⟨-, e⟩ | ⟨-, -, e⟩ | ⟨bs, -, -, e⟩ <;>
      (rw [e] at h; cases h)
    rfl
  case owTouch n off =>
    rcases fetchOperand_cases s n off _ with ⟨-, e⟩ | ⟨-, -, e⟩ | ⟨bs, -, hread, e⟩ <;>
      (rw [e] at h; cases h)
    rw [length_touchPrims, List.length_map, Memory.readBytes_length hread, primCount]
  case owSelect rom => cases h; exact length_selectPrims rom
  case owSearch => exact absurd rfl hi
  all_goals cases h; rfl

/-- An ENGINE step of an operation other than OW_SEARCH ends it, with OK only when no primitive step
is left, or takes one of those it has left. -/
theorem ends_or_tookOneOf_of_exec {i : Instr} (hi : i ≠ .owSearch) {pos : Pos} {s t : State}
    (hs : s.seq = .run i pos) (h : exec i s = .next t) :
    (t.seq = .idle ∧ (t.err = .ok → stepsLeft s = 0)) ∨
    (0 < stepsLeft s ∧ TookOneOf (stepsLeft s) i t) := by
  have hpos := State.pos_of_run s hs
  have left_launch {s' todo} (hstart : s.pos = .start) (hl : launchOf i s = .go s' todo) :
      stepsLeft s = todo.length := by
    rw [stepsLeft_start (hs.trans (by rw [← hpos, hstart])), length_of_launch hi hl]
  rcases exec_cases hi h with ⟨e, he, rfl⟩ | ⟨s', got, hc, hf⟩ | ⟨s', ph, p, rest, got, hc, hp⟩
  · refine .inl ⟨rfl, fun hok => ?_⟩
    rcases he with he | ⟨-, hl⟩
    · exact stepsLeft_raised (hs.trans (by rw [← hpos, he]))
    · cases (hok : e = .ok)
      exact absurd (launchOf_raise hl) (by simp)
  · have hidle : t.seq = .idle := by
      obtain ⟨p, r, k, m, e, rfl, -⟩ := finishOf_next hf
      rfl
    refine .inl ⟨hidle, fun _ => ?_⟩
    rcases hc with ⟨hstart, hl, -⟩ | ⟨-, ph, hg⟩
    · exact left_launch hstart hl
    · rw [stepsLeft_going (hs.trans (by rw [← hpos, hg])), if_neg hi]
      rfl
  · have hleft : stepsLeft s = (p :: rest).length + if i = .owSearch then afterPart ph else 0 := by
      rcases hc with ⟨hstart, hl, -, -⟩ | ⟨-, hg⟩
      · rw [left_launch hstart hl, if_neg hi]; rfl
      · exact stepsLeft_going (hs.trans (by rw [← hpos, hg]))
    refine .inr ⟨?_, tookOneOf_of_stepPrim hleft hp⟩
    rw [hleft, List.length_cons]
    omega

/-! #### OW_SEARCH, part by part -/

section Search

variable {s t : State} {cand : Rom} {marker : Nat}

theorem tookOneOf_of_beginPart {ph : Phase} {todo : List Prim} {n : Nat}
    (h : beginPart ph todo s = .next t) (hne : todo ≠ []) (hn : n = todo.length + afterPart ph) :
    TookOneOf n .owSearch t := by
  cases todo with
  | nil => exact absurd rfl hne
  | cons p rest => exact tookOneOf_of_stepPrim hn h

theorem tookOneOf_of_beginRound (h : beginRound s = .next t) : TookOneOf 393 .owSearch t :=
  tookOneOf_of_beginPart h (by simp [resetPrims]) rfl

/-- A round ends the search or begins the next round. -/
theorem idle_or_tookOneOf_of_closeRound (h : closeRound cand marker s = .next t) :
    t.seq = .idle ∨ TookOneOf 393 .owSearch t := by
  unfold closeRound at h
  split at h
  · cases h; exact .inl rfl
  · exact .inr (tookOneOf_of_beginRound h)

theorem idle_or_tookOneOf_of_endRound (h : endRound cand marker s = .next t) :
    t.seq = .idle ∨ TookOneOf 393 .owSearch t := by
  unfold endRound at h
  split at h
  · split at h
    · cases h; exact .inl rfl
    · exact idle_or_tookOneOf_of_closeRound h
  · exact idle_or_tookOneOf_of_closeRound h

theorem idle_or_tookOneOf_of_decidePosition {p : Nat} {a c : Bool}
    (h : decidePosition p cand marker a c s = .next t) :
    t.seq = .idle ∨ TookOneOf (3 + 6 * (64 - p)) .owSearch t := by
  unfold decidePosition at h
  split at h
  · cases h; exact .inl rfl
  · split at h
    · exact .inr (tookOneOf_of_beginPart h (touchPrims_cons_ne_nil _ _) rfl)
    · exact .inr (tookOneOf_of_beginPart h (touchPrims_cons_ne_nil _ _) rfl)

/-- What an ENGINE step of OW_SEARCH does with `n` primitive steps of the round left: it ends the
search, takes one of them, or, none left, begins the next round. -/
def SearchAdvances (n : Nat) (t : State) : Prop :=
  t.seq = .idle ∨ TookOneOf n .owSearch t ∨ (n = 0 ∧ TookOneOf 393 .owSearch t)

theorem searchAdvances_of_endPart {ph : Phase} {got : List Byte} (hph : searchPhaseOk s ph)
    (h : endPart ph got s = .next t) : SearchAdvances (afterPart ph) t := by
  cases ph with
  | plain => exact hph.elim
  | reset =>
    simp only [endPart] at h
    split at h
    · exact .inr (.inl (tookOneOf_of_beginPart h (touchPrims_cons_ne_nil _ _) rfl))
    · cases h; exact .inl rfl
  | command =>
    simp only [endPart, beginPosition] at h
    exact .inr (.inl (tookOneOf_of_beginPart h (touchPrims_cons_ne_nil _ _) rfl))
  | pair p cand marker =>
    rcases idle_or_tookOneOf_of_decidePosition h with hidle | htook
    · exact .inl hidle
    · exact .inr (.inl htook)
  | direct p d cand marker =>
    obtain ⟨-, hp1, hp64, -⟩ := hph
    simp only [endPart] at h
    split at h
    · next hlt =>
      simp only [Config.romBits] at hlt
      refine .inr (.inl (tookOneOf_of_beginPart h (touchPrims_cons_ne_nil _ _) ?_))
      simp only [touchPrims_two, afterPart, List.length_cons, List.length_nil]
      omega
    · next hge =>
      simp only [Config.romBits] at hge
      rcases idle_or_tookOneOf_of_endRound h with hidle | htook
      · exact .inl hidle
      · exact .inr (.inr ⟨by simp only [afterPart]; omega, htook⟩)

theorem searchAdvances_of_exec {pos : Pos} (hs : s.seq = .run .owSearch pos) (hq : SeqOk s)
    (h : execOwSearch s = .next t) : SearchAdvances (stepsLeft s) t := by
  simp only [execOwSearch, State.pos_of_run s hs] at h
  match pos with
  | .start =>
    rw [stepsLeft_start hs]
    exact .inr (.inl (tookOneOf_of_beginRound h))
  | .going ph (p :: rest) got => exact .inr (.inl (tookOneOf_of_stepPrim (stepsLeft_going hs) h))
  | .going ph [] got =>
    rw [stepsLeft_going hs, if_pos rfl, List.length_nil, Nat.zero_add]
    exact searchAdvances_of_endPart (partOk_search.1 (partOk_of_seqOk hq hs)).1 h
  | .raised e => cases h; exact .inl rfl

end Search

/-! #### Any interleaving -/

/-- After `c` ENGINE turns operation `i`, which began with `n` primitive steps to take, has ended or
still runs with no more than the rest of them left. -/
def WithinCount (n c : Nat) (i : Instr) (s : State) : Prop :=
  s.seq = .idle ∨ ∃ pos, s.seq = .run i pos ∧ c + stepsLeft s ≤ n

/-- An ENGINE turn ends the operation or takes one of the steps it has left. -/
theorem withinCount_of_engineTurn {n c : Nat} {i : Instr} (hi : i ≠ .owSearch) {pos : Pos}
    {ans : LineAnswer} {s t : State} (hs : s.seq = .run i pos) (hc : c + stepsLeft s ≤ n)
    (h : engineTurn ans s = .next t) : WithinCount n (c + 1) i t := by
  have hsame : stepsLeft (answering s ans) = stepsLeft s := stepsLeft_congr rfl rfl
  rw [engineTurn_run hs] at h
  rcases ends_or_tookOneOf_of_exec (s := answering s ans) hi hs h with ⟨hidle, -⟩ | ⟨hleft, htook⟩
  · exact .inl hidle
  · rw [hsame] at hleft htook
    rcases htook with hraised | ⟨ph, todo, got, hgoing, hfewer⟩
    · exact .inr ⟨_, hraised, by rw [stepsLeft_raised hraised]; omega⟩
    · exact .inr ⟨_, hgoing, by omega⟩

/-- Any other turn leaves the operation where it is, or is a block reset. -/
theorem withinCount_of_otherTurn {n c : Nat} {i : Instr} {pos : Pos} {tn : Turn} {s t : State}
    (hs : s.seq = .run i pos) (hc : c + stepsLeft s ≤ n) (htn : isEngine tn = false)
    (h : runTurn tn s = .next t) : WithinCount n c i t := by
  by_cases hreset : tn = .blockReset
  · subst hreset
    cases h
    exact .inl rfl
  · obtain ⟨hseq, hopen, -⟩ := runTurn_keeps (State.busy_of_run s hs) h htn hreset
    exact .inr ⟨pos, hseq.trans hs, by rwa [stepsLeft_congr hseq hopen]⟩

/-- Along a run the operation stays within its count until it has ended once. -/
theorem idle_or_withinCount_of_run {sched : Nat → Turn} {r : Nat → State} {i : Instr}
    (hi : i ≠ .owSearch) (hrun : RunsUnder sched r) (hs : (r 0).seq = .run i .start) (k : Nat) :
    (∃ j, j ≤ k ∧ (r j).seq = .idle) ∨
      WithinCount (stepsLeft (r 0)) (engineTurns sched k) i (r k) := by
  induction k with
  | zero => exact .inr (.inr ⟨.start, hs, by simp [engineTurns]⟩)
  | succ k ih =>
    rcases ih with ⟨j, hj, hidle⟩ | hidle | ⟨pos, hpos, hcount⟩
    · exact .inl ⟨j, by omega, hidle⟩
    · exact .inl ⟨k, by omega, hidle⟩
    · have hturn := hrun k
      cases htn : sched k with
      | engine ans =>
        rw [htn] at hturn
        simp only [engineTurns, htn, isEngine, if_true]
        exact .inr (withinCount_of_engineTurn hi hpos hcount hturn)
      | host acc | line v | blockReset =>
        have hother : isEngine (sched k) = false := by rw [htn]; rfl
        simp only [engineTurns, hother, Bool.false_eq_true, if_false, Nat.add_zero]
        exact .inr (withinCount_of_otherTurn hpos hcount hother hturn)

/-- Once an operation has been given an ENGINE turn for each primitive step and one for completion, it
has ended. -/
theorem ends_within_count {sched : Nat → Turn} {r : Nat → State} {i : Instr} {k : Nat}
    (hi : i ≠ .owSearch) (hrun : RunsUnder sched r) (hs : (r 0).seq = .run i .start)
    (hk : stepsLeft (r 0) + 1 ≤ engineTurns sched k) : ∃ j, j ≤ k ∧ (r j).busy = false := by
  rcases idle_or_withinCount_of_run hi hrun hs k with ⟨j, hj, hidle⟩ | hidle | ⟨pos, -, hcount⟩
  · exact ⟨j, hj, (State.busy_false_iff _).2 hidle⟩
  · exact ⟨k, le_rfl, (State.busy_false_iff _).2 hidle⟩
  · omega

/-- Settles O41: one step is `ends_or_tookOneOf_of_exec`, or of OW_SEARCH `searchAdvances_of_exec`; over
a run the turns of the other agents take none of the steps left (`ends_within_count`). -/
theorem operationsTakeTheStatedSteps : Obligations.OperationsTakeTheStatedSteps := by
  unfold Obligations.OperationsTakeTheStatedSteps
  refine ⟨fun i pos s t hi hs h => ?_, fun pos s t hs hq h => ?_,
    fun sched r i k hrun hs hi hk => ends_within_count hi hrun hs hk⟩
  · rcases ends_or_tookOneOf_of_exec hi hs h with hends | ⟨hleft, hraised | hgoing⟩
    · exact .inl hends
    · exact .inr (.inl ⟨hraised, hleft⟩)
    · exact .inr (.inr hgoing)
  · rcases searchAdvances_of_exec hs hq h with hidle | htook | ⟨hnone, htook⟩
    · exact .inl hidle
    · rcases htook with hraised | ⟨ph, todo, got, hgoing, hfewer⟩
      · exact .inr (.inl hraised)
      · exact .inr (.inr ⟨ph, todo, got, hgoing, .inl hfewer⟩)
    · rcases htook with hraised | ⟨ph, todo, got, hgoing, hround⟩
      · exact .inr (.inl hraised)
      · exact .inr (.inr ⟨ph, todo, got, hgoing, .inr ⟨hnone, hround⟩⟩)

end Sys2Proof.Proofs
